-- ==== Sys2Proof/Word.lean ====
section
/-! DEFINITION. The word of the register bus (spec 00_scope.md R13: every register, mask and bus datum is a 32-bit unsigned word). -/

namespace Sys2Proof

/-- A register, a mask or a bus datum (R13). Bit `i` is the bit of weight `2^i` (R14). -/
abbrev Word := BitVec 32

end Sys2Proof
end

