-- ==== Sys2Proof/Config.lean ====
section
/-! DEFINITION. The configuration record `CFG` (spec 00_scope.md R7 to R12), the parameters of the surroundings the spec leaves open, and the free values: constants without a body, so that nothing can be proved of what they are. -/

namespace Sys2Proof

/-- A Bank Descriptor (R8, 30_encoding.md R107): four byte offsets, the interrupt flag, and up to four labels that no operation reads. -/
structure BankDesc where
  val     : Nat
  latch   : Nat
  tol     : Nat
  irqBase : Nat
  irq     : Bool
  labels  : List String
  deriving DecidableEq, Repr

/-- A Capability Override Entry (R9, 30_encoding.md R106). An entry with both masks zero is a sentinel. -/
structure CapEntry where
  bank    : Nat
  inMask  : Word
  outMask : Word
  deriving DecidableEq, Repr

/-- `IRQ_SUBOFF` (R10): the place of each interrupt role relative to a bank's `irq_base`, the same for every bank (40_locator.md R122). -/
structure IrqSubOff where
  ien   : Nat
  type0 : Nat
  type1 : Nat
  type2 : Nat
  istat : Nat
  deriving DecidableEq, Repr

/-- The place and the fields of the global control register: the `CTRL_*` parameters of R10. -/
structure CtrlLayout where
  offset : Nat
  divLsb : Nat
  divW   : Nat
  fbLsb  : Nat
  fbW    : Nat
  enBit  : Nat
  deriving DecidableEq, Repr

/-- The configuration record `CFG` (R7, R10), fixed for the lifetime of a controller instance. `npinsPhys` and `upstreamIrq` are parameters no rule reads. -/
structure Cfg where
  bankTable   : List BankDesc
  irqSubOff   : IrqSubOff
  ngpio       : Nat
  npinsPhys   : Nat
  capTable    : List CapEntry
  regBase     : Nat
  ctrl        : CtrlLayout
  upstreamIrq : Nat
  deriving DecidableEq, Repr

/-- How the upstream interrupt line is derived (20_memory.md R79, decision D24): an unconstrained input, or `REF`'s reading, asserted exactly while some enabled bit is pending. -/
inductive LineModel where
  | free
  | enabledPending
  deriving DecidableEq, Repr

/-- When the environment may set a status bit (43_irq_control.md R199, decision D23): at any time, or under the match condition of R199's table. -/
inductive StatusModel where
  | free
  | matched
  deriving DecidableEq, Repr

/-- Which requesters of the normal context run on the execution unit of the interrupt context (20_memory.md R73, 60_exceptions.md R292): every one, where there is a single unit, or only those listed. -/
inductive SharedUnit where
  | all
  | only (requesters : List Nat)
  deriving DecidableEq, Repr

/-- What the spec leaves open about the block's surroundings. -/
structure Platform where
  line       : LineModel
  status     : StatusModel
  sharedUnit : SharedUnit
  deriving DecidableEq, Repr

/-- Requester `k` of the normal context runs on the execution unit of the interrupt context. -/
def Platform.shares (p : Platform) (k : Nat) : Bool :=
  match p.sharedUnit with
  | .all    => true
  | .only l => l.contains k

/-- What the read number `n` of a `VAL` register returns, in bank `b` whose sampled level is `l`: a draw of the environment, independent at each read (20_memory.md R63, 93_implementation_defined.md U5). Log entry 7. -/
opaque Config.valDraw (n b : Nat) (l : Word) : Word

/-- The unknown word the register with role code `r` of bank `b` holds after reset (10_state.md R35). Role code 8 stands for the global control register. Log entry 3. -/
opaque Config.resetWord (r b : Nat) : Word

/-- The unspecified contents of the request port after reset (10_state.md R35): the port `c`, 0 the interrupt context's and `k + 1` that of requester `k` of the normal context, and the field `f`. Log entry 3. -/
opaque Config.resetPort (c f : Nat) : Word

/-- What the environment has sampled of bank `b`'s pins when the block comes out of reset: the level (`k = 0`), the edges (`k = 1`) and the lasting matches (`k = 2`) of `Sample`. Log entry 5. -/
opaque Config.resetLevel (k b : Nat) : Word

/-- The level of the upstream interrupt line when the block comes out of reset. Log entry 5. -/
opaque Config.resetLine : Bool

end Sys2Proof
end

