-- ==== Sys2Proof/Syntax.lean ====
section
/-! DEFINITION. The operations of the block: one constructor for each row of spec/opcode_table.json (spec 30_encoding.md R100). -/

namespace Sys2Proof

/-- An operation with the operands its format reads (30_encoding.md R91). A role, a kind and a collaborator status stand as the number in the command word, reserved values too, since what a reserved value answers depends on the other operands (60_exceptions.md R280). `OP0` and `OP1`, which INIT reads, are port registers and not part of the word. -/
inductive Instr where
  /-- LOCATE bank, role (40_locator.md R121). -/
  | locate (bank role : Nat)
  /-- LOCATEP pin, role (40_locator.md R126). -/
  | locatep (pin role : Nat)
  /-- INCAP pin (41_capability.md R144). -/
  | incap (pin : Nat)
  /-- OUTCAP pin (41_capability.md R145). -/
  | outcap (pin : Nat)
  /-- VALID pin (41_capability.md R146). -/
  | valid (pin : Nat)
  /-- GET pin (42_pin_io.md R160). -/
  | get (pin : Nat)
  /-- SET pin, bit (42_pin_io.md R162). -/
  | set (pin : Nat) (v : Bool)
  /-- DIRIN pin (42_pin_io.md R167). -/
  | dirin (pin : Nat)
  /-- DIROUT pin, initial (42_pin_io.md R168). -/
  | dirout (pin : Nat) (v : Bool)
  /-- DIRQ pin (42_pin_io.md R169). -/
  | dirq (pin : Nat)
  /-- TOL pin, enable (42_pin_io.md R170). -/
  | tol (pin : Nat) (v : Bool)
  /-- SETTYPE pin, kind (43_irq_control.md R191). -/
  | settype (pin kind : Nat)
  /-- MASK pin (43_irq_control.md R195). -/
  | mask (pin : Nat)
  /-- UNMASK pin (43_irq_control.md R201). -/
  | unmask (pin : Nat)
  /-- ACK pin (43_irq_control.md R197). -/
  | ack (pin : Nat)
  /-- DEMUX (44_demux.md R220). -/
  | demux
  /-- INIT cs (45_initializer.md R250). -/
  | init (cs : Nat)
  deriving DecidableEq, Repr

end Sys2Proof
end

