-- ==== Sys2Proof/WellFormed.lean ====
section
/-! DEFINITION. Which operations a command word can hold: each operand fits its field (spec 30_encoding.md R90, R91). -/

namespace Sys2Proof

/-- The field `idx` is 16 bits wide: `PIN_W = 16` (R90, 00_scope.md R10). -/
def idxFits (n : Nat) : Bool := decide (n < 65536)

/-- The field `arg` is 8 bits wide (R90). -/
def argFits (n : Nat) : Bool := decide (n < 256)

/-- INIT reads two bits of `arg` (R91, format I). -/
def statusFits (n : Nat) : Bool := decide (n < 4)

/-- Every operand fits the field it is encoded in. -/
def Instr.wf : Instr → Bool
  | .locate bank role  => idxFits bank && argFits role
  | .locatep pin role  => idxFits pin && argFits role
  | .incap pin         => idxFits pin
  | .outcap pin        => idxFits pin
  | .valid pin         => idxFits pin
  | .get pin           => idxFits pin
  | .set pin _         => idxFits pin
  | .dirin pin         => idxFits pin
  | .dirout pin _      => idxFits pin
  | .dirq pin          => idxFits pin
  | .tol pin _         => idxFits pin
  | .settype pin kind  => idxFits pin && argFits kind
  | .mask pin          => idxFits pin
  | .unmask pin        => idxFits pin
  | .ack pin           => idxFits pin
  | .demux             => true
  | .init cs           => statusFits cs

end Sys2Proof
end

