-- ==== Sys2Proof/Decode.lean ====
section
/-! DEFINITION. Decoding a command word, total and rejecting by name, and the encoder (spec 30_encoding.md R90 to R92, R100, R101). -/

namespace Sys2Proof

/-- Why a command word names no operation. -/
inductive DecodeError where
  /-- An `op` value R100 assigns to no operation. The operation ends with InvalidArgument (R101), which the step gives it. -/
  | unassignedOp (op : Nat)
  deriving DecidableEq, Repr

/-- `op[31:24]` (R90). -/
def opField (w : Word) : Nat := w.toNat / 16777216

/-- `arg[23:16]` (R90). -/
def argField (w : Word) : Nat := w.toNat / 65536 % 256

/-- `idx[15:0]` (R90), zero-extended (R92). -/
def idxField (w : Word) : Nat := w.toNat % 65536

/-- `arg[0]` (R91, format PV). -/
def bitField (w : Word) : Bool := argField w % 2 == 1

/-- `arg[1:0]` (R91, format I). -/
def statusField (w : Word) : Nat := argField w % 4

/-- The operation a command word requests: R100's map of `op`, and of the other fields those the operation's format reads (R91). -/
def decode (w : Word) : Except DecodeError Instr :=
  match opField w with
  | 0x01 => .ok (.locate (idxField w) (argField w))
  | 0x02 => .ok (.locatep (idxField w) (argField w))
  | 0x03 => .ok (.incap (idxField w))
  | 0x04 => .ok (.outcap (idxField w))
  | 0x05 => .ok (.valid (idxField w))
  | 0x10 => .ok (.get (idxField w))
  | 0x11 => .ok (.set (idxField w) (bitField w))
  | 0x12 => .ok (.dirin (idxField w))
  | 0x13 => .ok (.dirout (idxField w) (bitField w))
  | 0x14 => .ok (.dirq (idxField w))
  | 0x15 => .ok (.tol (idxField w) (bitField w))
  | 0x20 => .ok (.settype (idxField w) (argField w))
  | 0x21 => .ok (.mask (idxField w))
  | 0x22 => .ok (.unmask (idxField w))
  | 0x23 => .ok (.ack (idxField w))
  | 0x24 => .ok .demux
  | 0x30 => .ok (.init (statusField w))
  | op   => .error (.unassignedOp op)

/-- The operation in an instruction of the opcode table, its bits numbered as the table numbers them. Every instruction is one 32-bit word (R90), so the bits from `nbits` up are 0. -/
def decodeTableWord (nbits w : Nat) : Option Instr :=
  match decode (BitVec.ofNat 32 (w % 2 ^ nbits)) with
  | .ok i    => some i
  | .error _ => none

/-- `op` of R100. -/
def Instr.op : Instr → Nat
  | .locate _ _  => 0x01
  | .locatep _ _ => 0x02
  | .incap _     => 0x03
  | .outcap _    => 0x04
  | .valid _     => 0x05
  | .get _       => 0x10
  | .set _ _     => 0x11
  | .dirin _     => 0x12
  | .dirout _ _  => 0x13
  | .dirq _      => 0x14
  | .tol _ _     => 0x15
  | .settype _ _ => 0x20
  | .mask _      => 0x21
  | .unmask _    => 0x22
  | .ack _       => 0x23
  | .demux       => 0x24
  | .init _      => 0x30

/-- The contents of the field `arg`, 0 where the operation ignores it (R91). -/
def Instr.arg : Instr → Nat
  | .locate _ role  => role
  | .locatep _ role => role
  | .set _ v        => v.toNat
  | .dirout _ v     => v.toNat
  | .tol _ v        => v.toNat
  | .settype _ kind => kind
  | .init cs        => cs
  | .incap _ | .outcap _ | .valid _ | .get _ | .dirin _ | .dirq _
  | .mask _ | .unmask _ | .ack _ | .demux => 0

/-- The contents of the field `idx`, 0 where the operation ignores it (R91). -/
def Instr.idx : Instr → Nat
  | .locate bank _ => bank
  | .locatep pin _ | .incap pin | .outcap pin | .valid pin | .get pin | .set pin _
  | .dirin pin | .dirout pin _ | .dirq pin | .tol pin _ | .settype pin _
  | .mask pin | .unmask pin | .ack pin => pin
  | .demux | .init _ => 0

/-- The command word of an operation: `op`, `arg`, `idx` side by side (R90), ignored bits 0. -/
def encode (i : Instr) : Word :=
  BitVec.ofNat 32 (i.op * 16777216 + i.arg * 65536 + i.idx)

/-- The bits of the command word that an operation with this `op` reads (R91), the `op` bits among them. -/
def Instr.readBits : Instr → Word
  | .locate _ _ | .locatep _ _ | .settype _ _ => 0xFFFFFFFF#32
  | .incap _ | .outcap _ | .valid _ | .get _ | .dirin _ | .dirq _
  | .mask _ | .unmask _ | .ack _ => 0xFF00FFFF#32
  | .set _ _ | .dirout _ _ | .tol _ _ => 0xFF01FFFF#32
  | .demux  => 0xFF000000#32
  | .init _ => 0xFF030000#32

end Sys2Proof
end

