-- ==== Sys2Proof/Machine/Operands.lean ====
section
/-! DEFINITION. What the operands stand for: a pin's bank, bit and mask, role codes, trigger kinds and the trigger-type table, collaborator status (spec 00_scope.md R14 to R17, 30_encoding.md R92 to R98, 43_irq_control.md R190, R198). -/

namespace Sys2Proof.Machine

/-! ## Pins -/

/-- `bank(p) = p >> 5` (R16). -/
def bankOf (p : Nat) : Nat := p / 32

/-- `bit(p) = p mod 32` (R16). -/
def bitOf (p : Nat) : Nat := p % 32

/-- `mask(p) = 1 << bit(p)` (R14). -/
def maskOf (p : Nat) : Word := 1#32 <<< bitOf p

/-- The pin of a bank and a bit position: the demultiplexer's inverse (R16). -/
def pinOf (b i : Nat) : Nat := b * 32 + i

/-- The word with the bits of a mask set or cleared, every other bit kept (R17, 20_memory.md R60). -/
def putBits (t m : Word) (v : Bool) : Word := if v then t ||| m else t &&& ~~~m

/-- The bit a word holds for a pin: bit `bit(p)` (R14). -/
def pinBit (w : Word) (p : Nat) : Bool := w.getLsbD (bitOf p)

/-! ## Roles -/

/-- The eight roles of a register (30_encoding.md R93). -/
inductive Role where
  | val | latch | ien | type0 | type1 | type2 | istat | tol
  deriving DecidableEq, Repr

/-- The role of a code of R93: codes 8 to 255 are reserved (R102). -/
def roleOfCode : Nat → Option Role
  | 0 => some .val
  | 1 => some .latch
  | 2 => some .ien
  | 3 => some .type0
  | 4 => some .type1
  | 5 => some .type2
  | 6 => some .istat
  | 7 => some .tol
  | _ => none

/-- The code of a role (R93). -/
def roleCode : Role → Nat
  | .val   => 0
  | .latch => 1
  | .ien   => 2
  | .type0 => 3
  | .type1 => 4
  | .type2 => 5
  | .istat => 6
  | .tol   => 7

/-- The five roles that exist only where the bank supports interrupts (R93, last column). -/
def isIrqRole : Role → Bool
  | .val   => false
  | .latch => false
  | .ien   => true
  | .type0 => true
  | .type1 => true
  | .type2 => true
  | .istat => true
  | .tol   => false

/-! ## Trigger kinds -/

/-- The six values of a pin's type (10_state.md R27). -/
inductive Kind where
  | unset | edgeRising | edgeFalling | edgeBoth | levelHigh | levelLow
  deriving DecidableEq, Repr

/-- The kind of a trigger-kind code (30_encoding.md R94): every other code is unrecognised. -/
def kindOfCode : Nat → Option Kind
  | 1 => some .edgeRising
  | 2 => some .edgeFalling
  | 3 => some .edgeBoth
  | 4 => some .levelHigh
  | 8 => some .levelLow
  | _ => none

/-- The dispatch handlers (30_encoding.md R95). -/
inductive Handler where
  | none | edge | level
  deriving DecidableEq, Repr

/-- The handler's code on the dispatch port (R95). -/
def handlerCode : Handler → Nat
  | .none  => 0
  | .edge  => 1
  | .level => 2

/-- The handler a kind binds (10_state.md R27, last column of 43_irq_control.md R190). -/
def handlerOf : Kind → Handler
  | .unset       => .none
  | .edgeRising  => .edge
  | .edgeFalling => .edge
  | .edgeBoth    => .edge
  | .levelHigh   => .level
  | .levelLow    => .level

/-- A pin's bits in the three type registers. -/
structure TypeBits where
  type0 : Bool
  type1 : Bool
  type2 : Bool
  deriving DecidableEq, Repr

/-- The trigger-type table (43_irq_control.md R190): the three bits of a requested kind. `unset` has no row. -/
def typeBitsOf : Kind → Option TypeBits
  | .unset       => none
  | .edgeRising  => some { type0 := true,  type1 := false, type2 := false }
  | .edgeFalling => some { type0 := false, type1 := false, type2 := false }
  | .edgeBoth    => some { type0 := true,  type1 := false, type2 := true }
  | .levelHigh   => some { type0 := true,  type1 := true,  type2 := false }
  | .levelLow    => some { type0 := false, type1 := true,  type2 := false }

/-- The inverse table (43_irq_control.md R198): three patterns are not defined by the source. -/
def kindOfTypeBits (t : TypeBits) : Option Kind :=
  match t.type0, t.type1, t.type2 with
  | false, false, false => some .edgeFalling
  | true,  false, false => some .edgeRising
  | true,  false, true  => some .edgeBoth
  | false, true,  false => some .levelLow
  | true,  true,  false => some .levelHigh
  | false, false, true  => none
  | false, true,  true  => none
  | true,  true,  true  => none

end Sys2Proof.Machine
end

