-- ==== Sys2Proof/Machine/Capability.lean ====
section
/-! DEFINITION. The Capability Resolver (spec 41_capability.md R140 to R149). -/

namespace Sys2Proof.Machine

/-- A sentinel: both masks zero, whatever its bank (00_scope.md R9, 41_capability.md R141). -/
def isSentinel (e : CapEntry) : Bool := e.inMask == 0#32 && e.outMask == 0#32

/-- `cap_entry(b)` (R141): scan until a sentinel, tested first, or the bank's entry; the end of the list ends the scan too (R142). -/
def capEntry : List CapEntry → Nat → Option CapEntry
  | [],      _ => none
  | e :: es, b => if isSentinel e then none else if e.bank = b then some e else capEntry es b

/-- `input_capable(p)` (R141): default-permissive, else the entry's bit. -/
def inputCapable (c : Cfg) (p : Nat) : Bool :=
  match capEntry c.capTable (bankOf p) with
  | none   => true
  | some e => pinBit e.inMask p

/-- `output_capable(p)` (R141): default-permissive, else the entry's bit. -/
def outputCapable (c : Cfg) (p : Nat) : Bool :=
  match capEntry c.capTable (bankOf p) with
  | none   => true
  | some e => pinBit e.outMask p

/-- The validity predicate (R146): total, false at and above `NGPIO`. -/
def validPin (c : Cfg) (p : Nat) : Bool :=
  decide (p < c.ngpio) && (inputCapable c p || outputCapable c p)

end Sys2Proof.Machine
end

