-- ==== Sys2Proof/Machine/Flags.lean ====
section
/-! DEFINITION. The block has no status flags and no condition codes (spec 10_state.md R33). What an operation reports is `RESP` alone, and this file holds the codes it reports with (30_encoding.md R95, R96). -/

namespace Sys2Proof.Machine

/-- The status of an ended operation (30_encoding.md R96). -/
inductive Status where
  | ok
  | notSupported
  | invalidArgument
  | initializationFailure
  | initializationDeferred
  | configurationDefect
  | contractViolation
  | notReady
  deriving DecidableEq, Repr

/-- The status code in `RESP.status[3:0]` (R96). Codes 8 to 15 are never produced. -/
def statusCode : Status → BitVec 4
  | .ok                     => 0#4
  | .notSupported           => 1#4
  | .invalidArgument        => 2#4
  | .initializationFailure  => 3#4
  | .initializationDeferred => 4#4
  | .configurationDefect    => 5#4
  | .contractViolation      => 6#4
  | .notReady               => 7#4

/-- A boolean result or the bit GET returns: `RESP.data[0]`, upper bits 0 (R95). -/
def boolWord (v : Bool) : Word := if v then 1#32 else 0#32

/-- DIRQ's direction codes (R95). -/
def directionOutput : Word := 0#32

/-- DIRQ's direction codes (R95). -/
def directionInput : Word := 1#32

end Sys2Proof.Machine
end

