-- ==== Sys2Proof/Machine/Locator.lean ====
section
/-! DEFINITION. The Bank Table, the Register Locator, the register map and well-formed configurations (spec 40_locator.md, 00_scope.md R8, R10, R11, 20_memory.md R50 to R56). -/

namespace Sys2Proof.Machine

/-- `NBANKS` (00_scope.md R10). -/
def nbanks (c : Cfg) : Nat := c.bankTable.length

/-- `bank_irq(b) = BANK_TABLE[b].irq` (40_locator.md R120), false where the table has no bank `b`. -/
def bankIrq (c : Cfg) (b : Nat) : Bool :=
  match c.bankTable[b]? with
  | some d => d.irq
  | none   => false

/-- The role-to-field table of 40_locator.md R121, R122. -/
def roleOffset (c : Cfg) (d : BankDesc) : Role → Nat
  | .val   => d.val
  | .latch => d.latch
  | .tol   => d.tol
  | .ien   => d.irqBase + c.irqSubOff.ien
  | .type0 => d.irqBase + c.irqSubOff.type0
  | .type1 => d.irqBase + c.irqSubOff.type1
  | .type2 => d.irqBase + c.irqSubOff.type2
  | .istat => d.irqBase + c.irqSubOff.istat

/-- Why the locator returns no offset. -/
inductive LocateError where
  /-- The bank index is out of range (R123). -/
  | badBank
  /-- The role code is reserved (30_encoding.md R102). -/
  | badRole
  /-- An interrupt role on a bank without interrupts (R124). -/
  | noInterrupts
  deriving DecidableEq, Repr

/-- LOCATE as a pure function of the configuration, a bank and a role code, with its tests in R121's order. -/
def locate (c : Cfg) (b code : Nat) : Except LocateError Nat :=
  match c.bankTable[b]? with
  | none => .error .badBank
  | some d =>
    match roleOfCode code with
    | none => .error .badRole
    | some r =>
      if isIrqRole r && !d.irq then .error .noInterrupts else .ok (roleOffset c d r)

/-! ## The register map -/

/-- A register of the window: a bank's register of a role, or the global control register (10_state.md R31). -/
inductive Reg where
  | bank (b : Nat) (r : Role)
  | ctrl
  deriving DecidableEq, Repr

/-- The roles a bank has registers for (10_state.md R31, column "exists"). -/
def rolesOf (d : BankDesc) : List Role :=
  if d.irq then [.val, .latch, .tol, .ien, .type0, .type1, .type2, .istat]
  else [.val, .latch, .tol]

/-- The offsets and registers of one bank. -/
def bankMap (c : Cfg) (b : Nat) (d : BankDesc) : List (Nat × Reg) :=
  (rolesOf d).map fun r => (roleOffset c d r, .bank b r)

/-- The offsets and registers of the banks from index `b` up. -/
def banksMap (c : Cfg) : Nat → List BankDesc → List (Nat × Reg)
  | _, []      => []
  | b, d :: ds => bankMap c b d ++ banksMap c (b + 1) ds

/-- The whole register map: every (bank, role) the locator succeeds for and the control register (20_memory.md R51, R56). -/
def regMap (c : Cfg) : List (Nat × Reg) :=
  banksMap c 0 c.bankTable ++ [(c.ctrl.offset, .ctrl)]

/-- The register at a bus address: the register whose offset plus `REG_BASE` it is (20_memory.md R50). -/
def regAt (c : Cfg) (addr : Nat) : Option Reg :=
  ((regMap c).find? fun e => c.regBase + e.1 == addr).map (·.2)

/-- The bus address of the control register (20_memory.md R50). -/
def ctrlAddr (c : Cfg) : Nat := c.regBase + c.ctrl.offset

/-! ## Well-formed configurations -/

/-- R11 (a) and the constraints of R10: the table covers every configured pin, and there is one. -/
def coversPins (c : Cfg) : Bool :=
  decide (1 ≤ c.ngpio) && decide (c.ngpio ≤ 32 * nbanks c)

/-- R11 (b): every offset, and `REG_BASE`, is a multiple of 4. -/
def alignedOffsets (c : Cfg) : Bool :=
  decide (c.regBase % 4 = 0) && (regMap c).all fun e => decide (e.1 % 4 = 0)

/-- R11 (c): the offsets are pairwise distinct. -/
def distinctOffsets (c : Cfg) : Bool := decide ((regMap c).map (·.1)).Nodup

/-- Two bit fields, each `(lsb, width)`, share no bit. -/
def disjointFields (a b : Nat × Nat) : Bool := decide (a.1 + a.2 ≤ b.1) || decide (b.1 + b.2 ≤ a.1)

/-- The `CTRL_*` row of R10: the fields are disjoint, wide enough, and lie inside the word. -/
def ctrlLayoutFits (c : Cfg) : Bool :=
  let div := (c.ctrl.divLsb, c.ctrl.divW)
  let fb  := (c.ctrl.fbLsb, c.ctrl.fbW)
  let en  := (c.ctrl.enBit, 1)
  decide (16 ≤ c.ctrl.divW) && decide (4 ≤ c.ctrl.fbW)
    && disjointFields div fb && disjointFields div en && disjointFields fb en
    && decide (c.ctrl.divLsb + c.ctrl.divW ≤ 32) && decide (c.ctrl.fbLsb + c.ctrl.fbW ≤ 32)
    && decide (c.ctrl.enBit < 32)

/-- R8: a descriptor has at most four labels. -/
def labelsFit (c : Cfg) : Bool := c.bankTable.all fun d => decide (d.labels.length ≤ 4)

/-- A well-formed configuration (R11, with the constraint column of R10: log entry 18). -/
def cfgWf (c : Cfg) : Bool :=
  coversPins c && alignedOffsets c && distinctOffsets c && ctrlLayoutFits c && labelsFit c

end Sys2Proof.Machine
end

