-- ==== Sys2Proof/Machine/Fixture.lean ====
section
/-! DEFINITION. The reference fixture `REF` (spec 00_scope.md R10, 20_memory.md R55, 41_capability.md R147), the configuration `State.reset` holds. It describes no silicon, and no statement about all states rests on it (log entry 2). -/

namespace Sys2Proof.Machine

/-- `REF.BANK_TABLE` (20_memory.md R55). -/
def refBankTable : List BankDesc :=
  [ { val := 0x00, latch := 0x70, tol := 0x18, irqBase := 0x04, irq := true,  labels := ["A", "B", "C", "D"] },
    { val := 0x1C, latch := 0x74, tol := 0x34, irqBase := 0x20, irq := true,  labels := ["E", "F", "G", "H"] },
    { val := 0x38, latch := 0x78, tol := 0x50, irqBase := 0x3C, irq := false, labels := ["I", "J", "K", "L"] } ]

/-- `REF.CAP_TABLE` (41_capability.md R147). -/
def refCapTable : List CapEntry :=
  [ { bank := 1, inMask := 0xFFFF0000#32, outMask := 0x0000FFFF#32 },
    { bank := 2, inMask := 0x0000007F#32, outMask := 0x00007F00#32 },
    { bank := 0, inMask := 0x00000000#32, outMask := 0x00000000#32 } ]

/-- `REF` (00_scope.md R10, last column). R10 gives `UPSTREAM_IRQ` no value there, since no rule uses it: the 0 is a DESIGN CHOICE of the model (log entry 31). -/
def refCfg : Cfg :=
  { bankTable   := refBankTable
    irqSubOff   := { ien := 0x00, type0 := 0x04, type1 := 0x08, type2 := 0x0C, istat := 0x10 }
    ngpio       := 80
    npinsPhys   := 80
    capTable    := refCapTable
    regBase     := 0
    ctrl        := { offset := 0x54, divLsb := 16, divW := 16, fbLsb := 6, fbW := 4, enBit := 0 }
    upstreamIrq := 0 }

/-- The surroundings the machine of `State.reset` stands in: everything the spec leaves to the environment is free (D23, D24), and there is one execution unit (log entries 12, 14, 15). -/
def refPlatform : Platform := { line := .free, status := .free, sharedUnit := .all }

end Sys2Proof.Machine
end

