-- ==== Sys2Proof/Machine/State.lean ====
section
/-! DEFINITION. The state of one controller instance, its surroundings' inputs and records, and the state after reset (spec 10_state.md R20 to R36). INVENTORY.md lists every field. -/

namespace Sys2Proof.Machine

/-- Why the machine stops with a fault. -/
inductive Fault where
  /-- LOCATE or LOCATEP asked for an interrupt role of a bank without interrupts: the spec's outcome is "fault" (40_locator.md R124, 60_exceptions.md R272). Raised by the locator's operations. Safe: the spec lets no claim continue through it. -/
  | contractViolation
  /-- The configuration is ill formed, so that no controller exists (60_exceptions.md R274, 93_implementation_defined.md U8). Raised by every step of such a machine. Safe. -/
  | configurationDefect
  deriving DecidableEq, Repr

/-- Why the model gives no next state. The three bus refusals are 93_implementation_defined.md U2: the block never issues such an access. -/
inductive Refusal where
  /-- An operation without a meaning in this model. Raised by no arm. Safe. -/
  | notModelled (mnemonic : String)
  /-- A bus access at an address that is no multiple of 4 (20_memory.md R53). Raised by the bus primitives. Safe. -/
  | busMisaligned
  /-- A bus access at an address no register has (20_memory.md R51, R58). Raised by the bus primitives. Safe. -/
  | busUnmapped
  /-- A write to a write-latch address (20_memory.md R63). Raised by the bus primitive for writes. Safe. -/
  | busLatchWrite
  deriving DecidableEq, Repr

/-- What a step, and an operation, answers. -/
abbrev Result (σ : Type) := Host.Outcome σ Fault Refusal

/-- Who runs operations: a requester of the normal context, of which there is any number, told apart by a number, and the interrupt context (60_exceptions.md R290, R292, log entry 10). -/
inductive Ctx where
  | normal (k : Nat)
  | interrupt
  deriving DecidableEq, Repr

/-- Who issues a bus event: an operation of a context, or the demultiplexer's walk. -/
inductive Master where
  | op (c : Ctx)
  | demux
  deriving DecidableEq, Repr

/-- `LOCK` (10_state.md R29): free, or held by the interrupt context or a requester of the normal one. -/
inductive Lock where
  | free
  | held (c : Ctx)
  deriving DecidableEq, Repr

/-- `DMX` (10_state.md R25). -/
inductive Dmx where
  | idle
  | nextBank (b : Nat)
  | scan (b : Nat) (w : Word) (i : Nat)
  | wait (b : Nat) (w : Word) (i : Nat)
  deriving DecidableEq, Repr

/-- `RESP` (10_state.md R22). -/
structure Resp where
  status : BitVec 4
  data   : Word
  mask   : Word
  deriving DecidableEq, Repr

/-- What an operation in progress has still to do: the lines of its pseudocode from the first bus event on, one constructor for each (00_scope.md R15). `t` and `w` of the pseudocode is the context's `tmp`. -/
inductive Micro where
  /-- `lock {`: acquire `LOCK` (20_memory.md R70). -/
  | acquire
  /-- `}`: release `LOCK` (20_memory.md R70). -/
  | release
  /-- `tmp <- MemRead(addr, 4)`. -/
  | read (addr : Nat)
  /-- `MemWrite(addr, 4, v ? (tmp | m) : (tmp & ~m))`, `tmp` read from `src` (20_memory.md R60, 42_pin_io.md R162). -/
  | writeBit (src addr : Nat) (m : Word) (v : Bool)
  /-- `MemWrite(addr, 4, w)`. -/
  | write (addr : Nat) (w : Word)
  /-- `KIND[pin] <- k` (43_irq_control.md R194). -/
  | bind (pin : Nat) (k : Kind)
  /-- `READY <- 1` (45_initializer.md R259). -/
  | setReady
  /-- Start an invocation of the demultiplexer once `DMX` is Idle (44_demux.md R221, R233). -/
  | startWalk
  /-- Wait for the invocation's answer (44_demux.md R227). -/
  | awaitWalk
  /-- `RESP <- (status, data, mask)`: `respond` and `raise`. -/
  | answer (status : BitVec 4) (data mask : Word)
  /-- `respond(OK, (tmp >> i) & 1)` (42_pin_io.md R160). -/
  | answerBit (i : Nat)
  deriving DecidableEq, Repr

/-- What the interrupt context and each requester of the normal context has: its copy of the request port (10_state.md R21 to R23, log entry 10), and its operation in progress. -/
structure Context where
  cmd  : Word
  op0  : Word
  op1  : Word
  resp : Resp
  todo : List Micro
  tmp  : Word
  deriving DecidableEq, Repr

/-- The five interrupt registers of a bank with `irq = true` (10_state.md R31). -/
structure IrqRegs where
  ien   : Word
  type0 : Word
  type1 : Word
  type2 : Word
  istat : Word
  deriving DecidableEq, Repr

/-- The registers of one bank (10_state.md R31). `VAL` is no storage (20_memory.md R63). -/
structure BankRegs where
  latch : Word
  tol   : Word
  irq   : Option IrqRegs
  deriving DecidableEq, Repr

/-- What the environment has sampled of a bank's pins (43_irq_control.md R199). `edges` and `holds` are matches found at a sample, against the type bits as they then were, that no StatusSet has used since. -/
structure Sample where
  /-- `L`, the level last sampled. -/
  level : Word
  /-- An edge of the kind the pin then had. -/
  edges : Word
  /-- The last sample met the level the pin then asked for, or found its type bits undefined. -/
  holds : Word
  deriving DecidableEq, Repr

/-- One atomic event on the register bus or the dispatch port (00_scope.md R5, 20_memory.md R54, 30_encoding.md R97). -/
inductive Event where
  | read (who : Master) (addr : Nat) (w : Word)
  | write (who : Master) (addr : Nat) (w : Word)
  | dispatch (pin : BitVec 16) (h : Handler)
  deriving DecidableEq, Repr

/-- What reaches the block from outside, one entry for each thing that may happen between two bus events (log entry 8). -/
inductive Input where
  /-- The requester of `c` writes `OP0` (10_state.md R21). -/
  | writeOp0 (c : Ctx) (w : Word)
  /-- The requester of `c` writes `OP1` (10_state.md R21). -/
  | writeOp1 (c : Ctx) (w : Word)
  /-- The requester of `c` writes `CMD`, and the operation runs until it ends or must wait, nothing falling between its events. -/
  | issue (c : Ctx) (w : Word)
  /-- The requester of `c` writes `CMD`, and the operation is started and has issued no bus event yet. -/
  | start (c : Ctx) (w : Word)
  /-- The operation of `c` in progress does its next line (20_memory.md R72). -/
  | bus (c : Ctx)
  /-- The demultiplexer takes its next transition (44_demux.md R221 to R227). -/
  | walk
  /-- The upstream interrupt line is taken (44_demux.md R233). -/
  | takeLine
  /-- The consumer signals `done` (44_demux.md R226, 60_exceptions.md R285). -/
  | consumerDone
  /-- The environment drives the upstream line (20_memory.md R79). -/
  | setLine (v : Bool)
  /-- PinChange: bank `b` is sampled at level `w` (20_memory.md R62). -/
  | pinChange (b : Nat) (w : Word)
  /-- StatusSet: the environment sets bits of bank `b`'s status (20_memory.md R62). -/
  | statusSet (b : Nat) (w : Word)
  /-- Reset of the block: detach, then attach (70_reset_and_hazards.md R310). -/
  | blockReset
  deriving DecidableEq, Repr

/-- The state of one controller instance (10_state.md R20), its configuration, the environment's side, and the model's own records. -/
structure State where
  /-- `CFG` (00_scope.md R7): no step writes it. -/
  cfg       : Cfg
  /-- What is left open about the surroundings: no step writes it. -/
  platform  : Platform
  /-- The requesters of the normal context, from number 0 on (10_state.md R23, 60_exceptions.md R292). One that is not listed has an unspecified port and nothing in progress. -/
  normals   : List Context
  /-- The interrupt context (10_state.md R23). -/
  interrupt : Context
  /-- The context whose command is executed. -/
  active    : Ctx
  /-- `KIND` (10_state.md R27). -/
  kind      : List Kind
  /-- `LOCK` (10_state.md R29). -/
  lock      : Lock
  /-- `DMX` (10_state.md R25). -/
  dmx       : Dmx
  /-- `n`, the dispatches of the invocation in progress (44_demux.md R220). -/
  walkCount : Nat
  /-- The port on which the invocation in progress answers (44_demux.md R227). -/
  walkFor   : Ctx
  /-- `READY` (10_state.md R30). -/
  ready     : Bool
  /-- `RF`, the registers of each bank (10_state.md R31). -/
  banks     : List BankRegs
  /-- `RF`, the global control register (10_state.md R31). -/
  ctrl      : Word
  /-- What the environment has sampled of each bank (43_irq_control.md R199). -/
  samples   : List Sample
  /-- The level the environment drives on the upstream line (20_memory.md R79). -/
  line      : Bool
  /-- How many draws have been taken (20_memory.md R63). -/
  draws     : Nat
  /-- The bus and dispatch events so far, newest first. -/
  trace     : List Event
  /-- The inputs still to come, the next one first. -/
  inputs    : List Input
  deriving DecidableEq, Repr

/-! ## Reset -/

/-- The port `c` with unspecified contents, and no operation in progress (10_state.md R35). -/
def Context.unspecified (c : Nat) : Context :=
  { cmd  := Config.resetPort c 0
    op0  := Config.resetPort c 1
    op1  := Config.resetPort c 2
    resp := { status := (Config.resetPort c 3).setWidth 4
              data   := Config.resetPort c 4
              mask   := Config.resetPort c 5 }
    todo := []
    tmp  := 0#32 }

/-- The unknown words of bank `b`'s registers (10_state.md R35). -/
def BankRegs.unspecified (b : Nat) (irq : Bool) : BankRegs :=
  { latch := Config.resetWord (roleCode .latch) b
    tol   := Config.resetWord (roleCode .tol) b
    irq   :=
      if irq then
        some { ien   := Config.resetWord (roleCode .ien) b
               type0 := Config.resetWord (roleCode .type0) b
               type1 := Config.resetWord (roleCode .type1) b
               type2 := Config.resetWord (roleCode .type2) b
               istat := Config.resetWord (roleCode .istat) b }
      else none }

/-- The unknown registers of the banks from index `b` up. -/
def unspecifiedBanks : Nat → List BankDesc → List BankRegs
  | _, []      => []
  | b, d :: ds => BankRegs.unspecified b d.irq :: unspecifiedBanks (b + 1) ds

/-- The unknown samples of the banks from index `b` up. -/
def unspecifiedSamples : Nat → List BankDesc → List Sample
  | _, []      => []
  | b, _ :: ds =>
    { level := Config.resetLevel 0 b, edges := Config.resetLevel 1 b, holds := Config.resetLevel 2 b }
      :: unspecifiedSamples (b + 1) ds

/-- The machine right after power-on with a given configuration in given surroundings (10_state.md R35, 70_reset_and_hazards.md R311). -/
def State.powerOn (c : Cfg) (p : Platform) : State :=
  { cfg       := c
    platform  := p
    normals   := [Context.unspecified 1]
    interrupt := Context.unspecified 0
    active    := .normal 0
    kind      := List.replicate c.ngpio .unset
    lock      := .free
    dmx       := .idle
    walkCount := 0
    walkFor   := .normal 0
    ready     := false
    banks     := unspecifiedBanks 0 c.bankTable
    ctrl      := Config.resetWord 8 0
    samples   := unspecifiedSamples 0 c.bankTable
    line      := Config.resetLine
    draws     := 0
    trace     := []
    inputs    := [] }

/-- The machine right after reset: power-on with the reference fixture (log entry 2). -/
def State.reset : State := State.powerOn refCfg refPlatform

end Sys2Proof.Machine
end

