-- ==== Sys2Proof/Machine/Ops.lean ====
section
/-! DEFINITION. The operations every meaning is made of: contexts and their answers, raising an error, registers, the two bus primitives, the lock, dispatch entry and return (spec 10_state.md, 20_memory.md, 60_exceptions.md R270, R284, R285). -/

namespace Sys2Proof.Machine

/-! ## Contexts and answers -/

/-- Requester `k` of the normal context: one that is not listed has an unspecified port and nothing in progress (10_state.md R35). -/
def requester (l : List Context) (k : Nat) : Context :=
  match l[k]? with
  | some x => x
  | none   => Context.unspecified (k + 1)

/-- Requester `k` is replaced, and it and those before it are listed. -/
def putRequester (l : List Context) (k : Nat) (x : Context) : List Context :=
  (l ++ (List.range' l.length (k + 1 - l.length)).map fun j => Context.unspecified (j + 1)).set k x

/-- The context `c`. -/
def State.ctx (s : State) : Ctx → Context
  | .normal k  => requester s.normals k
  | .interrupt => s.interrupt

/-- Replace the context `c`. -/
def State.setCtx (s : State) (c : Ctx) (x : Context) : State :=
  match c with
  | .normal k  => { s with normals := putRequester s.normals k x }
  | .interrupt => { s with interrupt := x }

/-- What is left to do of the operation of `c` in progress. -/
def State.setTodo (s : State) (c : Ctx) (l : List Micro) : State :=
  s.setCtx c { s.ctx c with todo := l }

/-- The word the operation of `c` in progress has read. -/
def State.setTmp (s : State) (c : Ctx) (w : Word) : State :=
  s.setCtx c { s.ctx c with tmp := w }

/-- `RESP` of context `c` is written (10_state.md R22). -/
def State.answer (s : State) (c : Ctx) (status : BitVec 4) (data mask : Word) : State :=
  s.setCtx c { s.ctx c with resp := { status := status, data := data, mask := mask } }

/-- `raise K` (60_exceptions.md R270): taking an error, the block's synchronous exception. `RESP` gets the kind's code with `data` and `mask` 0, and nothing else changes. -/
def State.raise (s : State) (c : Ctx) (k : Status) : State := s.answer c (statusCode k) 0#32 0#32

/-- Record an event. -/
def State.log (s : State) (e : Event) : State := { s with trace := e :: s.trace }

/-- `KIND[pin] <- k` (43_irq_control.md R194). -/
def State.setKind (s : State) (pin : Nat) (k : Kind) : State := { s with kind := s.kind.set pin k }

/-- `READY <- 1` (45_initializer.md R259). -/
def State.makeReady (s : State) : State := { s with ready := true }

/-- The environment's next draw is taken (20_memory.md R63). -/
def State.countDraw (s : State) : State := { s with draws := s.draws + 1 }

/-! ## Registers -/

/-- The word that stands in the register of a role, none where the register does not exist (10_state.md R31) and for `VAL`, which is no storage (20_memory.md R63). -/
def BankRegs.get (k : BankRegs) : Role → Option Word
  | .val   => none
  | .latch => some k.latch
  | .tol   => some k.tol
  | .ien   => k.irq.map (·.ien)
  | .type0 => k.irq.map (·.type0)
  | .type1 => k.irq.map (·.type1)
  | .type2 => k.irq.map (·.type2)
  | .istat => k.irq.map (·.istat)

/-- Put a word into the register of a role. -/
def BankRegs.put (k : BankRegs) (r : Role) (w : Word) : BankRegs :=
  match r with
  | .val   => k
  | .latch => { k with latch := w }
  | .tol   => { k with tol := w }
  | .ien   => { k with irq := k.irq.map fun g => { g with ien := w } }
  | .type0 => { k with irq := k.irq.map fun g => { g with type0 := w } }
  | .type1 => { k with irq := k.irq.map fun g => { g with type1 := w } }
  | .type2 => { k with irq := k.irq.map fun g => { g with type2 := w } }
  | .istat => { k with irq := k.irq.map fun g => { g with istat := w } }

/-- The word that stands in a bank's register of a role. -/
def State.reg (s : State) (b : Nat) (r : Role) : Option Word :=
  match s.banks[b]? with
  | some k => k.get r
  | none   => none

/-- The interrupt registers of a bank, none where it has none. -/
def State.irqOf (s : State) (b : Nat) : Option IrqRegs :=
  match s.banks[b]? with
  | some k => k.irq
  | none   => none

/-- Put a word into a bank's register of a role. -/
def State.putReg (s : State) (b : Nat) (r : Role) (w : Word) : State :=
  { s with banks := s.banks.modify b fun k => k.put r w }

/-- Change what the environment holds as sampled of a bank. -/
def State.resample (s : State) (b : Nat) (f : Sample → Sample) : State :=
  { s with samples := s.samples.modify b f }

/-- The level bank `b` was last sampled at. -/
def State.level (s : State) (b : Nat) : Word :=
  match s.samples[b]? with
  | some x => x.level
  | none   => 0#32

/-- The word that stands at a bus address, none where no storage register is. -/
def State.wordAt (s : State) (addr : Nat) : Option Word :=
  match regAt s.cfg addr with
  | some (.bank b r) => s.reg b r
  | some .ctrl       => some s.ctrl
  | none             => none

/-- The byte a host sees at byte address `n` of the window: little-endian, bits 7:0 of a register at its lowest address (20_memory.md R52, decision D20). The block itself moves whole words only. -/
def State.byteAt (s : State) (n : Nat) : Option (BitVec 8) :=
  (s.wordAt (n - n % 4)).map fun w => w.extractLsb' (8 * (n % 4)) 8

/-! ## The bus primitives -/

/-- `MemRead(addr, 4)` by `who` (20_memory.md R58): one event, the word the register's read behaviour gives, and no effect on any register. A read of `VAL` takes a fresh draw (R63). -/
def State.memRead (s : State) (who : Master) (addr : Nat) : Except Refusal (Word × State) :=
  if addr % 4 = 0 then
    match regAt s.cfg addr with
    | some (.bank b .val) =>
      let w := Config.valDraw s.draws b (s.level b)
      .ok (w, s.countDraw.log (.read who addr w))
    | some _ =>
      match s.wordAt addr with
      | some w => .ok (w, s.log (.read who addr w))
      | none   => .error .busUnmapped
    | none => .error .busUnmapped
  else .error .busMisaligned

/-- What a write of `v` leaves in the register file (20_memory.md R63 to R69): a write to `VAL` sets the write-latch, a write to `ISTAT` clears the bits written 1, the others store. -/
def State.writeReg (s : State) (g : Reg) (v : Word) : State :=
  match g with
  | .ctrl          => { s with ctrl := v }
  | .bank b .val   => s.putReg b .latch v
  | .bank b .istat => s.putReg b .istat (((s.reg b .istat).getD 0#32) &&& ~~~v)
  | .bank b r      => s.putReg b r v

/-- `MemWrite(addr, 4, v)` by `who` (20_memory.md R59): one event, with the whole word. A write to a write-latch address is refused (R63). -/
def State.memWrite (s : State) (who : Master) (addr : Nat) (v : Word) : Except Refusal State :=
  if addr % 4 = 0 then
    match regAt s.cfg addr with
    | some (.bank _ .latch) => .error .busLatchWrite
    | some g => .ok ((s.writeReg g v).log (.write who addr v))
    | none => .error .busUnmapped
  else .error .busMisaligned

/-! ## Moves -/

/-- What becomes of an agent that may make a move: it made it, it has none to make or must wait, or the machine stops. -/
inductive Move where
  | made (s : State)
  | blocked
  | fault (f : Fault)
  | refused (r : Refusal)
  deriving DecidableEq, Repr

/-- The outcome of a step in which only this move is tried: a blocked agent changes nothing. -/
def Move.outcome (m : Move) (s : State) : Result State :=
  match m with
  | .made t    => .next t
  | .blocked   => .next s
  | .fault f   => .fault f
  | .refused r => .refused r

/-- The first move that is not blocked. -/
def Move.orElse (m n : Move) : Move :=
  match m with
  | .made t    => .made t
  | .blocked   => n
  | .fault f   => .fault f
  | .refused r => .refused r

/-! ## The lock -/

/-- `LOCK <- held(c)` (10_state.md R29). -/
def State.takeLock (s : State) (c : Ctx) : State := { s with lock := .held c }

/-- Acquire `LOCK` for `c`: wait while it is held (20_memory.md R70). -/
def State.acquireLock (s : State) (c : Ctx) : Move :=
  match s.lock with
  | .free   => .made (s.takeLock c)
  | .held _ => .blocked

/-- Release `LOCK` (20_memory.md R70). -/
def State.releaseLock (s : State) : State := { s with lock := .free }

/-- Interrupt delivery is masked: a requester of the normal context holds `LOCK` on the execution unit the interrupt context would run on (20_memory.md R73). -/
def State.deliveryMasked (s : State) : Bool :=
  match s.lock with
  | .held (.normal k)  => s.platform.shares k
  | .held .interrupt   => false
  | .free              => false

/-! ## Dispatch: entry and return -/

/-- The handler a dispatch of `pin` carries (44_demux.md R220, R232): the bound one, `none` for a pin beyond `NGPIO`. -/
def State.handler (s : State) (pin : Nat) : Handler :=
  match s.kind[pin]? with
  | some k => if pin < s.cfg.ngpio then handlerOf k else .none
  | none   => .none

/-- Dispatch entry (60_exceptions.md R284): one event on the dispatch port, `pin[15:0]` and the handler (30_encoding.md R97). Nothing is saved and nothing changes. -/
def State.dispatch (s : State) (pin : Nat) : State := s.log (.dispatch (BitVec.ofNat 16 pin) (s.handler pin))

/-- Dispatch return (60_exceptions.md R285, 44_demux.md R226): the consumer is done, nothing is restored, and the walk goes on after the bit. -/
def State.dispatchReturn (s : State) : State :=
  match s.dmx with
  | .wait b w i => { s with walkCount := s.walkCount + 1, dmx := .scan b w (i + 1) }
  | _           => s

end Sys2Proof.Machine
end

