-- ==== Sys2Proof/Machine/Walk.lean ====
section
/-! DEFINITION. The demultiplexer's sequencer: the transitions of `DMX` (spec 44_demux.md R221 to R227). -/

namespace Sys2Proof.Machine

/-- The bus address of a bank's register of a role (40_locator.md R127). Every caller tests `bank_irq` before it asks for an interrupt role, so the errors do not arise (R123, R124). -/
def busAddr (c : Cfg) (b : Nat) (r : Role) : Except Fault Nat :=
  match locate c b (roleCode r) with
  | .ok off              => .ok (c.regBase + off)
  | .error .noInterrupts => .error .contractViolation
  | .error .badBank      => .error .configurationDefect
  | .error .badRole      => .error .configurationDefect

/-- Start of an invocation that answers on the port of `c` (R221), when `DMX` is Idle and delivery is not masked (R233, 20_memory.md R73). -/
def State.startWalk (s : State) (c : Ctx) : Move :=
  if s.dmx = .idle ∧ s.deliveryMasked = false then
    .made { s with walkCount := 0, walkFor := c, dmx := .nextBank 0 }
  else .blocked

/-- The bank iterator (R222) and the status read (R223). -/
def State.walkBank (s : State) (b : Nat) (d : BankDesc) : Move :=
  if d.irq then
    match busAddr s.cfg b .istat with
    | .error f => .fault f
    | .ok addr =>
      match s.memRead .demux addr with
      | .error r   => .refused r
      | .ok (w, t) => .made { t with dmx := .scan b w 0 }
  else .made { s with dmx := .nextBank (b + 1) }

/-- Finish (R227): the invocation answers with the number of its dispatches, and the operation that waited for it ends. -/
def State.walkFinish (s : State) : State :=
  ({ s with dmx := .idle }.answer s.walkFor (statusCode .ok) (BitVec.ofNat 32 s.walkCount) 0#32).setTodo s.walkFor []

/-- The pending-bit scan (R225) and the dispatch (R226), which does not start while delivery is masked (20_memory.md R73). -/
def State.walkBit (s : State) (b : Nat) (w : Word) (i : Nat) : Move :=
  if 32 ≤ i then .made { s with dmx := .nextBank (b + 1) }
  else if w.getLsbD i then
    if s.deliveryMasked then .blocked
    else .made { s.dispatch (pinOf b i) with dmx := .wait b w i }
  else .made { s with dmx := .scan b w (i + 1) }

/-- The demultiplexer's next transition. In `Wait` it has none: the consumer moves. -/
def State.walk (s : State) : Move :=
  match s.dmx with
  | .idle         => .blocked
  | .nextBank b   =>
    match s.cfg.bankTable[b]? with
    | some d => s.walkBank b d
    | none   => .made s.walkFinish
  | .scan b w i   => s.walkBit b w i
  | .wait _ _ _   => .blocked

/-- Some enabled bit is pending: `REF`'s reading of the upstream line (20_memory.md R79). -/
def State.enabledPending (s : State) : Bool :=
  s.banks.any fun k =>
    match k.irq with
    | some g => (g.istat &&& g.ien) != 0#32
    | none   => false

/-- The level of the upstream interrupt line (20_memory.md R79, decision D24). -/
def State.lineAsserted (s : State) : Bool :=
  match s.platform.line with
  | .free           => s.line
  | .enabledPending => s.enabledPending

/-- The upstream line is taken (R233 (a)): asserted, `READY`, `DMX` Idle, delivery not masked. The invocation answers on the interrupt context's port. -/
def State.takeLine (s : State) : Move :=
  if s.ready ∧ s.lineAsserted then s.startWalk .interrupt else .blocked

end Sys2Proof.Machine
end

