-- ==== Sys2Proof/Machine/Engine.lean ====
section
/-! DEFINITION. Running an operation: its plan is fixed when the command is accepted, and its lines are done one by one (spec 00_scope.md R5, R15, 10_state.md R21, 60_exceptions.md R270, 20_memory.md R70 to R72). -/

namespace Sys2Proof.Machine

/-- What an operation does once its tests are passed: its lines from the first bus event on. An error is a fatal outcome (60_exceptions.md R272). -/
abbrev Plan := Except Fault (List Micro)

/-- The plan that only raises an error (60_exceptions.md R270). -/
def raisePlan (k : Status) : Plan := .ok [.answer (statusCode k) 0#32 0#32]

/-- The plan that only answers OK with a word. -/
def answerPlan (data : Word) : Plan := .ok [.answer (statusCode .ok) data 0#32]

/-- The last line of an operation that returns nothing: `respond(OK, 0)`. -/
def answerOk : Micro := .answer (statusCode .ok) 0#32 0#32

/-- `RMW(addr, m, v)` (20_memory.md R60). -/
def rmw (addr : Nat) (m : Word) (v : Bool) : List Micro := [.read addr, .writeBit addr addr m v]

/-- The common prologue of the operations that take a pin (42_pin_io.md R172). -/
def prologue (s : State) (p : Nat) (k : Plan) : Plan :=
  if s.ready then
    if p < s.cfg.ngpio then k else raisePlan .invalidArgument
  else raisePlan .notReady

/-- Context `c` does one line of its operation. -/
def Micro.run (c : Ctx) (m : Micro) (s : State) : Move :=
  match m with
  | .acquire => s.acquireLock c
  | .release => .made s.releaseLock
  | .read addr =>
    match s.memRead (.op c) addr with
    | .error r   => .refused r
    | .ok (w, t) => .made (t.setTmp c w)
  | .writeBit _ addr m v =>
    match s.memWrite (.op c) addr (putBits (s.ctx c).tmp m v) with
    | .error r => .refused r
    | .ok t    => .made t
  | .write addr w =>
    match s.memWrite (.op c) addr w with
    | .error r => .refused r
    | .ok t    => .made t
  | .bind pin k => .made (s.setKind pin k)
  | .setReady   => .made s.makeReady
  | .startWalk  => s.startWalk c
  | .awaitWalk  => .blocked
  | .answer status data mask => .made (s.answer c status data mask)
  | .answerBit i => .made (s.answer c (statusCode .ok) (boolWord ((s.ctx c).tmp.getLsbD i)) 0#32)

/-- The operation of context `c` in progress does its next line. -/
def State.moveContext (s : State) (c : Ctx) : Move :=
  match (s.ctx c).todo with
  | []     => .blocked
  | m :: l =>
    match m.run c s with
    | .made t    => .made (t.setTodo c l)
    | .blocked   => .blocked
    | .fault f   => .fault f
    | .refused r => .refused r

/-- Context `c` does the lines `l` one after the other, nothing falling between them, until they are done or one must wait; what must wait stays in progress. -/
def runLines (c : Ctx) : List Micro → State → Result State
  | [],     s => .next (s.setTodo c [])
  | m :: l, s =>
    match m.run c s with
    | .made t    => runLines c l t
    | .blocked   => .next (s.setTodo c (m :: l))
    | .fault f   => .fault f
    | .refused r => .refused r

/-- The active context runs an operation's plan. -/
def State.runPlan (s : State) (p : Plan) : Result State :=
  match p with
  | .error f => .fault f
  | .ok l    => runLines s.active l s

end Sys2Proof.Machine
end

