-- ==== Sys2Proof/Machine/Demux.lean ====
section
/-! DEFINITION. The operation DEMUX (spec 44_demux.md R220, R221, R233). -/

namespace Sys2Proof.Machine

/-- DEMUX (R220): NotReady before INIT, else the invocation starts, once `DMX` is Idle (R233), and the operation ends when it has answered (R227). The walk itself is `State.walk`. -/
def planDemux (s : State) : Plan :=
  if s.ready then .ok [.startWalk, .awaitWalk] else raisePlan .notReady

/-- DEMUX (R220, R221). -/
def execDemux (s : State) : Result State := s.runPlan (planDemux s)

end Sys2Proof.Machine
end

