-- ==== Sys2Proof/Machine/Initializer.lean ====
section
/-! DEFINITION. The Controller Initializer: INIT (spec 45_initializer.md R250 to R261, 30_encoding.md R99). -/

namespace Sys2Proof.Machine

/-- `clamp(v, lo, hi)` in unbounded integers (00_scope.md R15). -/
def clamp (v lo hi : Int) : Int := if v < lo then lo else if hi < v then hi else v

/-- `F_DEFAULT` in Hz (00_scope.md R10). -/
def fDefault : Nat := 1000000

/-- The requested frequency: 0 stands for absent or invalid (R253). -/
def requestedFreq (fReq : Nat) : Nat := if fReq = 0 then fDefault else fReq

/-- The clock divisor (R251), rounded to the nearest integer with halves up and clamped, in unbounded integers. -/
def divisor (fSrc fReq : Nat) : Nat :=
  (clamp ((((fSrc + requestedFreq fReq) / (2 * requestedFreq fReq) : Nat) : Int) - 1) 1 65535).toNat

/-- The frame byte count (R252). -/
def frameBytes (ngpio : Nat) : Nat := (clamp ((ngpio / 16 : Nat) : Int) 1 10).toNat

/-- `ctrl_word(divisor, frame_bytes)` (30_encoding.md R99): every other bit 0. -/
def ctrlWord (l : CtrlLayout) (d fb : Nat) : Word :=
  (BitVec.ofNat 32 d <<< l.divLsb) ||| (BitVec.ofNat 32 fb <<< l.fbLsb) ||| (1#32 <<< l.enBit)

/-- The control word INIT writes, from `F_src`, `F_req` and the configuration (R250). -/
def initWord (c : Cfg) (fSrc fReq : Nat) : Word :=
  ctrlWord c.ctrl (divisor fSrc fReq) (frameBytes c.ngpio)

/-- INIT's writes to one bank: tolerance (R255), and where there are interrupts, disable, clear status, default type (R256, R257). -/
def initBank (c : Cfg) (b : Nat) (d : BankDesc) : Plan :=
  match busAddr c b .tol with
  | .error f => .error f
  | .ok tol =>
    if d.irq then
      match busAddr c b .ien, busAddr c b .istat, busAddr c b .type0, busAddr c b .type1, busAddr c b .type2 with
      | .ok ien, .ok istat, .ok t0, .ok t1, .ok t2 =>
        .ok [.write tol 0#32, .write ien 0#32, .write istat 0xFFFFFFFF#32,
             .write t0 0xFFFFFFFF#32, .write t1 0#32, .write t2 0#32]
      | _, _, _, _, _ => .error .configurationDefect
    else .ok [.write tol 0#32]

/-- INIT's writes to the banks from index `b` up, in ascending order. -/
def initBanks (c : Cfg) : Nat → List BankDesc → Plan
  | _, []      => .ok []
  | b, d :: ds =>
    match initBank c b d with
    | .error f => .error f
    | .ok l    =>
      match initBanks c (b + 1) ds with
      | .error f => .error f
      | .ok r    => .ok (l ++ r)

/-- INIT cs (R250), with `F_src` and `F_req` in `OP0` and `OP1` of the issuing context's port. Every test stands before the first write (R260). -/
def planInit (cs : Nat) (s : State) : Plan :=
  if s.ready then raisePlan .invalidArgument
  else if cs = 3 then raisePlan .invalidArgument
  else if cs = 1 then raisePlan .initializationFailure
  else if cs = 2 then raisePlan .initializationDeferred
  else
    let port := s.ctx s.active
    let cw := initWord s.cfg port.op0.toNat port.op1.toNat
    match initBanks s.cfg 0 s.cfg.bankTable with
    | .error f => .error f
    | .ok l    => .ok (.write (ctrlAddr s.cfg) cw :: l ++ [.setReady, .answer (statusCode .ok) cw 0#32])

/-- INIT (R250). -/
def execInit (cs : Nat) (s : State) : Result State := s.runPlan (planInit cs s)

end Sys2Proof.Machine
end

