-- ==== Sys2Proof/Machine/IrqControl.lean ====
section
/-! DEFINITION. Per-pin interrupt control: SETTYPE, MASK, UNMASK, ACK (spec 43_irq_control.md R190 to R198, R201). -/

namespace Sys2Proof.Machine

/-- SETTYPE's lines (R191): the three type registers in the order type0, type1, type2, all in one locked section, then the binding (R194). -/
def settypeLines (p : Nat) (k : Kind) (t : TypeBits) (s : State) : Plan :=
  match busAddr s.cfg (bankOf p) .type0, busAddr s.cfg (bankOf p) .type1, busAddr s.cfg (bankOf p) .type2 with
  | .ok a0, .ok a1, .ok a2 =>
    .ok (.acquire :: rmw a0 (maskOf p) t.type0 ++ rmw a1 (maskOf p) t.type1 ++ rmw a2 (maskOf p) t.type2
          ++ [.release, .bind p k, answerOk])
  | .error f, _, _ => .error f
  | _, .error f, _ => .error f
  | _, _, .error f => .error f

/-- SETTYPE pin, kind (R191): interrupt support is tested before the kind (60_exceptions.md R280). -/
def planSettype (p code : Nat) (s : State) : Plan :=
  prologue s p <|
    if bankIrq s.cfg (bankOf p) then
      match kindOfCode code with
      | none   => raisePlan .invalidArgument
      | some k =>
        match typeBitsOf k with
        | none   => raisePlan .invalidArgument
        | some t => settypeLines p k t s
    else raisePlan .notSupported

/-- SETTYPE (R191). -/
def execSettype (p code : Nat) (s : State) : Result State := s.runPlan (planSettype p code s)

/-- MASK's and UNMASK's common lines: one bit of `ien`, under the lock; nothing on a bank without interrupts (R195, R196, R201). -/
def ienPlan (p : Nat) (v : Bool) (s : State) : Plan :=
  prologue s p <|
    if bankIrq s.cfg (bankOf p) then
      match busAddr s.cfg (bankOf p) .ien with
      | .error f => .error f
      | .ok addr => .ok (.acquire :: rmw addr (maskOf p) v ++ [.release, answerOk])
    else answerPlan 0#32

/-- MASK pin (R195): writes 0. -/
def planMask (p : Nat) (s : State) : Plan := ienPlan p false s

/-- MASK (R195). -/
def execMask (p : Nat) (s : State) : Result State := s.runPlan (planMask p s)

/-- UNMASK pin (R201): writes 1. -/
def planUnmask (p : Nat) (s : State) : Plan := ienPlan p true s

/-- UNMASK (R201). -/
def execUnmask (p : Nat) (s : State) : Result State := s.runPlan (planUnmask p s)

/-- ACK pin (R197): exactly one write, of the one-hot word, under the lock, and no read. -/
def planAck (p : Nat) (s : State) : Plan :=
  prologue s p <|
    if bankIrq s.cfg (bankOf p) then
      match busAddr s.cfg (bankOf p) .istat with
      | .error f => .error f
      | .ok addr => .ok [.acquire, .write addr (maskOf p), .release, answerOk]
    else raisePlan .notSupported

/-- ACK (R197). -/
def execAck (p : Nat) (s : State) : Result State := s.runPlan (planAck p s)

end Sys2Proof.Machine
end

