-- ==== Sys2Proof/Machine/Lookup.lean ====
section
/-! DEFINITION. The pure operations LOCATE, LOCATEP, INCAP, OUTCAP and VALID: no bus access, no lock, `READY` not consulted (spec 40_locator.md R121, R126, 41_capability.md R144 to R146). -/

namespace Sys2Proof.Machine

/-- LOCATE bank, role (40_locator.md R121). The offset stands in the 32 bits of `RESP.data` (log entry 17). -/
def planLocate (b role : Nat) (s : State) : Plan :=
  match locate s.cfg b role with
  | .ok off              => answerPlan (BitVec.ofNat 32 off)
  | .error .badBank      => raisePlan .invalidArgument
  | .error .badRole      => raisePlan .invalidArgument
  | .error .noInterrupts => .error .contractViolation

/-- LOCATE (40_locator.md R121). -/
def execLocate (b role : Nat) (s : State) : Result State := s.runPlan (planLocate b role s)

/-- LOCATEP pin, role (40_locator.md R126): the pin form, with the pin's mask in `RESP.mask`. -/
def planLocatep (p role : Nat) (s : State) : Plan :=
  if p < s.cfg.ngpio then
    match locate s.cfg (bankOf p) role with
    | .ok off              => .ok [.answer (statusCode .ok) (BitVec.ofNat 32 off) (maskOf p)]
    | .error .badBank      => raisePlan .invalidArgument
    | .error .badRole      => raisePlan .invalidArgument
    | .error .noInterrupts => .error .contractViolation
  else raisePlan .invalidArgument

/-- LOCATEP (40_locator.md R126). -/
def execLocatep (p role : Nat) (s : State) : Result State := s.runPlan (planLocatep p role s)

/-- INCAP pin (41_capability.md R144). -/
def planIncap (p : Nat) (s : State) : Plan :=
  if p < s.cfg.ngpio then answerPlan (boolWord (inputCapable s.cfg p))
  else raisePlan .invalidArgument

/-- INCAP (41_capability.md R144). -/
def execIncap (p : Nat) (s : State) : Result State := s.runPlan (planIncap p s)

/-- OUTCAP pin (41_capability.md R145). -/
def planOutcap (p : Nat) (s : State) : Plan :=
  if p < s.cfg.ngpio then answerPlan (boolWord (outputCapable s.cfg p))
  else raisePlan .invalidArgument

/-- OUTCAP (41_capability.md R145). -/
def execOutcap (p : Nat) (s : State) : Result State := s.runPlan (planOutcap p s)

/-- VALID pin (41_capability.md R146): never an error. -/
def planValid (p : Nat) (s : State) : Plan := answerPlan (boolWord (validPin s.cfg p))

/-- VALID (41_capability.md R146). -/
def execValid (p : Nat) (s : State) : Result State := s.runPlan (planValid p s)

end Sys2Proof.Machine
end

