-- ==== Sys2Proof/Machine/PinIo.lean ====
section
/-! DEFINITION. The Pin I/O Engine: GET, SET, DIRIN, DIROUT, DIRQ, TOL (spec 42_pin_io.md R160 to R172). -/

namespace Sys2Proof.Machine

/-- GET pin (R160): one unlocked read, of `latch` for an output-capable pin, else of `val`. -/
def planGet (p : Nat) (s : State) : Plan :=
  prologue s p <|
    match busAddr s.cfg (bankOf p) (if outputCapable s.cfg p then .latch else .val) with
    | .error f => .error f
    | .ok addr => .ok [.read addr, .answerBit (bitOf p)]

/-- GET (R160). -/
def execGet (p : Nat) (s : State) : Result State := s.runPlan (planGet p s)

/-- SET from its third line on (R162): read `latch`, write the combined word to `val`, under the lock. -/
def setLines (p : Nat) (v : Bool) (s : State) : Plan :=
  match busAddr s.cfg (bankOf p) .latch with
  | .error f => .error f
  | .ok src =>
    match busAddr s.cfg (bankOf p) .val with
    | .error f => .error f
    | .ok dst  => .ok [.acquire, .read src, .writeBit src dst (maskOf p) v, .release, answerOk]

/-- SET pin, bit (R162): silently ignored on a pin that is not output-capable (R164). -/
def planSet (p : Nat) (v : Bool) (s : State) : Plan :=
  prologue s p <|
    if outputCapable s.cfg p then setLines p v s else answerPlan 0#32

/-- SET (R162). -/
def execSet (p : Nat) (v : Bool) (s : State) : Result State := s.runPlan (planSet p v s)

/-- DIRIN pin (R167): no register effect. -/
def planDirin (p : Nat) (s : State) : Plan :=
  prologue s p <|
    if inputCapable s.cfg p then answerPlan 0#32 else raisePlan .notSupported

/-- DIRIN (R167). -/
def execDirin (p : Nat) (s : State) : Result State := s.runPlan (planDirin p s)

/-- DIROUT pin, initial (R168): fails on a pin that is not output-capable, else delegates to SET. -/
def planDirout (p : Nat) (v : Bool) (s : State) : Plan :=
  prologue s p <|
    if outputCapable s.cfg p then setLines p v s else raisePlan .notSupported

/-- DIROUT (R168). -/
def execDirout (p : Nat) (v : Bool) (s : State) : Result State := s.runPlan (planDirout p v s)

/-- DIRQ pin (R169): output capability wins. -/
def planDirq (p : Nat) (s : State) : Plan :=
  prologue s p <|
    if outputCapable s.cfg p then answerPlan directionOutput
    else if inputCapable s.cfg p then answerPlan directionInput
    else raisePlan .notSupported

/-- DIRQ (R169). -/
def execDirq (p : Nat) (s : State) : Result State := s.runPlan (planDirq p s)

/-- TOL pin, enable (R170): one bit of `tol`, under the lock, with no capability test. -/
def planTol (p : Nat) (v : Bool) (s : State) : Plan :=
  prologue s p <|
    match busAddr s.cfg (bankOf p) .tol with
    | .error f => .error f
    | .ok addr => .ok (.acquire :: rmw addr (maskOf p) v ++ [.release, answerOk])

/-- TOL (R170). -/
def execTol (p : Nat) (v : Bool) (s : State) : Result State := s.runPlan (planTol p v s)

end Sys2Proof.Machine
end

