-- ==== Sys2Proof/Machine/Dispatch.lean ====
section
/-! DEFINITION. One arm for each operation. -/

namespace Sys2Proof.Machine

def exec (i : Instr) (s : State) : Host.Outcome State Fault Refusal :=
  match i with
  | .locate bank role => Sys2Proof.Machine.execLocate bank role s
  | .locatep pin role => Sys2Proof.Machine.execLocatep pin role s
  | .incap pin => Sys2Proof.Machine.execIncap pin s
  | .outcap pin => Sys2Proof.Machine.execOutcap pin s
  | .valid pin => Sys2Proof.Machine.execValid pin s
  | .get pin => Sys2Proof.Machine.execGet pin s
  | .set pin v => Sys2Proof.Machine.execSet pin v s
  | .dirin pin => Sys2Proof.Machine.execDirin pin s
  | .dirout pin v => Sys2Proof.Machine.execDirout pin v s
  | .dirq pin => Sys2Proof.Machine.execDirq pin s
  | .tol pin v => Sys2Proof.Machine.execTol pin v s
  | .settype pin kind => Sys2Proof.Machine.execSettype pin kind s
  | .mask pin => Sys2Proof.Machine.execMask pin s
  | .unmask pin => Sys2Proof.Machine.execUnmask pin s
  | .ack pin => Sys2Proof.Machine.execAck pin s
  | .demux => Sys2Proof.Machine.execDemux s
  | .init cs => Sys2Proof.Machine.execInit cs s

end Sys2Proof.Machine
end

