-- ==== Sys2Proof/Machine/Environment.lean ====
section
/-! DEFINITION. The environment's steps and the construction and reset of a controller (spec 20_memory.md R62, 43_irq_control.md R199, 60_exceptions.md R274, 70_reset_and_hazards.md R310). -/

namespace Sys2Proof.Machine

/-! ## Matching (43_irq_control.md R199, one row of its table a line) -/

/-- The kind the type registers give bit `j`, none where the pattern is undefined (43_irq_control.md R198). -/
def IrqRegs.kindAt (g : IrqRegs) (j : Nat) : Option Kind :=
  kindOfTypeBits { type0 := g.type0.getLsbD j, type1 := g.type1.getLsbD j, type2 := g.type2.getLsbD j }

/-- The pins whose level went the way their type bits ask for between two samples. -/
def edgeMatch (g : IrqRegs) (old new : Word) : Word :=
  (g.type0 &&& ~~~g.type1 &&& ~~~g.type2 &&& (~~~old &&& new))
    ||| (~~~g.type0 &&& ~~~g.type1 &&& ~~~g.type2 &&& (old &&& ~~~new))
    ||| (g.type0 &&& ~~~g.type1 &&& g.type2 &&& (old ^^^ new))

/-- The pins whose sampled level is the one their type bits ask for, and those whose type bits are undefined: both may set as long as this lasts. -/
def holdMatch (g : IrqRegs) (level : Word) : Word :=
  (g.type0 &&& g.type1 &&& ~~~g.type2 &&& level)
    ||| (~~~g.type0 &&& g.type1 &&& ~~~g.type2 &&& ~~~level)
    ||| (g.type2 &&& (g.type1 ||| ~~~g.type0))

/-- A sample of a bank is taken at level `w`, and is matched against the type bits as they are at this moment. An edge stays until a StatusSet uses it; a level lasts until the next sample. -/
def Sample.take (x : Sample) (irq : Option IrqRegs) (w : Word) : Sample :=
  match irq with
  | some g => { level := w, edges := x.edges ||| edgeMatch g x.level w, holds := holdMatch g w }
  | none   => { level := w, edges := x.edges, holds := 0#32 }

/-- The matches of the pins in `m` are used: an edge sets again only on a new edge (20_memory.md R68). -/
def Sample.use (x : Sample) (m : Word) : Sample :=
  { x with edges := x.edges &&& ~~~m, holds := x.holds &&& ~~~m }

/-- What the environment has sampled of bank `b`. -/
def State.sample (s : State) (b : Nat) : Sample :=
  match s.samples[b]? with
  | some x => x
  | none   => { level := 0#32, edges := 0#32, holds := 0#32 }

/-- Which status bits R199's table lets a StatusSet set: those with a match at a sample that has not been used, and those whose level, which lasts, matches the type bits as they are now (20_memory.md R68). -/
def maySet (g : IrqRegs) (x : Sample) : Word := x.edges ||| x.holds ||| holdMatch g x.level

/-- The bits a StatusSet may set (decision D23): any, or those of R199's table. -/
def State.statusAllowed (s : State) (b : Nat) (g : IrqRegs) : Word :=
  match s.platform.status with
  | .free    => 0xFFFFFFFF#32
  | .matched => maySet g (s.sample b)

/-! ## The environment's steps -/

/-- StatusSet (20_memory.md R62 (b)): `ISTAT[b] <- ISTAT[b] | w` for a bank with interrupts, not gated by `IEN` (R199), and the matches behind the bits that set are used. A bank without the register is left alone (log entry 23). -/
def State.statusSet (s : State) (b : Nat) (w : Word) : State :=
  match s.irqOf b with
  | some g =>
    let m := w &&& s.statusAllowed b g
    (s.putReg b .istat (g.istat ||| m)).resample b fun x => x.use m
  | none => s

/-- PinChange (20_memory.md R62 (a)): bank `b` is sampled at level `w`. No register changes. -/
def State.pinChange (s : State) (b : Nat) (w : Word) : State :=
  s.resample b fun x => x.take (s.irqOf b) w

/-- The environment drives the upstream line (20_memory.md R79). -/
def State.setLine (s : State) (v : Bool) : State := { s with line := v }

/-- Reset of the block: detach, then attach with the same configuration (70_reset_and_hazards.md R310). The block's own state is as after reset, the register file and the environment's side are untouched (log entry 22). -/
def State.blockReset (s : State) : State :=
  { s with
    normals   := [Context.unspecified 1]
    interrupt := Context.unspecified 0
    active    := .normal 0
    kind      := List.replicate s.cfg.ngpio .unset
    lock      := .free
    dmx       := .idle
    walkCount := 0
    walkFor   := .normal 0
    ready     := false }

/-- Construct a controller: from an ill-formed configuration there is none (60_exceptions.md R274). -/
def State.construct (c : Cfg) (p : Platform) : Option State :=
  if cfgWf c then some (State.powerOn c p) else none

end Sys2Proof.Machine
end

