-- ==== Sys2Proof/Machine/Schedule.lean ====
section
/-! DEFINITION. Accepting a command, performing an input, and the move the block makes by itself (spec 10_state.md R21 to R23, 20_memory.md R72, 44_demux.md R233, log entries 8 to 11). -/

namespace Sys2Proof.Machine

/-- The plan of an operation: what `exec` runs and `start` leaves in progress. -/
def planOf (i : Instr) (s : State) : Plan :=
  match i with
  | .locate bank role => planLocate bank role s
  | .locatep pin role => planLocatep pin role s
  | .incap pin        => planIncap pin s
  | .outcap pin       => planOutcap pin s
  | .valid pin        => planValid pin s
  | .get pin          => planGet pin s
  | .set pin v        => planSet pin v s
  | .dirin pin        => planDirin pin s
  | .dirout pin v     => planDirout pin v s
  | .dirq pin         => planDirq pin s
  | .tol pin v        => planTol pin v s
  | .settype pin kind => planSettype pin kind s
  | .mask pin         => planMask pin s
  | .unmask pin       => planUnmask pin s
  | .ack pin          => planAck pin s
  | .demux            => planDemux s
  | .init cs          => planInit cs s

/-- `CMD` of context `c` is written, and `c` is the context at work (10_state.md R21). -/
def State.accept (s : State) (c : Ctx) (w : Word) : State :=
  { s.setCtx c { s.ctx c with cmd := w } with active := c }

/-- A command runs until it ends or must wait. A word that requests no operation ends with InvalidArgument (30_encoding.md R101). -/
def State.issue (s : State) (c : Ctx) (w : Word) : Result State :=
  match decode w with
  | .error _ => .next ((s.accept c w).raise c .invalidArgument)
  | .ok i    => exec i (s.accept c w)

/-- A command is started: its tests are made and its lines stand in progress, none of them done. -/
def State.start (s : State) (c : Ctx) (w : Word) : Result State :=
  match decode w with
  | .error _ => .next ((s.accept c w).raise c .invalidArgument)
  | .ok i =>
    match planOf i (s.accept c w) with
    | .error f => .fault f
    | .ok l    => .next ((s.accept c w).setTodo c l)

/-- A dispatch is outstanding: the consumer runs (44_demux.md R226). -/
def State.dispatching (s : State) : Bool :=
  match s.dmx with
  | .wait _ _ _ => true
  | _           => false

/-- The lines left are those of an INIT that has not set `READY` yet. -/
def Context.initialising (x : Context) : Bool := x.todo.contains .setReady

/-- An INIT is in progress (45_initializer.md R250). -/
def State.initialising (s : State) : Bool := s.interrupt.initialising || s.normals.any (·.initialising)

/-- Whether a command word is INIT. -/
def isInit (w : Word) : Bool :=
  match decode w with
  | .ok (.init _) => true
  | .ok _         => false
  | .error _      => false

/-- The requester of `c` may write `CMD` with the word `w`: its last operation has ended (10_state.md R22), in the interrupt context the consumer runs (60_exceptions.md R290), and no second INIT starts while one is in progress (20_memory.md R71, log entry 32). -/
def State.mayIssue (s : State) (c : Ctx) (w : Word) : Bool :=
  (s.ctx c).todo.isEmpty && !(isInit w && s.initialising) &&
    match c with
    | .normal _  => true
    | .interrupt => s.dispatching

/-- Whether an input can happen now. The consumer returns when its own operations have ended. -/
def Input.enabled (e : Input) (s : State) : Bool :=
  match e with
  | .issue c w    => s.mayIssue c w
  | .start c w    => s.mayIssue c w
  | .consumerDone => s.dispatching && s.interrupt.todo.isEmpty
  | .writeOp0 _ _ | .writeOp1 _ _ | .bus _ | .walk | .takeLine
  | .setLine _ | .pinChange _ _ | .statusSet _ _ | .blockReset => true

/-- An input happens. -/
def Input.perform (e : Input) (s : State) : Result State :=
  match e with
  | .writeOp0 c w  => .next (s.setCtx c { s.ctx c with op0 := w })
  | .writeOp1 c w  => .next (s.setCtx c { s.ctx c with op1 := w })
  | .issue c w     => s.issue c w
  | .start c w     => s.start c w
  | .bus c         => (s.moveContext c).outcome s
  | .walk          => s.walk.outcome s
  | .takeLine      => s.takeLine.outcome s
  | .consumerDone  => .next s.dispatchReturn
  | .setLine v     => .next (s.setLine v)
  | .pinChange b w => .next (s.pinChange b w)
  | .statusSet b w => .next (s.statusSet b w)
  | .blockReset    => .next s.blockReset

/-- The move of the first requester of the normal context that can make one (log entry 8). -/
def State.moveNormal (s : State) : Move :=
  (List.range s.normals.length).foldr (fun k m => (s.moveContext (.normal k)).orElse m) .blocked

/-- The move the block makes by itself: the consumer's operation, else the walk, else an operation of the normal context, else the upstream line is taken; with none of these it stays as it is. -/
def State.advance (s : State) : Result State :=
  ((((s.moveContext .interrupt).orElse s.walk).orElse s.moveNormal).orElse s.takeLine).outcome s

end Sys2Proof.Machine
end

