-- ==== Sys2Proof/Machine/Step.lean ====
section
/-! DEFINITION. One step of the machine (log entries 8, 9, 19). -/

namespace Sys2Proof.Machine

/-- One step. Without a well-formed configuration there is no controller (60_exceptions.md R274). Otherwise the next input happens if it can, and if there is none or it must wait, the block moves by itself. -/
def step (s : State) : Host.Outcome State Fault Refusal :=
  if cfgWf s.cfg then
    match s.inputs with
    | []     => s.advance
    | e :: l => if e.enabled s then e.perform { s with inputs := l } else s.advance
  else .fault .configurationDefect

/-- The state in which the very next step runs a command word of the normal context's requester 0: it is idle and its write of `CMD` is the next input. -/
def State.withFetchWord (s : State) (nbits w : Nat) : State :=
  { s.setTodo (.normal 0) [] with inputs := .issue (.normal 0) (BitVec.ofNat 32 (w % 2 ^ nbits)) :: s.inputs }

end Sys2Proof.Machine
end

