-- ==== Sys2Proof/Safety.lean ====
section
/-! DEFINITION. What a state a controller can be in looks like: the shape of the register file and the tables, the discipline of the operations in progress, and the place of the demultiplexer's walk (spec 10_state.md, 20_memory.md R70 to R74, 95_test_vectors.md V450). -/

namespace Sys2Proof.Machine

/-! ## Shape -/

/-- The register file and the tables have the shape the configuration gives them (10_state.md R27, R31). -/
structure State.Shaped (s : State) : Prop where
  cfg     : cfgWf s.cfg = true
  banks   : s.banks.length = nbanks s.cfg
  irq     : ∀ b k, s.banks[b]? = some k → k.irq.isSome = bankIrq s.cfg b
  kinds   : s.kind.length = s.cfg.ngpio
  samples : s.samples.length = nbanks s.cfg

/-- Nothing is in progress in the context at work and the lock is free: an operation can run to its end. -/
structure State.Quiet (s : State) : Prop where
  idle : (s.ctx s.active).todo = []
  lock : s.lock = .free

/-! ## Operations in progress -/

/-- Read half and write half of a bit update of pin `p` (20_memory.md R60, 42_pin_io.md R162): within one storage register, or from the write-latch to the current value of an output-capable pin's bank. -/
def BitUpdate (c : Cfg) (p src addr : Nat) : Prop :=
  (outputCapable c p = true ∧ regAt c src = some (.bank (bankOf p) .latch)
      ∧ regAt c addr = some (.bank (bankOf p) .val))
  ∨ (src = addr ∧ ∃ r, r ∈ [Role.tol, .ien, .type0, .type1, .type2] ∧ regAt c addr = some (.bank (bankOf p) r))

/-- A line the block's operations consist of: accesses only to registers that exist, no write to a write-latch (95_test_vectors.md V450 (c)), bit updates of one pin. -/
def Micro.Legal (c : Cfg) : Micro → Prop
  | .read a            => ∃ g, regAt c a = some g
  | .writeBit src a m _ => ∃ p, p < c.ngpio ∧ m = maskOf p ∧ BitUpdate c p src a
  | .write a _         => ∃ g, regAt c a = some g ∧ (g = .ctrl ∨ ∃ b r, g = .bank b r ∧ r ≠ .latch ∧ r ≠ .val)
  | .bind p _          => p < c.ngpio ∧ bankIrq c (bankOf p) = true
  | .acquire | .release | .setReady | .startWalk | .awaitWalk | .answer _ _ _ | .answerBit _ => True

/-- The lines left of an operation of an initialised controller. `held` says whether its context holds the lock, `from?` from which address it has last read. Every write stands in a locked section (20_memory.md R70, R71), a bit update follows its own read, and a section that is entered is left. A DEMUX that waits for the walk's answer is no such list: `InProgress` names it apart. -/
def Disciplined (c : Cfg) : Bool → Option Nat → List Micro → Prop
  | h, _, []                       => h = false
  | h, _, .acquire :: l            => h = false ∧ Disciplined c true none l
  | h, _, .release :: l            => h = true ∧ Disciplined c false none l
  | h, _, .read a :: l             => Disciplined c h (some a) l
  | h, t, .writeBit src _ _ _ :: l => h = true ∧ t = some src ∧ Disciplined c h none l
  | h, _, .write a _ :: l          => h = true ∧ (∃ b, regAt c a = some (.bank b .istat)) ∧ Disciplined c h none l
  | h, t, .bind _ _ :: l           => h = false ∧ Disciplined c h t l
  | _, _, .setReady :: _           => False
  | h, _, .startWalk :: l          => h = false ∧ l = [.awaitWalk]
  | _, _, .awaitWalk :: _          => False
  | h, _, .answer _ _ _ :: l       => h = false ∧ l = []
  | h, _, .answerBit _ :: l        => h = false ∧ l = []

/-- What `c` has read for a bit update still stands in the register: no other agent has written it since (20_memory.md R75 (c), 42_pin_io.md R165). -/
def State.FreshRead (s : State) (c : Ctx) (t : Option Nat) : Prop :=
  ∀ a w, t = some a → s.lock = .held c → s.wordAt a = some w → (s.ctx c).tmp = w

/-- The operation of `c` in progress, on an initialised controller: it waits for the walk's answer, or has disciplined lines left. -/
def State.InProgress (s : State) (c : Ctx) : Prop :=
  (∀ m ∈ (s.ctx c).todo, m.Legal s.cfg) ∧
    (((s.ctx c).todo = [.awaitWalk] ∧ s.lock ≠ .held c)
      ∨ ∃ t, Disciplined s.cfg (decide (s.lock = .held c)) t (s.ctx c).todo ∧ s.FreshRead c t)

/-- The lines left of an INIT that has not set `READY` yet. -/
def InitLines (c : Cfg) : List Micro → Prop
  | .write a w :: l => (Micro.write a w).Legal c ∧ InitLines c l
  | [.setReady, .answer _ _ _] => True
  | _ => False

/-- The lines left of an operation before INIT has ended: none, an answer, or those of INIT (95_test_vectors.md V450 (e)). -/
inductive InitTail (c : Cfg) (l : List Micro) : Prop where
  | ended (h : l = [])
  | answering (status : BitVec 4) (data mask : Word) (h : l = [.answer status data mask])
  | init (h : InitLines c l)

/-! ## The walk -/

/-- The demultiplexer stands at a place of its walk (10_state.md R25): only in banks with interrupts does it scan or wait, and it waits at a set bit. -/
def State.WalkPlace (s : State) : Prop :=
  match s.dmx with
  | .idle       => True
  | .nextBank b => b ≤ nbanks s.cfg
  | .scan b _ i => bankIrq s.cfg b = true ∧ i ≤ 32
  | .wait b w i => bankIrq s.cfg b = true ∧ i < 32 ∧ w.getLsbD i = true

/-- Who waits for the walk's answer: a context waits exactly while the invocation it started is in progress, and outside a dispatch the interrupt context has nothing else in progress (44_demux.md R226, R227). -/
structure State.WalkOwner (s : State) : Prop where
  waits   : ∀ c, (s.ctx c).todo = [.awaitWalk] → s.dmx ≠ .idle ∧ s.walkFor = c
  normal  : ∀ k, s.dmx ≠ .idle → s.walkFor = .normal k → (s.ctx (.normal k)).todo = [.awaitWalk]
  between : s.dispatching = false → s.interrupt.todo = []

/-- Before INIT has ended, only one INIT, operations that answer at once, and the environment move (10_state.md R30, 20_memory.md R71). -/
structure State.Uninitialised (s : State) : Prop where
  lock      : s.lock = .free
  dmx       : s.dmx = .idle
  interrupt : s.interrupt.todo = []
  tail      : ∀ c, InitTail s.cfg (s.ctx c).todo
  once      : ∀ c d, InitLines s.cfg (s.ctx c).todo → InitLines s.cfg (s.ctx d).todo → c = d

/-- The pins of banks without interrupts have no type (95_test_vectors.md V450 (b)). -/
def State.UntypedWithoutIrq (s : State) : Prop :=
  ∀ p k, s.kind[p]? = some k → bankIrq s.cfg (bankOf p) = false → k = .unset

/-- The invariant of the machine. -/
structure State.Inv (s : State) : Prop where
  shaped  : s.Shaped
  untyped : s.UntypedWithoutIrq
  place   : s.WalkPlace
  owner   : s.WalkOwner
  before  : s.ready = false → s.Uninitialised
  after   : s.ready = true → ∀ c, s.InProgress c

/-! ## Safe runs -/

/-- The step neither stops with a fault nor is refused. -/
def State.Goes (s : State) : Prop := ∃ t, step s = .next t

end Sys2Proof.Machine
end

