-- ==== Sys2Proof/Certificates/Slice0/Obligations.lean ====
section
/-! DEFINITION. The statements for the provers. OBLIGATIONS.json lists them with their sources. -/

namespace Sys2Proof.Machine

/-! ## Words the statements use -/

/-- The active context has nothing in progress: its requester may issue an operation (10_state.md R22). -/
def State.Idle (s : State) : Prop := (s.ctx s.active).todo = []

/-- The state in which the active context's operation has ended with a status, a datum and a mask, and nothing else has changed. -/
def State.ended (s : State) (k : Status) (data mask : Word) : State := s.answer s.active (statusCode k) data mask

/-- The state after a bit update of the active context: the word `w` was read at `src`, the word `n` was written at `addr`, and `n` stands in bank `b`'s register of role `r`. -/
def State.updated (s : State) (src addr : Nat) (w n : Word) (b : Nat) (r : Role) : State :=
  (((s.log (.read (.op s.active) src w)).setTmp s.active w).putReg b r n).log (.write (.op s.active) addr n)

/-- The bus address of a register, as a list: empty where the locator gives none. -/
def addrs (c : Cfg) (b : Nat) (r : Role) : List Nat :=
  match busAddr c b r with
  | .ok a    => [a]
  | .error _ => []

/-- The bus addresses of the registers INIT writes in the banks from index `b` up. -/
def initAddrs (c : Cfg) : Nat → List BankDesc → List Nat
  | _, []      => []
  | b, _ :: ds =>
    addrs c b .tol ++ addrs c b .ien ++ addrs c b .istat ++ addrs c b .type0 ++ addrs c b .type1 ++ addrs c b .type2
      ++ initAddrs c (b + 1) ds

/-- The addresses at which an operation may change the word that stands there. SET and DIROUT write to the current-value address, and what changes is the word at the write-latch's address (20_memory.md R63). -/
def storedAddrs (i : Instr) (s : State) : List Nat :=
  match i with
  | .set p _ | .dirout p _ => addrs s.cfg (bankOf p) .latch
  | .tol p _               => addrs s.cfg (bankOf p) .tol
  | .mask p | .unmask p    => addrs s.cfg (bankOf p) .ien
  | .settype p _ =>
    addrs s.cfg (bankOf p) .type0 ++ addrs s.cfg (bankOf p) .type1 ++ addrs s.cfg (bankOf p) .type2
  | .ack p                 => addrs s.cfg (bankOf p) .istat
  | .init _                => ctrlAddr s.cfg :: initAddrs s.cfg 0 s.cfg.bankTable
  | .locate _ _ | .locatep _ _ | .incap _ | .outcap _ | .valid _ | .get _ | .dirin _ | .dirq _ | .demux => []

/-- The operations that take a pin and are refused before INIT (60_exceptions.md R278), DEMUX left out. -/
def pinOperation (i : Instr) (p : Nat) : Prop :=
  i = .get p ∨ (∃ v, i = .set p v) ∨ i = .dirin p ∨ (∃ v, i = .dirout p v) ∨ i = .dirq p ∨ (∃ v, i = .tol p v)
    ∨ (∃ k, i = .settype p k) ∨ i = .mask p ∨ i = .unmask p ∨ i = .ack p

/-- The statuses an operation can end with (60_exceptions.md R275), OK among them. -/
def statusesOf : Instr → List Status
  | .locate _ _ | .locatep _ _ | .incap _ | .outcap _ => [.ok, .invalidArgument]
  | .valid _ => [.ok]
  | .get _ | .set _ _ | .tol _ _ | .mask _ | .unmask _ => [.ok, .notReady, .invalidArgument]
  | .dirin _ | .dirout _ _ | .dirq _ | .settype _ _ | .ack _ => [.ok, .notReady, .invalidArgument, .notSupported]
  | .demux => [.ok, .notReady]
  | .init _ => [.ok, .invalidArgument, .initializationFailure, .initializationDeferred]

/-- The writes of INIT to the banks from index `b` up, in issue order (45_initializer.md R250). -/
def initWrites (c : Cfg) (who : Master) : Nat → List BankDesc → List Event
  | _, []      => []
  | b, d :: ds =>
    (.write who (c.regBase + roleOffset c d .tol) 0#32 ::
      (if d.irq then
        [.write who (c.regBase + roleOffset c d .ien) 0#32,
         .write who (c.regBase + roleOffset c d .istat) 0xFFFFFFFF#32,
         .write who (c.regBase + roleOffset c d .type0) 0xFFFFFFFF#32,
         .write who (c.regBase + roleOffset c d .type1) 0#32,
         .write who (c.regBase + roleOffset c d .type2) 0#32]
      else [])) ++ initWrites c who (b + 1) ds

/-- The pins of bank `b` whose bit is set in `w`, in ascending bit order (44_demux.md R220). -/
def pendingPins (b : Nat) (w : Word) : List Nat :=
  ((List.range 32).filter fun i => w.getLsbD i).map (pinOf b)

/-- The events of one undisturbed invocation in the banks from index `b` up, in issue order (44_demux.md R220). -/
def walkEvents (s : State) : Nat → List BankDesc → List Event
  | _, []      => []
  | b, d :: ds =>
    (if d.irq then
      let w := (s.reg b .istat).getD 0#32
      .read .demux (s.cfg.regBase + roleOffset s.cfg d .istat) w
        :: (pendingPins b w).map fun p => .dispatch (BitVec.ofNat 16 p) (s.handler p)
    else []) ++ walkEvents s (b + 1) ds

/-- The edge rows of 43_irq_control.md R199: whether a level that goes from `old` to `new` is an edge of the kind. -/
def edgeSeen (k : Option Kind) (old new : Bool) : Bool :=
  match k with
  | some .edgeRising  => !old && new
  | some .edgeFalling => old && !new
  | some .edgeBoth    => old != new
  | some .levelHigh | some .levelLow | some .unset | none => false

/-- The level rows and the last row of 43_irq_control.md R199: whether a level is one the kind asks for; an undefined pattern takes any. -/
def levelHolds (k : Option Kind) (v : Bool) : Bool :=
  match k with
  | some .levelHigh => v
  | some .levelLow  => !v
  | none            => true
  | some .edgeRising | some .edgeFalling | some .edgeBoth | some .unset => false

/-- Whether an event is a dispatch. -/
def isDispatch : Event → Bool
  | .dispatch _ _ => true
  | .read _ _ _   => false
  | .write _ _ _  => false

/-- Whether an event is a bus write. -/
def isWrite : Event → Bool
  | .write _ _ _  => true
  | .read _ _ _   => false
  | .dispatch _ _ => false

/-- Where the walk stands, as the pin it will look at next: pins below it are done (44_demux.md R230). -/
def walkPin : Dmx → Option Nat
  | .idle       => none
  | .nextBank b => some (b * 32)
  | .scan b _ i => some (b * 32 + i)
  | .wait b _ i => some (b * 32 + i + 1)

/-- Context `c` makes its moves one after the other, with nothing in between, from `s` to `t`. -/
inductive State.Moves (c : Ctx) : State → State → Prop where
  | refl (s : State) : State.Moves c s s
  | step {s t u : State} : s.moveContext c = .made t → State.Moves c t u → State.Moves c s u

end Sys2Proof.Machine

open Sys2Proof Sys2Proof.Machine

/-! ## Encoding -/

/-- Every well-formed operation is what its command word decodes to (30_encoding.md R90, R91, R100). -/
def Obligations.DecodeInvertsEncode : Prop :=
  ∀ i : Instr, i.wf = true → decode (encode i) = .ok i

/-- Ignored bits of the command word are never checked: a word that agrees on the bits the operation reads requests the same operation, and those bits are the operation's own encoding (30_encoding.md R91). -/
def Obligations.IgnoredBitsNeverMatter : Prop :=
  ∀ (w : Word) (i : Instr), decode w = .ok i →
    i.wf = true ∧ (w ^^^ encode i) &&& i.readBits = 0#32
      ∧ ∀ w' : Word, (w ^^^ w') &&& i.readBits = 0#32 → decode w' = .ok i

/-- A word requests no operation exactly when its `op` is unassigned, and then the operation ends with InvalidArgument, `RESP.data = 0`, no bus access and no other change (30_encoding.md R101). The status is the spec's decision D14. -/
def Obligations.UnassignedOpEndsWithInvalidArgument : Prop :=
  (∀ w : Word, (∃ e, decode w = .error e) ↔
      (opField w = 0 ∨ (0x06 ≤ opField w ∧ opField w ≤ 0x0F) ∨ (0x16 ≤ opField w ∧ opField w ≤ 0x1F)
        ∨ (0x25 ≤ opField w ∧ opField w ≤ 0x2F) ∨ 0x31 ≤ opField w))
    ∧ ∀ (s : State) (c : Ctx) (w : Word) (l : List Input) (e : DecodeError),
        cfgWf s.cfg = true → s.inputs = .issue c w :: l → s.mayIssue c w = true → decode w = .error e →
        step s = .next ((({ s with inputs := l } : State).accept c w).raise c .invalidArgument)

/-- A few command words, written out from the encoding, decode to the operations they stand for (30_encoding.md R90, R100). -/
def Obligations.WrittenWordsDecode : Prop :=
  decode 0b00000001000001100000000000000001#32 = .ok (.locate 1 6)
    ∧ decode 0b00000010000001110000000000100101#32 = .ok (.locatep 37 7)
    ∧ decode 0b00000101000000000000000001000111#32 = .ok (.valid 71)
    ∧ decode 0b00010001000000010000000000100011#32 = .ok (.set 35 true)
    ∧ decode 0b00100000000000110000000000101000#32 = .ok (.settype 40 3)
    ∧ decode 0b00100100000000000000000000000000#32 = .ok .demux
    ∧ decode 0b00110000000000100000000000000000#32 = .ok (.init 2)

/-! ## Steps and configurations -/

/-- A step runs the decoded operation: when a command word is the next input and its context may issue it, the step is `exec` of the operation it decodes to, after the port's `CMD` is written and the context made the active one (10_state.md R21). Putting a word in place with `withFetchWord` makes the next step run it for requester 0 of the normal context. Inputs as a queue, the context at work, the requesters' numbers, and that a second INIT waits while one is in progress, are the model's form (log entries 8, 9, 10, 32). -/
def Obligations.StepRunsDecodedOperation : Prop :=
  (∀ (s : State) (c : Ctx) (w : Word) (l : List Input) (i : Instr),
      cfgWf s.cfg = true → s.inputs = .issue c w :: l → s.mayIssue c w = true → decode w = .ok i →
      step s = exec i (({ s with inputs := l } : State).accept c w))
    ∧ ∀ (s : State) (w : Word) (i : Instr), cfgWf s.cfg = true → s.mayIssue (.normal 0) w = true → decode w = .ok i →
      step (s.withFetchWord 32 w.toNat) = exec i (s.accept (.normal 0) w)

/-- No controller is constructed from an ill-formed configuration, and a machine that holds one stops at every step (60_exceptions.md R274). What counts as ill formed, and that the machine faults, is the model's reading (log entries 18, 19). -/
def Obligations.IllFormedConfigurationIsRefused : Prop :=
  (∀ (c : Cfg) (p : Platform), State.construct c p = none ↔ cfgWf c = false)
    ∧ ∀ s : State, cfgWf s.cfg = false → step s = .fault .configurationDefect

/-! ## The locator -/

/-- The locator is injective on the pairs for which it succeeds, and a write through one role changes no other role's register, but for the write-latch that a write through `val` changes (40_locator.md R128). -/
def Obligations.LocatorIsInjective : Prop :=
  (∀ (c : Cfg) (b b' : Nat) (r r' : Role) (off : Nat), cfgWf c = true →
      locate c b (roleCode r) = .ok off → locate c b' (roleCode r') = .ok off → b = b' ∧ r = r')
    ∧ ∀ (s t : State) (who : Master) (b : Nat) (r : Role) (off : Nat) (v : Word), s.Shaped →
        locate s.cfg b (roleCode r) = .ok off → s.memWrite who (s.cfg.regBase + off) v = .ok t →
        (∀ b' q, (b' ≠ b ∨ q ≠ r) → ¬(r = .val ∧ b' = b ∧ q = .latch) → t.reg b' q = s.reg b' q) ∧ t.ctrl = s.ctrl

/-- The successful lookups are counted: three for each bank and five more for each bank with interrupts, and the register map holds them and the control register (40_locator.md R129). -/
def Obligations.SuccessfulLookupsAreCounted : Prop :=
  ∀ c : Cfg, (regMap c).length = 3 * nbanks c + 5 * (c.bankTable.filter (·.irq)).length + 1
    ∧ ∀ b r off, locate c b (roleCode r) = .ok off ↔ (off, Reg.bank b r) ∈ regMap c

/-- LOCATE answers the offset of the descriptor's field, refuses an out-of-range bank and then a reserved role, and faults on an interrupt role of a bank without interrupts (40_locator.md R121, R123, R124). The fault is the model's form of the fatal status, and the 32 bits of the datum are the model's reading (log entries 17, 20). -/
def Obligations.LocateAnswersOffset : Prop :=
  ∀ (s : State) (b code : Nat), s.Idle →
    (nbanks s.cfg ≤ b → exec (.locate b code) s = .next (s.ended .invalidArgument 0#32 0#32))
      ∧ ∀ d, s.cfg.bankTable[b]? = some d →
        (8 ≤ code → exec (.locate b code) s = .next (s.ended .invalidArgument 0#32 0#32))
          ∧ ∀ r, roleCode r = code →
            ((isIrqRole r = true → d.irq = true) →
                exec (.locate b code) s = .next (s.ended .ok (BitVec.ofNat 32 (roleOffset s.cfg d r)) 0#32))
              ∧ (isIrqRole r = true → d.irq = false → exec (.locate b code) s = .fault .contractViolation)

/-- LOCATEP answers the offset of the pin's bank and the pin's one-hot mask, refuses a pin out of range, and faults as LOCATE does (40_locator.md R126). The fault and the datum's width are the model's reading, as for LOCATE (log entries 17, 20). -/
def Obligations.LocatepAnswersOffsetAndMask : Prop :=
  ∀ (s : State) (p code : Nat), s.Idle → cfgWf s.cfg = true →
    (s.cfg.ngpio ≤ p → exec (.locatep p code) s = .next (s.ended .invalidArgument 0#32 0#32))
      ∧ (p < s.cfg.ngpio → ∃ d, s.cfg.bankTable[p / 32]? = some d ∧
          (8 ≤ code → exec (.locatep p code) s = .next (s.ended .invalidArgument 0#32 0#32))
            ∧ ∀ r, roleCode r = code →
              ((isIrqRole r = true → d.irq = true) →
                  exec (.locatep p code) s
                    = .next (s.ended .ok (BitVec.ofNat 32 (roleOffset s.cfg d r)) (1#32 <<< (p % 32))))
                ∧ (isIrqRole r = true → d.irq = false → exec (.locatep p code) s = .fault .contractViolation))

/-! ## The capability resolver -/

/-- The scan finds the first entry of the bank among the entries before the first sentinel (41_capability.md R141, R142, R143, R152). -/
def Obligations.ScanFindsFirstEntryBeforeSentinel : Prop :=
  ∀ (l : List CapEntry) (b : Nat),
    capEntry l b = (l.takeWhile fun e => !isSentinel e).find? fun e => decide (e.bank = b)

/-- Default-permissive: a pin whose bank no entry names before the first sentinel is input- and output-capable (41_capability.md R148). -/
def Obligations.AbsentBankIsFullyCapable : Prop :=
  ∀ (c : Cfg) (p : Nat),
    (∀ e ∈ c.capTable.takeWhile (fun e => !isSentinel e), e.bank ≠ p / 32) →
    inputCapable c p = true ∧ outputCapable c p = true

/-- No fallback once overridden: where an entry stands for the bank, the capabilities are exactly its mask bits (41_capability.md R149). -/
def Obligations.PresentBankHasExactlyItsMasks : Prop :=
  ∀ (c : Cfg) (p : Nat) (before after : List CapEntry) (e : CapEntry),
    c.capTable = before ++ e :: after → (∀ x ∈ before, isSentinel x = false ∧ x.bank ≠ p / 32) →
    isSentinel e = false → e.bank = p / 32 →
    inputCapable c p = e.inMask.getLsbD (p % 32) ∧ outputCapable c p = e.outMask.getLsbD (p % 32)

/-- INCAP and OUTCAP answer the capability of a pin in range and refuse another; VALID answers for every pin and is never an error (41_capability.md R144, R145, R146). -/
def Obligations.CapabilityOperationsAnswer : Prop :=
  ∀ (s : State) (p : Nat), s.Idle →
    (p < s.cfg.ngpio →
        exec (.incap p) s = .next (s.ended .ok (if inputCapable s.cfg p then 1#32 else 0#32) 0#32)
          ∧ exec (.outcap p) s = .next (s.ended .ok (if outputCapable s.cfg p then 1#32 else 0#32) 0#32)
          ∧ exec (.valid p) s
              = .next (s.ended .ok (if inputCapable s.cfg p ∨ outputCapable s.cfg p then 1#32 else 0#32) 0#32))
      ∧ (s.cfg.ngpio ≤ p →
        exec (.incap p) s = .next (s.ended .invalidArgument 0#32 0#32)
          ∧ exec (.outcap p) s = .next (s.ended .invalidArgument 0#32 0#32)
          ∧ exec (.valid p) s = .next (s.ended .ok 0#32 0#32))

/-! ## Pin I/O -/

/-- GET on an output-capable pin reads the write-latch, once and without the lock, and answers the pin's bit of it (42_pin_io.md R160, R161). -/
def Obligations.GetOnOutputPinReadsLatch : Prop :=
  ∀ (s : State) (p : Nat), s.Shaped → s.Idle → s.ready = true → p < s.cfg.ngpio → outputCapable s.cfg p = true →
    ∃ a w, busAddr s.cfg (p / 32) .latch = .ok a ∧ s.reg (p / 32) .latch = some w
      ∧ exec (.get p) s = .next
          (((s.log (.read (.op s.active) a w)).setTmp s.active w).ended .ok
            (if w.getLsbD (p % 32) then 1#32 else 0#32) 0#32)

/-- GET on another pin reads the current-value register: the word is a draw of the environment, free in every bit, and one draw is taken (42_pin_io.md R160, 20_memory.md R63). The draw is a free value (log entry 7). -/
def Obligations.GetOnOtherPinReadsDraw : Prop :=
  ∀ (s : State) (p : Nat), s.Shaped → s.Idle → s.ready = true → p < s.cfg.ngpio → outputCapable s.cfg p = false →
    ∃ a w, busAddr s.cfg (p / 32) .val = .ok a ∧ w = Config.valDraw s.draws (p / 32) (s.level (p / 32))
      ∧ exec (.get p) s = .next
          (((s.countDraw.log (.read (.op s.active) a w)).setTmp s.active w).ended .ok
            (if w.getLsbD (p % 32) then 1#32 else 0#32) 0#32)

/-- SET on an output-capable pin reads the write-latch and writes the combined word to the current-value register, in one locked section: the latch holds that word, changed in the pin's bit alone (42_pin_io.md R162, R163, 20_memory.md R63). -/
def Obligations.SetWritesCombinedWord : Prop :=
  ∀ (s : State) (p : Nat) (v : Bool), s.Shaped → s.Quiet → s.ready = true → p < s.cfg.ngpio →
    outputCapable s.cfg p = true →
    ∃ src dst w n, busAddr s.cfg (p / 32) .latch = .ok src ∧ busAddr s.cfg (p / 32) .val = .ok dst
      ∧ s.reg (p / 32) .latch = some w
      ∧ (∀ j, n.getLsbD j = if j = p % 32 then v else w.getLsbD j)
      ∧ exec (.set p v) s = .next ((s.updated src dst w n (p / 32) .latch).ended .ok 0#32 0#32)

/-- SET on a pin that is not output-capable ends with OK and has no register effect, no bus access and no lock (42_pin_io.md R164). -/
def Obligations.SetOnOtherPinDoesNothing : Prop :=
  ∀ (s : State) (p : Nat) (v : Bool), s.Idle → s.ready = true → p < s.cfg.ngpio → outputCapable s.cfg p = false →
    exec (.set p v) s = .next (s.ended .ok 0#32 0#32)

/-- SET followed by GET returns the bit that was set, for every output-capable pin and both bits, whatever the registers held (42_pin_io.md R166). -/
def Obligations.GetReturnsWhatWasSet : Prop :=
  ∀ (s : State) (p : Nat) (v : Bool), s.Shaped → s.Quiet → s.ready = true → p < s.cfg.ngpio →
    outputCapable s.cfg p = true →
    ∃ t u, exec (.set p v) s = .next t ∧ exec (.get p) t = .next u
      ∧ (u.ctx s.active).resp = { status := 0#4, data := if v then 1#32 else 0#32, mask := 0#32 }

/-- DIRIN and DIROUT fail exactly when the capability is absent; DIRIN changes no register, DIROUT does what SET does (42_pin_io.md R167, R168, R171). -/
def Obligations.DirectionFailsExactlyWithoutCapability : Prop :=
  ∀ (s : State) (p : Nat) (v : Bool), s.Shaped → s.Idle → s.ready = true → p < s.cfg.ngpio →
    (inputCapable s.cfg p = true → exec (.dirin p) s = .next (s.ended .ok 0#32 0#32))
      ∧ (inputCapable s.cfg p = false → exec (.dirin p) s = .next (s.ended .notSupported 0#32 0#32))
      ∧ (outputCapable s.cfg p = true →
          exec (.dirout p v) s = exec (.set p v) s
            ∧ (s.lock = .free → ∃ t, exec (.dirout p v) s = .next t ∧ (t.ctx s.active).resp.status = 0#4))
      ∧ (outputCapable s.cfg p = false → exec (.dirout p v) s = .next (s.ended .notSupported 0#32 0#32))

/-- DIRQ answers Output for an output-capable pin, else Input for an input-capable one, else NotSupported (42_pin_io.md R169). -/
def Obligations.DirectionQueryPrefersOutput : Prop :=
  ∀ (s : State) (p : Nat), s.Idle → s.ready = true → p < s.cfg.ngpio →
    (outputCapable s.cfg p = true → exec (.dirq p) s = .next (s.ended .ok 0#32 0#32))
      ∧ (outputCapable s.cfg p = false → inputCapable s.cfg p = true → exec (.dirq p) s = .next (s.ended .ok 1#32 0#32))
      ∧ (outputCapable s.cfg p = false → inputCapable s.cfg p = false →
          exec (.dirq p) s = .next (s.ended .notSupported 0#32 0#32))

/-- TOL changes one bit of the tolerance register, under the lock, on every pin in range (42_pin_io.md R170). -/
def Obligations.TolChangesOneBit : Prop :=
  ∀ (s : State) (p : Nat) (v : Bool), s.Shaped → s.Quiet → s.ready = true → p < s.cfg.ngpio →
    ∃ a w n, busAddr s.cfg (p / 32) .tol = .ok a ∧ s.reg (p / 32) .tol = some w
      ∧ (∀ j, n.getLsbD j = if j = p % 32 then v else w.getLsbD j)
      ∧ exec (.tol p v) s = .next ((s.updated a a w n (p / 32) .tol).ended .ok 0#32 0#32)

/-! ## Interrupt control -/

/-- SETTYPE updates the three type registers in the order type0, type1, type2, each in the pin's bit alone, by the row of the trigger table, and then binds the kind (43_irq_control.md R190, R191, R194). -/
def Obligations.SettypeWritesPatternAndBinds : Prop :=
  ∀ (s : State) (p code : Nat) (k : Kind) (x : TypeBits), s.Shaped → s.Quiet → s.ready = true → p < s.cfg.ngpio →
    bankIrq s.cfg (p / 32) = true → kindOfCode code = some k → typeBitsOf k = some x →
    ∃ a0 a1 a2 w0 w1 w2 n0 n1 n2,
      busAddr s.cfg (p / 32) .type0 = .ok a0 ∧ busAddr s.cfg (p / 32) .type1 = .ok a1 ∧ busAddr s.cfg (p / 32) .type2 = .ok a2
      ∧ s.reg (p / 32) .type0 = some w0 ∧ s.reg (p / 32) .type1 = some w1 ∧ s.reg (p / 32) .type2 = some w2
      ∧ (∀ j, n0.getLsbD j = if j = p % 32 then x.type0 else w0.getLsbD j)
      ∧ (∀ j, n1.getLsbD j = if j = p % 32 then x.type1 else w1.getLsbD j)
      ∧ (∀ j, n2.getLsbD j = if j = p % 32 then x.type2 else w2.getLsbD j)
      ∧ exec (.settype p code) s = .next
          ((((s.updated a0 a0 w0 n0 (p / 32) .type0).updated a1 a1 w1 n1 (p / 32) .type1).updated a2 a2 w2 n2 (p / 32) .type2
            |>.setKind p k).ended .ok 0#32 0#32)

/-- The five rows of the trigger table; the table and its inverse agree, the code decides the kind, and the kind decides the handler (43_irq_control.md R190, R198, 30_encoding.md R94). -/
def Obligations.TriggerTableRows : Prop :=
  (∀ code k, kindOfCode code = some k ↔
      (code, k) ∈ [(1, Kind.edgeRising), (2, .edgeFalling), (3, .edgeBoth), (4, .levelHigh), (8, .levelLow)])
    ∧ typeBitsOf .edgeRising = some ⟨true, false, false⟩ ∧ typeBitsOf .edgeFalling = some ⟨false, false, false⟩
    ∧ typeBitsOf .edgeBoth = some ⟨true, false, true⟩ ∧ typeBitsOf .levelHigh = some ⟨true, true, false⟩
    ∧ typeBitsOf .levelLow = some ⟨false, true, false⟩
    ∧ (∀ k x, typeBitsOf k = some x ↔ kindOfTypeBits x = some k)
    ∧ ∀ k, (handlerOf k = .edge ↔ k = .edgeRising ∨ k = .edgeFalling ∨ k = .edgeBoth)
        ∧ (handlerOf k = .level ↔ k = .levelHigh ∨ k = .levelLow)

/-- SETTYPE rejects every unrecognised kind with InvalidArgument, and every kind on a bank without interrupts with NotSupported, and then nothing is written (43_irq_control.md R192, 60_exceptions.md R280). -/
def Obligations.SettypeRejections : Prop :=
  ∀ (s : State) (p code : Nat), s.Idle → s.ready = true → p < s.cfg.ngpio →
    (bankIrq s.cfg (p / 32) = false → exec (.settype p code) s = .next (s.ended .notSupported 0#32 0#32))
      ∧ (bankIrq s.cfg (p / 32) = true → code ∉ [1, 2, 3, 4, 8] →
          exec (.settype p code) s = .next (s.ended .invalidArgument 0#32 0#32))

/-- MASK clears and UNMASK sets the pin's bit of the interrupt-enable register, under the lock (43_irq_control.md R195, R201). -/
def Obligations.MaskAndUnmaskChangeOneBit : Prop :=
  ∀ (s : State) (p : Nat), s.Shaped → s.Quiet → s.ready = true → p < s.cfg.ngpio → bankIrq s.cfg (p / 32) = true →
    ∃ a w n n', busAddr s.cfg (p / 32) .ien = .ok a ∧ s.reg (p / 32) .ien = some w
      ∧ (∀ j, n.getLsbD j = if j = p % 32 then false else w.getLsbD j)
      ∧ (∀ j, n'.getLsbD j = if j = p % 32 then true else w.getLsbD j)
      ∧ exec (.mask p) s = .next ((s.updated a a w n (p / 32) .ien).ended .ok 0#32 0#32)
      ∧ exec (.unmask p) s = .next ((s.updated a a w n' (p / 32) .ien).ended .ok 0#32 0#32)

/-- On a bank without interrupts MASK and UNMASK end with OK and no bus access (43_irq_control.md R196). -/
def Obligations.MaskWithoutInterruptsDoesNothing : Prop :=
  ∀ (s : State) (p : Nat), s.Idle → s.ready = true → p < s.cfg.ngpio → bankIrq s.cfg (p / 32) = false →
    exec (.mask p) s = .next (s.ended .ok 0#32 0#32) ∧ exec (.unmask p) s = .next (s.ended .ok 0#32 0#32)

/-- ACK writes the one-hot word to the status register, under the lock and without a read: the pin's bit is cleared and every other bit kept. On a bank without interrupts it is NotSupported (43_irq_control.md R197, 20_memory.md R67). -/
def Obligations.AckClearsOneStatusBit : Prop :=
  ∀ (s : State) (p : Nat), s.Shaped → s.Quiet → s.ready = true → p < s.cfg.ngpio →
    (bankIrq s.cfg (p / 32) = true →
      ∃ a w n, busAddr s.cfg (p / 32) .istat = .ok a ∧ s.reg (p / 32) .istat = some w
        ∧ (∀ j, n.getLsbD j = if j = p % 32 then false else w.getLsbD j)
        ∧ exec (.ack p) s = .next
            (((s.putReg (p / 32) .istat n).log (.write (.op s.active) a (1#32 <<< (p % 32)))).ended .ok 0#32 0#32))
      ∧ (bankIrq s.cfg (p / 32) = false → exec (.ack p) s = .next (s.ended .notSupported 0#32 0#32))

/-! ## The demultiplexer -/

/-- DEMUX starts the walk at bank 0 with no dispatch counted and no bus access, and its operation waits for the walk's answer. A command while the demultiplexer is not Idle, or while delivery is masked, waits and changes nothing (44_demux.md R221, R233). That the lock also holds up a command on a shared unit is the model's reading (log entry 13). -/
def Obligations.DemuxStartsWalkOrWaits : Prop :=
  ∀ s : State, s.ready = true →
    (s.dmx = .idle → s.deliveryMasked = false →
        exec .demux s = .next
          (({ s with walkCount := 0, walkFor := s.active, dmx := .nextBank 0 } : State).setTodo s.active [.awaitWalk]))
      ∧ ((s.dmx ≠ .idle ∨ s.deliveryMasked = true) → exec .demux s = .next (s.setTodo s.active [.startWalk, .awaitWalk]))

/-- The bank iterator: a bank without interrupts is passed without a bus access, a bank with interrupts has its status register read once, into the walk's own copy (44_demux.md R222, R223). -/
def Obligations.WalkVisitsInterruptBanks : Prop :=
  ∀ (s : State) (b : Nat) (d : BankDesc), s.Shaped → s.dmx = .nextBank b → s.cfg.bankTable[b]? = some d →
    (d.irq = false → s.walk = .made { s with dmx := .nextBank (b + 1) })
      ∧ (d.irq = true → ∃ a w, busAddr s.cfg b .istat = .ok a ∧ s.reg b .istat = some w
          ∧ s.walk = .made { s.log (.read .demux a w) with dmx := .scan b w 0 })

/-- The pending-bit scan takes the bits of the walk's copy in ascending order, passes a clear bit, dispatches a set one as the pin's 16-bit number with the handler bound to the pin, and after bit 31 goes to the next bank. Neither the enable register nor the type is looked at (44_demux.md R224, R225, R226, R232). -/
def Obligations.WalkScansBitsInOrder : Prop :=
  ∀ (s : State) (b : Nat) (w : Word) (i : Nat), s.dmx = .scan b w i → s.deliveryMasked = false →
    (i = 32 → s.walk = .made { s with dmx := .nextBank (b + 1) })
      ∧ (i < 32 → w.getLsbD i = false → s.walk = .made { s with dmx := .scan b w (i + 1) })
      ∧ (i < 32 → w.getLsbD i = true →
          (∀ k, b * 32 + i < s.cfg.ngpio → s.kind[b * 32 + i]? = some k →
            s.walk = .made { s.log (.dispatch (BitVec.ofNat 16 (b * 32 + i)) (handlerOf k)) with dmx := .wait b w i })
          ∧ (s.cfg.ngpio ≤ b * 32 + i →
            s.walk = .made { s.log (.dispatch (BitVec.ofNat 16 (b * 32 + i)) .none) with dmx := .wait b w i }))

/-- The consumer's return counts the dispatch and lets the scan go on after the bit, and nothing else changes. The walk finishes after the last bank: it answers OK with the number of its dispatches and is Idle (44_demux.md R226, R227, 60_exceptions.md R285). -/
def Obligations.WalkReturnsAndFinishes : Prop :=
  (∀ (s : State) (l : List Input) (b : Nat) (w : Word) (i : Nat), cfgWf s.cfg = true →
      s.inputs = .consumerDone :: l → s.dmx = .wait b w i → s.interrupt.todo = [] →
      step s = .next { s with inputs := l, walkCount := s.walkCount + 1, dmx := .scan b w (i + 1) })
    ∧ ∀ s : State, s.dmx = .nextBank (nbanks s.cfg) →
      s.walk = .made ((({ s with dmx := .idle } : State).answer s.walkFor 0#4 (BitVec.ofNat 32 s.walkCount) 0#32).setTodo
        s.walkFor [])

/-- One undisturbed invocation, from the command of any requester of the normal context to its answer, with a consumer that only returns: each interrupt-capable bank's status is read once, every set bit is dispatched in ascending order with its handler, no register changes, and the answer is the number of dispatches (44_demux.md R220, R231). That the block moves by itself when the queue has nothing that can happen, and in which order, is the model's scheduling (log entry 8). -/
def Obligations.DemuxServesEveryPendingBit : Prop :=
  ∀ (s : State) (r : Nat) (w : Word), s.Shaped → s.ready = true → s.dmx = .idle → s.lock = .free →
    (∀ c, (s.ctx c).todo = []) → decode w = .ok .demux →
    s.inputs = .issue (.normal r) w ::
      List.replicate ((walkEvents s 0 s.cfg.bankTable).filter isDispatch).length .consumerDone →
    ∃ k t, Sys2Proof.core.run k s = .next t
      ∧ t.inputs = [] ∧ t.dmx = .idle ∧ t.lock = .free ∧ (t.ctx (.normal r)).todo = []
      ∧ (t.ctx (.normal r)).resp =
          ⟨0#4, BitVec.ofNat 32 ((walkEvents s 0 s.cfg.bankTable).filter isDispatch).length, 0#32⟩
      ∧ t.trace = (walkEvents s 0 s.cfg.bankTable).reverse ++ s.trace
      ∧ t.banks = s.banks ∧ t.ctrl = s.ctrl ∧ t.kind = s.kind ∧ t.ready = true ∧ ∀ c, c ≠ .normal r → t.ctx c = s.ctx c

/-- Within one invocation dispatches ascend: whatever else happens in between, from a state that meets the invariant a step that leaves the walk in progress never takes it back, and every pin it dispatches lies at or above where the walk stood and below where it then stands (44_demux.md R230, R229). The dispatch port carries the low 16 bits of the pin (30_encoding.md R97, log entry 17). -/
def Obligations.DispatchesAscend : Prop :=
  ∀ (s t : State) (n m : Nat), s.Inv → step s = .next t → walkPin s.dmx = some n → walkPin t.dmx = some m →
    n ≤ m ∧ ∃ new, t.trace = new ++ s.trace ∧ ∀ p h, Event.dispatch p h ∈ new → ∃ q, n ≤ q ∧ q < m ∧ p = BitVec.ofNat 16 q

/-- The upstream line starts an invocation on the interrupt context's port when it is asserted, the controller is ready, the demultiplexer is Idle and delivery is not masked. While a requester of the normal context holds the lock on the interrupt context's own execution unit, no invocation and no dispatch starts; else delivery is not masked. A free line is asserted as the environment drives it; in `REF`'s reading it is asserted exactly while some enabled status bit is pending (44_demux.md R233, 20_memory.md R73, R79). The interrupt port as the answer's place and which requesters share the unit are the model's reading, and so is that both readings of the line stand side by side (log entries 12, 14, 27). -/
def Obligations.LineStartsInvocationUnlessMasked : Prop :=
  ∀ s : State,
    (s.ready = true → s.lineAsserted = true → s.dmx = .idle → s.deliveryMasked = false →
        s.takeLine = .made { s with walkCount := 0, walkFor := .interrupt, dmx := .nextBank 0 })
      ∧ ((s.ready = false ∨ s.lineAsserted = false ∨ s.dmx ≠ .idle) → s.takeLine = .blocked)
      ∧ (∀ k, s.platform.shares k = true → s.lock = .held (.normal k) →
          s.takeLine = .blocked ∧ (∀ c, s.startWalk c = .blocked)
            ∧ ∀ b w i, s.dmx = .scan b w i → i < 32 → w.getLsbD i = true → s.walk = .blocked)
      ∧ ((∀ k, s.platform.shares k = true → s.lock ≠ .held (.normal k)) → s.deliveryMasked = false)
      ∧ (s.platform.line = .free → s.lineAsserted = s.line)
      ∧ (s.platform.line = .enabledPending →
          (s.lineAsserted = true ↔ ∃ (b : Nat) (k : BankRegs) (g : IrqRegs), s.banks[b]? = some k ∧ k.irq = some g ∧ g.istat &&& g.ien ≠ 0#32))

/-! ## The initializer -/

/-- INIT with every collaborator resolved programs the control register, clears every tolerance register, and in each bank with interrupts disables, clears status and sets the default type, in exactly that order. It leaves the write-latches and the types alone, makes the controller ready, and answers the control word (45_initializer.md R250, R254 to R259, 10_state.md R36). -/
def Obligations.InitProgramsRegisters : Prop :=
  ∀ s : State, s.Shaped → s.Idle → s.ready = false →
    let cw := initWord s.cfg (s.ctx s.active).op0.toNat (s.ctx s.active).op1.toNat
    ∃ t, exec (.init 0) s = .next t ∧ t.ready = true ∧ t.ctrl = cw
      ∧ (∀ b d, s.cfg.bankTable[b]? = some d →
          t.reg b .tol = some 0#32 ∧ t.reg b .latch = s.reg b .latch
            ∧ (d.irq = true → t.reg b .ien = some 0#32 ∧ t.reg b .istat = some 0#32
                ∧ t.reg b .type0 = some 0xFFFFFFFF#32 ∧ t.reg b .type1 = some 0#32 ∧ t.reg b .type2 = some 0#32))
      ∧ t.trace = (.write (.op s.active) (ctrlAddr s.cfg) cw
          :: initWrites s.cfg (.op s.active) 0 s.cfg.bankTable).reverse ++ s.trace
      ∧ (t.ctx s.active).resp = { status := 0#4, data := cw, mask := 0#32 }
      ∧ t.kind = s.kind ∧ t.lock = s.lock ∧ t.dmx = s.dmx ∧ (t.ctx s.active).todo = []

/-- INIT on an initialised controller, or with reserved, failed or deferred collaborators, ends with its error and changes nothing else (45_initializer.md R260, R261, 60_exceptions.md R280). -/
def Obligations.InitRefusals : Prop :=
  ∀ (s : State) (cs : Nat), s.Idle →
    (s.ready = true → exec (.init cs) s = .next (s.ended .invalidArgument 0#32 0#32))
      ∧ (s.ready = false →
          exec (.init 3) s = .next (s.ended .invalidArgument 0#32 0#32)
            ∧ exec (.init 1) s = .next (s.ended .initializationFailure 0#32 0#32)
            ∧ exec (.init 2) s = .next (s.ended .initializationDeferred 0#32 0#32))

/-- The clock divisor: `F_src / (2 * F_req)` rounded to the nearest integer with halves up, less one, clamped to 1 to 65535, with an absent frequency read as 1,000,000 Hz (45_initializer.md R251, R253). That halves round up is the spec's decision D29. -/
def Obligations.DivisorIsRoundedAndClamped : Prop :=
  (∀ fSrc fReq q : Nat, 0 < fReq → 2 * fReq * q ≤ fSrc + fReq → fSrc + fReq < 2 * fReq * (q + 1) →
      divisor fSrc fReq = max 1 (min 65535 (q - 1)))
    ∧ ∀ fSrc : Nat, divisor fSrc 0 = divisor fSrc 1000000

/-- The frame byte count is the pin count over 16, rounded toward zero and clamped to 1 to 10 (45_initializer.md R252). That the quotient truncates is the spec's decision D30. -/
def Obligations.FrameBytesAreClamped : Prop :=
  ∀ n : Nat, frameBytes n = max 1 (min 10 (n / 16))

/-- The control word reads back: the divisor and the byte count stand in their fields, the enable bit is 1, and every other bit is 0 (30_encoding.md R99). -/
def Obligations.ControlWordHoldsItsFields : Prop :=
  ∀ (c : Cfg) (d fb j : Nat), cfgWf c = true → d ≤ 65535 → fb ≤ 10 → j < 32 →
    (ctrlWord c.ctrl d fb).getLsbD j =
      (if c.ctrl.divLsb ≤ j ∧ j < c.ctrl.divLsb + c.ctrl.divW then d.testBit (j - c.ctrl.divLsb)
       else if c.ctrl.fbLsb ≤ j ∧ j < c.ctrl.fbLsb + c.ctrl.fbW then fb.testBit (j - c.ctrl.fbLsb)
       else decide (j = c.ctrl.enBit))

/-! ## Errors -/

/-- The operations that need INIT end with NotReady before any other test while the controller is not ready (60_exceptions.md R278). -/
def Obligations.NothingRunsBeforeInit : Prop :=
  ∀ (s : State) (i : Instr) (p : Nat), s.Idle → s.ready = false → (pinOperation i p ∨ i = .demux) →
    exec i s = .next (s.ended .notReady 0#32 0#32)

/-- An operation on a pin at or above `NGPIO` ends with InvalidArgument before any capability or interrupt test (60_exceptions.md R276). -/
def Obligations.PinOutOfRangeIsRefused : Prop :=
  ∀ (s : State) (p code : Nat), s.Idle → s.cfg.ngpio ≤ p →
    (∀ i, s.ready = true → pinOperation i p → exec i s = .next (s.ended .invalidArgument 0#32 0#32))
      ∧ exec (.locatep p code) s = .next (s.ended .invalidArgument 0#32 0#32)
      ∧ exec (.incap p) s = .next (s.ended .invalidArgument 0#32 0#32)
      ∧ exec (.outcap p) s = .next (s.ended .invalidArgument 0#32 0#32)
      ∧ exec (.valid p) s = .next (s.ended .ok 0#32 0#32)

/-- A failed operation has no side effect: an operation that has ended with a status other than OK has written its answer and changed nothing else, and the status is one the operation can end with (60_exceptions.md R270, R275). -/
def Obligations.FailedOperationHasNoEffect : Prop :=
  ∀ (i : Instr) (s t : State), s.Idle → exec i s = .next t → (t.ctx s.active).todo = [] →
    (t.ctx s.active).resp.status ∈ (statusesOf i).map statusCode
      ∧ ((t.ctx s.active).resp.status ≠ statusCode .ok → ∃ k, t = s.ended k 0#32 0#32)

/-! ## Frames -/

/-- What an operation leaves alone when it runs: every byte of the window outside the registers it stores to, the types of all pins but SETTYPE's own, `READY` but for INIT, the walk but for DEMUX, the draws but for a GET of a pin that is not output-capable, the lock, the configuration, the environment's side, every other context, and its own port's inputs (20_memory.md R51, R71, 42_pin_io.md R163, 45_initializer.md R258). -/
def Obligations.OperationFrame : Prop :=
  ∀ (i : Instr) (s t : State), s.Shaped → exec i s = .next t →
    (∀ n, (∀ a ∈ storedAddrs i s, ¬(a ≤ n ∧ n < a + 4)) → t.byteAt n = s.byteAt n)
      ∧ (∀ q, (∀ p code, i = .settype p code → q ≠ p) → t.kind[q]? = s.kind[q]?)
      ∧ ((∀ cs, i ≠ .init cs) → t.ready = s.ready)
      ∧ (i ≠ .demux → t.dmx = s.dmx ∧ t.walkCount = s.walkCount ∧ t.walkFor = s.walkFor)
      ∧ ((∀ p, i = .get p → outputCapable s.cfg p = true) → t.draws = s.draws)
      ∧ t.lock = s.lock ∧ t.cfg = s.cfg ∧ t.platform = s.platform ∧ t.active = s.active
      ∧ t.samples = s.samples ∧ t.line = s.line ∧ t.inputs = s.inputs
      ∧ (∀ c, c ≠ s.active → t.ctx c = s.ctx c)
      ∧ (t.ctx s.active).cmd = (s.ctx s.active).cmd ∧ (t.ctx s.active).op0 = (s.ctx s.active).op0
      ∧ (t.ctx s.active).op1 = (s.ctx s.active).op1

/-- While another context holds the lock, an operation that needs a locked section waits with its whole plan still to do: it issues no bus event and changes no register (20_memory.md R70, R71). -/
def Obligations.LockedSectionWaits : Prop :=
  ∀ (s : State) (p : Nat) (i : Instr) (c : Ctx), s.Shaped → s.ready = true → p < s.cfg.ngpio → s.lock = .held c →
    (((∃ v, i = .set p v ∨ i = .dirout p v) ∧ outputCapable s.cfg p = true) ∨ (∃ v, i = .tol p v)
      ∨ ((i = .mask p ∨ i = .unmask p ∨ i = .ack p ∨ ∃ code ∈ [1, 2, 3, 4, 8], i = .settype p code)
          ∧ bankIrq s.cfg (p / 32) = true)) →
    ∃ l, l ≠ [] ∧ planOf i s = .ok l ∧ exec i s = .next (s.setTodo s.active l)

/-! ## The bus -/

/-- Reads have no effect on any register, a storage register, the control register among them, reads back what was written, a write to the current value shows in the write-latch, and the status register is write-one-to-clear (20_memory.md R58, R61, R63, R67). -/
def Obligations.RegistersBehaveByClass : Prop :=
  (∀ (s : State) (who : Master) (b a : Nat) (r : Role) (v : Word), s.Shaped → busAddr s.cfg b r = .ok a →
    (∃ w t, s.memRead who a = .ok (w, t) ∧ t.banks = s.banks ∧ t.ctrl = s.ctrl ∧ (r ≠ .val → s.reg b r = some w))
      ∧ (r ∈ [Role.tol, .ien, .type0, .type1, .type2] → ∃ t, s.memWrite who a v = .ok t ∧ t.reg b r = some v
          ∧ ∃ u, t.memRead who a = .ok (v, u))
      ∧ (r = .val → ∃ t, s.memWrite who a v = .ok t ∧ t.reg b .latch = some v)
      ∧ (r = .istat → ∃ t w, s.memWrite who a v = .ok t ∧ s.reg b .istat = some w ∧ t.reg b .istat = some (w &&& ~~~v))
      ∧ (r = .latch → s.memWrite who a v = .error .busLatchWrite))
    ∧ ∀ (s : State) (who : Master) (v : Word), s.Shaped →
        (∃ t, s.memRead who (ctrlAddr s.cfg) = .ok (s.ctrl, t) ∧ t.banks = s.banks ∧ t.ctrl = s.ctrl)
          ∧ ∃ t, s.memWrite who (ctrlAddr s.cfg) v = .ok t ∧ t.ctrl = v ∧ t.banks = s.banks
            ∧ ∃ u, t.memRead who (ctrlAddr s.cfg) = .ok (v, u)

/-- The bus primitives refuse a misaligned address and an address no register has (20_memory.md R53, R58, R59). The refusals are the model's form of the rules' preconditions (log entry 21). -/
def Obligations.BusRefusesOtherAccesses : Prop :=
  ∀ (s : State) (who : Master) (a : Nat) (v : Word),
    (a % 4 ≠ 0 → s.memRead who a = .error .busMisaligned ∧ s.memWrite who a v = .error .busMisaligned)
      ∧ (a % 4 = 0 → (∀ g, (a, g) ∉ (regMap s.cfg).map (fun e => (s.cfg.regBase + e.1, e.2))) →
          s.memRead who a = .error .busUnmapped ∧ s.memWrite who a v = .error .busUnmapped)

/-! ## The environment and reset -/

/-- StatusSet sets only bits of the status register it names, not gated by the enable register, and changes nothing else of the block. In free surroundings it sets any bits; in matched surroundings only bits with a match at a sample that no StatusSet has used, and bits whose lasting level matches, or whose type pattern is undefined. The matches behind the bits that set are used, so that a pin of an edge type sets again only on a new edge (20_memory.md R62, R68, 43_irq_control.md R199). Both readings of the surroundings are the spec's decision D23 (log entry 15). -/
def Obligations.StatusSetFollowsTriggerTable : Prop :=
  ∀ (s t : State) (b : Nat) (k : BankRegs) (g : IrqRegs) (x : Sample) (m : Word) (j : Nat),
    s.banks[b]? = some k → k.irq = some g → s.samples[b]? = some x → j < 32 → t = s.statusSet b m →
    (∀ b' q, (b' ≠ b ∨ q ≠ .istat) → t.reg b' q = s.reg b' q)
      ∧ t.ctrl = s.ctrl ∧ t.kind = s.kind ∧ t.ready = s.ready ∧ t.lock = s.lock ∧ t.dmx = s.dmx
      ∧ t.normals = s.normals ∧ t.interrupt = s.interrupt ∧ t.trace = s.trace
      ∧ (∀ b', b' ≠ b → t.samples[b']? = s.samples[b']?)
      ∧ (∃ w y, t.reg b .istat = some w ∧ t.samples[b]? = some y ∧ y.level = x.level
        ∧ y.edges.getLsbD j = (x.edges.getLsbD j && !m.getLsbD j) ∧ y.holds.getLsbD j = (x.holds.getLsbD j && !m.getLsbD j)
        ∧ (s.platform.status = .free → w.getLsbD j = (g.istat.getLsbD j || m.getLsbD j))
        ∧ (s.platform.status = .matched →
            w.getLsbD j = (g.istat.getLsbD j || (m.getLsbD j
              && (x.edges.getLsbD j || x.holds.getLsbD j || levelHolds (g.kindAt j) (x.level.getLsbD j))))))
      ∧ (m.getLsbD j = true → ∀ (u : State) (k' : BankRegs) (g' : IrqRegs) (m' : Word),
          u.platform.status = .matched → u.samples[b]? = t.samples[b]? → u.banks[b]? = some k' → k'.irq = some g' →
          g'.kindAt j ∈ [some Kind.edgeRising, some .edgeFalling, some .edgeBoth] →
          ∃ w, (u.statusSet b m').reg b .istat = some w ∧ w.getLsbD j = g'.istat.getLsbD j)

/-- The steps from outside that run no operation: a write of `OP0` or `OP1` changes that register alone; the line takes the level it is driven to; a PinChange changes no register, samples the bank's level, keeps the edges seen so far, adds those the pins' type bits ask for at this moment, and finds anew which levels match (10_state.md R21, 20_memory.md R62, R79, 43_irq_control.md R199). That they come through a queue is the model's form (log entry 8), and that the environment remembers an unused edge is its reading (log entry 15). -/
def Obligations.OutsideStepsWriteOperandsLineAndSamples : Prop :=
  ∀ (s : State) (l : List Input), cfgWf s.cfg = true →
    (∀ c w, s.inputs = .writeOp0 c w :: l →
        step s = .next (({ s with inputs := l } : State).setCtx c { s.ctx c with op0 := w }))
      ∧ (∀ c w, s.inputs = .writeOp1 c w :: l →
        step s = .next (({ s with inputs := l } : State).setCtx c { s.ctx c with op1 := w }))
      ∧ (∀ v, s.inputs = .setLine v :: l → step s = .next { s with inputs := l, line := v })
      ∧ ∀ b w x, s.inputs = .pinChange b w :: l → s.samples[b]? = some x →
        ∃ y, step s = .next { s with inputs := l, samples := s.samples.set b y } ∧ y.level = w
          ∧ ∀ k, s.banks[b]? = some k →
            (∀ g j, k.irq = some g → j < 32 →
              y.edges.getLsbD j = (x.edges.getLsbD j || edgeSeen (g.kindAt j) (x.level.getLsbD j) (w.getLsbD j))
                ∧ y.holds.getLsbD j = levelHolds (g.kindAt j) (w.getLsbD j))
            ∧ (k.irq = none → y.edges = x.edges ∧ y.holds = 0#32)

/-- Reset leaves the block as the spec says: every type unset, the lock free, the demultiplexer Idle, not ready, the normal context at work, whatever the configuration (10_state.md R35, 70_reset_and_hazards.md R311). The fixture of `State.reset` is the model's choice (log entry 2). -/
def Obligations.ResetLeavesBlockUninitialised : Prop :=
  State.reset = State.powerOn refCfg refPlatform
    ∧ ∀ (c : Cfg) (p : Platform),
        (State.powerOn c p).kind.length = c.ngpio ∧ (∀ k ∈ (State.powerOn c p).kind, k = .unset)
          ∧ (State.powerOn c p).lock = .free ∧ (State.powerOn c p).dmx = .idle ∧ (State.powerOn c p).ready = false
          ∧ (State.powerOn c p).active = .normal 0

/-- A reset of the block takes it back to the reset values of its own state and touches neither the register file nor the configuration nor the environment (70_reset_and_hazards.md R310). What becomes of the port and of the inputs is the model's choice (log entry 22). -/
def Obligations.BlockResetKeepsRegisterFile : Prop :=
  ∀ (s : State) (l : List Input), cfgWf s.cfg = true → s.inputs = .blockReset :: l →
    ∃ t, step s = .next t ∧ t.banks = s.banks ∧ t.ctrl = s.ctrl ∧ t.cfg = s.cfg ∧ t.platform = s.platform
      ∧ t.samples = s.samples ∧ t.line = s.line ∧ t.trace = s.trace ∧ t.inputs = l
      ∧ t.kind = List.replicate s.cfg.ngpio .unset ∧ t.lock = .free ∧ t.dmx = .idle ∧ t.ready = false
      ∧ ∀ c, (t.ctx c).todo = []

/-! ## The machine as a whole -/

/-- A machine powered on with a well-formed configuration meets the invariant (10_state.md R35). -/
def Obligations.PowerOnMeetsInvariant : Prop :=
  State.reset.Inv ∧ ∀ (c : Cfg) (p : Platform), cfgWf c = true → (State.powerOn c p).Inv

/-- Every step keeps the invariant, whatever the inputs. -/
def Obligations.StepKeepsInvariant : Prop :=
  ∀ s t : State, s.Inv → step s = .next t → t.Inv

/-- In a state that meets the invariant no step is refused, so that no bus access is misaligned, unmapped or to a write-latch, and the only fault is the contract violation of a LOCATE or LOCATEP command (20_memory.md R51, R53, 40_locator.md R124). The fault is the model's form of the fatal status (log entry 20). -/
def Obligations.OnlyContractViolationStops : Prop :=
  ∀ s : State, s.Inv →
    (∃ t, step s = .next t)
      ∨ (step s = .fault .contractViolation ∧ ∃ c w l n code, (s.inputs = .issue c w :: l ∨ s.inputs = .start c w :: l)
          ∧ (decode w = .ok (.locate n code) ∨ decode w = .ok (.locatep n code)))

/-- At most one context is inside a locked section: two operations in progress cannot both have a register write as their next line (20_memory.md R70, R71). -/
def Obligations.LockedSectionsExclude : Prop :=
  ∀ (s : State) (c d : Ctx) (m m' : Micro) (l l' : List Micro), s.Inv → s.ready = true →
    (s.ctx c).todo = m :: l → (s.ctx d).todo = m' :: l' →
    ((∃ src a x v, m = .writeBit src a x v) ∨ ∃ a w, m = .write a w) →
    ((∃ src a x v, m' = .writeBit src a x v) ∨ ∃ a w, m' = .write a w) →
    c = d ∧ s.lock = .held c

/-- No update is lost: the write half of a bit update changes only its own bit of the word that stands in the register when it is written, whatever happened since the read half (42_pin_io.md R165, 20_memory.md R75). -/
def Obligations.NoUpdateIsLost : Prop :=
  ∀ (s : State) (c : Ctx) (src a : Nat) (m : Word) (v : Bool) (l : List Micro), s.Inv → s.ready = true →
    (s.ctx c).todo = .writeBit src a m v :: l →
    ∃ t w, s.moveContext c = .made t ∧ s.wordAt src = some w ∧ t.wordAt src = some (putBits w m v)

/-- The write-latch bit of a pin that is not output-capable is never changed by any step, from any state that meets the invariant (42_pin_io.md R163). -/
def Obligations.LatchBitOfOtherPinsNeverChanges : Prop :=
  ∀ (s t : State) (p : Nat) (w : Word), s.Inv → step s = .next t → outputCapable s.cfg p = false →
    s.reg (p / 32) .latch = some w → ∃ w', t.reg (p / 32) .latch = some w' ∧ w'.getLsbD (p % 32) = w.getLsbD (p % 32)

/-- Only the environment sets a status bit: a step that is not a StatusSet sets no bit of any status register (20_memory.md R61, R67, 60_exceptions.md R281). -/
def Obligations.BlockNeverSetsStatus : Prop :=
  ∀ (s t : State) (b : Nat) (w : Word), step s = .next t →
    (∀ x l, s.inputs ≠ .statusSet b x :: l) → s.reg b .istat = some w →
    ∃ w', t.reg b .istat = some w' ∧ w' &&& ~~~w = 0#32

/-- The register file changes only by bus writes and StatusSets: a step that records no bus write and is no StatusSet leaves every register as it was (20_memory.md R61, R74). -/
def Obligations.RegistersChangeOnlyByWrites : Prop :=
  ∀ s t : State, step s = .next t → (∀ b x l, s.inputs ≠ .statusSet b x :: l) →
    ∃ new, t.trace = new ++ s.trace ∧ ((∀ e ∈ new, isWrite e = false) → t.banks = s.banks ∧ t.ctrl = s.ctrl)

/-- Running a command to its end is the same as starting it and letting its context make its moves with nothing in between, until it has ended or must wait (20_memory.md R72). That a whole operation can be one step is the model's form (log entry 1). -/
def Obligations.AtomicRunIsUninterruptedMoves : Prop :=
  ∀ (s t : State) (c : Ctx) (w : Word), (s.ctx c).todo = [] → s.issue c w = .next t →
    ∃ u, s.start c w = .next u ∧ State.Moves c u t ∧ t.moveContext c = .blocked
end

