-- ==== Sys2Proof/Laws/Encoding.lean ====
section
/-! SUPPORT. The fields of the command word: how they are read from a word put together from them, and which bits they are (spec 30_encoding.md R90, R91). -/

namespace Sys2Proof

/-! ## Fields of a word -/

/-- The fields of a word put together from fields (30_encoding.md R90). -/
theorem fields_ofNat {o a n : Nat} (ho : o < 256) (ha : a < 256) (hn : n < 65536) :
    opField (BitVec.ofNat 32 (o * 16777216 + a * 65536 + n)) = o
      ∧ argField (BitVec.ofNat 32 (o * 16777216 + a * 65536 + n)) = a
      ∧ idxField (BitVec.ofNat 32 (o * 16777216 + a * 65536 + n)) = n := by
  simp only [opField, argField, idxField, BitVec.toNat_ofNat]; omega

/-! ## Fields as bits -/

theorem opField_lt (w : Word) : opField w < 256 := by have := w.isLt; unfold opField; omega
theorem argField_lt (w : Word) : argField w < 256 := by unfold argField; omega
theorem idxField_lt (w : Word) : idxField w < 65536 := by unfold idxField; omega

theorem opField_eq (w : Word) : opField w = (w.extractLsb' 24 8).toNat := by
  have := w.isLt
  simp only [opField, BitVec.extractLsb'_toNat, Nat.shiftRight_eq_div_pow]; omega
theorem argField_eq (w : Word) : argField w = (w.extractLsb' 16 8).toNat := by
  simp only [argField, BitVec.extractLsb'_toNat, Nat.shiftRight_eq_div_pow]
theorem idxField_eq (w : Word) : idxField w = (w.extractLsb' 0 16).toNat := by
  simp [idxField, BitVec.extractLsb'_toNat, Nat.shiftRight_eq_div_pow]
theorem statusField_eq (w : Word) : statusField w = (w.extractLsb' 16 2).toNat := by
  simp only [statusField, argField, BitVec.extractLsb'_toNat, Nat.shiftRight_eq_div_pow]; omega
theorem bitField_eq (w : Word) : bitField w = w.getLsbD 16 := by
  simp only [bitField, argField, BitVec.getLsbD, Nat.testBit_eq_decide_div_mod_eq]
  rw [Bool.eq_iff_iff]; simp

/-- Two words have the same field exactly when they agree on its bits. -/
theorem extract_congr {w w' : Word} {a n : Nat} :
    (w.extractLsb' a n).toNat = (w'.extractLsb' a n).toNat ↔ ∀ j, j < n → w.getLsbD (a + j) = w'.getLsbD (a + j) := by
  rw [BitVec.toNat_inj]
  constructor
  · intro h j hj
    have := congrArg (·.getLsbD j) h
    simpa [BitVec.getLsbD_extractLsb', hj] using this
  · intro h; ext j hj
    simpa [BitVec.getElem_extractLsb'] using h j hj

/-- Two words agree on the bits of a mask. -/
theorem agree_iff {w w' m : Word} : (w ^^^ w') &&& m = 0#32 ↔ ∀ j, j < 32 → m.getLsbD j = true → w.getLsbD j = w'.getLsbD j := by
  constructor
  · intro h j hj hm
    have := congrArg (·.getLsbD j) h
    simpa [hm] using this
  · intro h; apply BitVec.eq_of_getLsbD_eq; intro j hj
    cases hm : m.getLsbD j
    · simp [hm]
    · simp [hm, h j hj hm]

/-- The `op` of a decoded word is the operation's (30_encoding.md R100). -/
theorem op_of_decode {w : Word} {i : Instr} (h : decode w = .ok i) : opField w = i.op := by
  unfold decode at h; split at h <;> first | (cases h; assumption) | cases h

end Sys2Proof
end

