-- ==== Sys2Proof/Laws/State.lean ====
section
/-! SUPPORT. What each update of the state leaves as it was and what it changes: one lemma for each field of each update. -/

namespace Sys2Proof.Machine

/-! ## `setCtx` -/

@[simp] theorem State.setCtx_cfg (s : State) (c : Ctx) (x : Context) : (s.setCtx c x).cfg = s.cfg := by cases c <;> rfl
@[simp] theorem State.setCtx_platform (s : State) (c : Ctx) (x : Context) : (s.setCtx c x).platform = s.platform := by cases c <;> rfl
@[simp] theorem State.setCtx_active (s : State) (c : Ctx) (x : Context) : (s.setCtx c x).active = s.active := by cases c <;> rfl
@[simp] theorem State.setCtx_kind (s : State) (c : Ctx) (x : Context) : (s.setCtx c x).kind = s.kind := by cases c <;> rfl
@[simp] theorem State.setCtx_lock (s : State) (c : Ctx) (x : Context) : (s.setCtx c x).lock = s.lock := by cases c <;> rfl
@[simp] theorem State.setCtx_dmx (s : State) (c : Ctx) (x : Context) : (s.setCtx c x).dmx = s.dmx := by cases c <;> rfl
@[simp] theorem State.setCtx_walkCount (s : State) (c : Ctx) (x : Context) : (s.setCtx c x).walkCount = s.walkCount := by cases c <;> rfl
@[simp] theorem State.setCtx_walkFor (s : State) (c : Ctx) (x : Context) : (s.setCtx c x).walkFor = s.walkFor := by cases c <;> rfl
@[simp] theorem State.setCtx_ready (s : State) (c : Ctx) (x : Context) : (s.setCtx c x).ready = s.ready := by cases c <;> rfl
@[simp] theorem State.setCtx_banks (s : State) (c : Ctx) (x : Context) : (s.setCtx c x).banks = s.banks := by cases c <;> rfl
@[simp] theorem State.setCtx_ctrl (s : State) (c : Ctx) (x : Context) : (s.setCtx c x).ctrl = s.ctrl := by cases c <;> rfl
@[simp] theorem State.setCtx_samples (s : State) (c : Ctx) (x : Context) : (s.setCtx c x).samples = s.samples := by cases c <;> rfl
@[simp] theorem State.setCtx_line (s : State) (c : Ctx) (x : Context) : (s.setCtx c x).line = s.line := by cases c <;> rfl
@[simp] theorem State.setCtx_draws (s : State) (c : Ctx) (x : Context) : (s.setCtx c x).draws = s.draws := by cases c <;> rfl
@[simp] theorem State.setCtx_trace (s : State) (c : Ctx) (x : Context) : (s.setCtx c x).trace = s.trace := by cases c <;> rfl
@[simp] theorem State.setCtx_inputs (s : State) (c : Ctx) (x : Context) : (s.setCtx c x).inputs = s.inputs := by cases c <;> rfl

/-! ## `setTodo` -/

@[simp] theorem State.setTodo_cfg (s : State) (c : Ctx) (l : List Micro) : (s.setTodo c l).cfg = s.cfg := by cases c <;> rfl
@[simp] theorem State.setTodo_platform (s : State) (c : Ctx) (l : List Micro) : (s.setTodo c l).platform = s.platform := by cases c <;> rfl
@[simp] theorem State.setTodo_active (s : State) (c : Ctx) (l : List Micro) : (s.setTodo c l).active = s.active := by cases c <;> rfl
@[simp] theorem State.setTodo_kind (s : State) (c : Ctx) (l : List Micro) : (s.setTodo c l).kind = s.kind := by cases c <;> rfl
@[simp] theorem State.setTodo_lock (s : State) (c : Ctx) (l : List Micro) : (s.setTodo c l).lock = s.lock := by cases c <;> rfl
@[simp] theorem State.setTodo_dmx (s : State) (c : Ctx) (l : List Micro) : (s.setTodo c l).dmx = s.dmx := by cases c <;> rfl
@[simp] theorem State.setTodo_walkCount (s : State) (c : Ctx) (l : List Micro) : (s.setTodo c l).walkCount = s.walkCount := by cases c <;> rfl
@[simp] theorem State.setTodo_walkFor (s : State) (c : Ctx) (l : List Micro) : (s.setTodo c l).walkFor = s.walkFor := by cases c <;> rfl
@[simp] theorem State.setTodo_ready (s : State) (c : Ctx) (l : List Micro) : (s.setTodo c l).ready = s.ready := by cases c <;> rfl
@[simp] theorem State.setTodo_banks (s : State) (c : Ctx) (l : List Micro) : (s.setTodo c l).banks = s.banks := by cases c <;> rfl
@[simp] theorem State.setTodo_ctrl (s : State) (c : Ctx) (l : List Micro) : (s.setTodo c l).ctrl = s.ctrl := by cases c <;> rfl
@[simp] theorem State.setTodo_samples (s : State) (c : Ctx) (l : List Micro) : (s.setTodo c l).samples = s.samples := by cases c <;> rfl
@[simp] theorem State.setTodo_line (s : State) (c : Ctx) (l : List Micro) : (s.setTodo c l).line = s.line := by cases c <;> rfl
@[simp] theorem State.setTodo_draws (s : State) (c : Ctx) (l : List Micro) : (s.setTodo c l).draws = s.draws := by cases c <;> rfl
@[simp] theorem State.setTodo_trace (s : State) (c : Ctx) (l : List Micro) : (s.setTodo c l).trace = s.trace := by cases c <;> rfl
@[simp] theorem State.setTodo_inputs (s : State) (c : Ctx) (l : List Micro) : (s.setTodo c l).inputs = s.inputs := by cases c <;> rfl

/-! ## `setTmp` -/

@[simp] theorem State.setTmp_cfg (s : State) (c : Ctx) (w : Word) : (s.setTmp c w).cfg = s.cfg := by cases c <;> rfl
@[simp] theorem State.setTmp_platform (s : State) (c : Ctx) (w : Word) : (s.setTmp c w).platform = s.platform := by cases c <;> rfl
@[simp] theorem State.setTmp_active (s : State) (c : Ctx) (w : Word) : (s.setTmp c w).active = s.active := by cases c <;> rfl
@[simp] theorem State.setTmp_kind (s : State) (c : Ctx) (w : Word) : (s.setTmp c w).kind = s.kind := by cases c <;> rfl
@[simp] theorem State.setTmp_lock (s : State) (c : Ctx) (w : Word) : (s.setTmp c w).lock = s.lock := by cases c <;> rfl
@[simp] theorem State.setTmp_dmx (s : State) (c : Ctx) (w : Word) : (s.setTmp c w).dmx = s.dmx := by cases c <;> rfl
@[simp] theorem State.setTmp_walkCount (s : State) (c : Ctx) (w : Word) : (s.setTmp c w).walkCount = s.walkCount := by cases c <;> rfl
@[simp] theorem State.setTmp_walkFor (s : State) (c : Ctx) (w : Word) : (s.setTmp c w).walkFor = s.walkFor := by cases c <;> rfl
@[simp] theorem State.setTmp_ready (s : State) (c : Ctx) (w : Word) : (s.setTmp c w).ready = s.ready := by cases c <;> rfl
@[simp] theorem State.setTmp_banks (s : State) (c : Ctx) (w : Word) : (s.setTmp c w).banks = s.banks := by cases c <;> rfl
@[simp] theorem State.setTmp_ctrl (s : State) (c : Ctx) (w : Word) : (s.setTmp c w).ctrl = s.ctrl := by cases c <;> rfl
@[simp] theorem State.setTmp_samples (s : State) (c : Ctx) (w : Word) : (s.setTmp c w).samples = s.samples := by cases c <;> rfl
@[simp] theorem State.setTmp_line (s : State) (c : Ctx) (w : Word) : (s.setTmp c w).line = s.line := by cases c <;> rfl
@[simp] theorem State.setTmp_draws (s : State) (c : Ctx) (w : Word) : (s.setTmp c w).draws = s.draws := by cases c <;> rfl
@[simp] theorem State.setTmp_trace (s : State) (c : Ctx) (w : Word) : (s.setTmp c w).trace = s.trace := by cases c <;> rfl
@[simp] theorem State.setTmp_inputs (s : State) (c : Ctx) (w : Word) : (s.setTmp c w).inputs = s.inputs := by cases c <;> rfl

/-! ## `answer` -/

@[simp] theorem State.answer_cfg (s : State) (c : Ctx) (st : BitVec 4) (dat msk : Word) : (s.answer c st dat msk).cfg = s.cfg := by cases c <;> rfl
@[simp] theorem State.answer_platform (s : State) (c : Ctx) (st : BitVec 4) (dat msk : Word) : (s.answer c st dat msk).platform = s.platform := by cases c <;> rfl
@[simp] theorem State.answer_active (s : State) (c : Ctx) (st : BitVec 4) (dat msk : Word) : (s.answer c st dat msk).active = s.active := by cases c <;> rfl
@[simp] theorem State.answer_kind (s : State) (c : Ctx) (st : BitVec 4) (dat msk : Word) : (s.answer c st dat msk).kind = s.kind := by cases c <;> rfl
@[simp] theorem State.answer_lock (s : State) (c : Ctx) (st : BitVec 4) (dat msk : Word) : (s.answer c st dat msk).lock = s.lock := by cases c <;> rfl
@[simp] theorem State.answer_dmx (s : State) (c : Ctx) (st : BitVec 4) (dat msk : Word) : (s.answer c st dat msk).dmx = s.dmx := by cases c <;> rfl
@[simp] theorem State.answer_walkCount (s : State) (c : Ctx) (st : BitVec 4) (dat msk : Word) : (s.answer c st dat msk).walkCount = s.walkCount := by cases c <;> rfl
@[simp] theorem State.answer_walkFor (s : State) (c : Ctx) (st : BitVec 4) (dat msk : Word) : (s.answer c st dat msk).walkFor = s.walkFor := by cases c <;> rfl
@[simp] theorem State.answer_ready (s : State) (c : Ctx) (st : BitVec 4) (dat msk : Word) : (s.answer c st dat msk).ready = s.ready := by cases c <;> rfl
@[simp] theorem State.answer_banks (s : State) (c : Ctx) (st : BitVec 4) (dat msk : Word) : (s.answer c st dat msk).banks = s.banks := by cases c <;> rfl
@[simp] theorem State.answer_ctrl (s : State) (c : Ctx) (st : BitVec 4) (dat msk : Word) : (s.answer c st dat msk).ctrl = s.ctrl := by cases c <;> rfl
@[simp] theorem State.answer_samples (s : State) (c : Ctx) (st : BitVec 4) (dat msk : Word) : (s.answer c st dat msk).samples = s.samples := by cases c <;> rfl
@[simp] theorem State.answer_line (s : State) (c : Ctx) (st : BitVec 4) (dat msk : Word) : (s.answer c st dat msk).line = s.line := by cases c <;> rfl
@[simp] theorem State.answer_draws (s : State) (c : Ctx) (st : BitVec 4) (dat msk : Word) : (s.answer c st dat msk).draws = s.draws := by cases c <;> rfl
@[simp] theorem State.answer_trace (s : State) (c : Ctx) (st : BitVec 4) (dat msk : Word) : (s.answer c st dat msk).trace = s.trace := by cases c <;> rfl
@[simp] theorem State.answer_inputs (s : State) (c : Ctx) (st : BitVec 4) (dat msk : Word) : (s.answer c st dat msk).inputs = s.inputs := by cases c <;> rfl

/-! ## `raise` -/

@[simp] theorem State.raise_cfg (s : State) (c : Ctx) (k : Status) : (s.raise c k).cfg = s.cfg := by cases c <;> rfl
@[simp] theorem State.raise_platform (s : State) (c : Ctx) (k : Status) : (s.raise c k).platform = s.platform := by cases c <;> rfl
@[simp] theorem State.raise_active (s : State) (c : Ctx) (k : Status) : (s.raise c k).active = s.active := by cases c <;> rfl
@[simp] theorem State.raise_kind (s : State) (c : Ctx) (k : Status) : (s.raise c k).kind = s.kind := by cases c <;> rfl
@[simp] theorem State.raise_lock (s : State) (c : Ctx) (k : Status) : (s.raise c k).lock = s.lock := by cases c <;> rfl
@[simp] theorem State.raise_dmx (s : State) (c : Ctx) (k : Status) : (s.raise c k).dmx = s.dmx := by cases c <;> rfl
@[simp] theorem State.raise_walkCount (s : State) (c : Ctx) (k : Status) : (s.raise c k).walkCount = s.walkCount := by cases c <;> rfl
@[simp] theorem State.raise_walkFor (s : State) (c : Ctx) (k : Status) : (s.raise c k).walkFor = s.walkFor := by cases c <;> rfl
@[simp] theorem State.raise_ready (s : State) (c : Ctx) (k : Status) : (s.raise c k).ready = s.ready := by cases c <;> rfl
@[simp] theorem State.raise_banks (s : State) (c : Ctx) (k : Status) : (s.raise c k).banks = s.banks := by cases c <;> rfl
@[simp] theorem State.raise_ctrl (s : State) (c : Ctx) (k : Status) : (s.raise c k).ctrl = s.ctrl := by cases c <;> rfl
@[simp] theorem State.raise_samples (s : State) (c : Ctx) (k : Status) : (s.raise c k).samples = s.samples := by cases c <;> rfl
@[simp] theorem State.raise_line (s : State) (c : Ctx) (k : Status) : (s.raise c k).line = s.line := by cases c <;> rfl
@[simp] theorem State.raise_draws (s : State) (c : Ctx) (k : Status) : (s.raise c k).draws = s.draws := by cases c <;> rfl
@[simp] theorem State.raise_trace (s : State) (c : Ctx) (k : Status) : (s.raise c k).trace = s.trace := by cases c <;> rfl
@[simp] theorem State.raise_inputs (s : State) (c : Ctx) (k : Status) : (s.raise c k).inputs = s.inputs := by cases c <;> rfl

/-! ## `accept` -/

@[simp] theorem State.accept_cfg (s : State) (c : Ctx) (w : Word) : (s.accept c w).cfg = s.cfg := by cases c <;> rfl
@[simp] theorem State.accept_platform (s : State) (c : Ctx) (w : Word) : (s.accept c w).platform = s.platform := by cases c <;> rfl
@[simp] theorem State.accept_kind (s : State) (c : Ctx) (w : Word) : (s.accept c w).kind = s.kind := by cases c <;> rfl
@[simp] theorem State.accept_lock (s : State) (c : Ctx) (w : Word) : (s.accept c w).lock = s.lock := by cases c <;> rfl
@[simp] theorem State.accept_dmx (s : State) (c : Ctx) (w : Word) : (s.accept c w).dmx = s.dmx := by cases c <;> rfl
@[simp] theorem State.accept_walkCount (s : State) (c : Ctx) (w : Word) : (s.accept c w).walkCount = s.walkCount := by cases c <;> rfl
@[simp] theorem State.accept_walkFor (s : State) (c : Ctx) (w : Word) : (s.accept c w).walkFor = s.walkFor := by cases c <;> rfl
@[simp] theorem State.accept_ready (s : State) (c : Ctx) (w : Word) : (s.accept c w).ready = s.ready := by cases c <;> rfl
@[simp] theorem State.accept_banks (s : State) (c : Ctx) (w : Word) : (s.accept c w).banks = s.banks := by cases c <;> rfl
@[simp] theorem State.accept_ctrl (s : State) (c : Ctx) (w : Word) : (s.accept c w).ctrl = s.ctrl := by cases c <;> rfl
@[simp] theorem State.accept_samples (s : State) (c : Ctx) (w : Word) : (s.accept c w).samples = s.samples := by cases c <;> rfl
@[simp] theorem State.accept_line (s : State) (c : Ctx) (w : Word) : (s.accept c w).line = s.line := by cases c <;> rfl
@[simp] theorem State.accept_draws (s : State) (c : Ctx) (w : Word) : (s.accept c w).draws = s.draws := by cases c <;> rfl
@[simp] theorem State.accept_trace (s : State) (c : Ctx) (w : Word) : (s.accept c w).trace = s.trace := by cases c <;> rfl
@[simp] theorem State.accept_inputs (s : State) (c : Ctx) (w : Word) : (s.accept c w).inputs = s.inputs := by cases c <;> rfl

/-! ## `log` -/

@[simp] theorem State.log_cfg (s : State) (e : Event) : (s.log e).cfg = s.cfg := rfl
@[simp] theorem State.log_platform (s : State) (e : Event) : (s.log e).platform = s.platform := rfl
@[simp] theorem State.log_normals (s : State) (e : Event) : (s.log e).normals = s.normals := rfl
@[simp] theorem State.log_interrupt (s : State) (e : Event) : (s.log e).interrupt = s.interrupt := rfl
@[simp] theorem State.log_active (s : State) (e : Event) : (s.log e).active = s.active := rfl
@[simp] theorem State.log_kind (s : State) (e : Event) : (s.log e).kind = s.kind := rfl
@[simp] theorem State.log_lock (s : State) (e : Event) : (s.log e).lock = s.lock := rfl
@[simp] theorem State.log_dmx (s : State) (e : Event) : (s.log e).dmx = s.dmx := rfl
@[simp] theorem State.log_walkCount (s : State) (e : Event) : (s.log e).walkCount = s.walkCount := rfl
@[simp] theorem State.log_walkFor (s : State) (e : Event) : (s.log e).walkFor = s.walkFor := rfl
@[simp] theorem State.log_ready (s : State) (e : Event) : (s.log e).ready = s.ready := rfl
@[simp] theorem State.log_banks (s : State) (e : Event) : (s.log e).banks = s.banks := rfl
@[simp] theorem State.log_ctrl (s : State) (e : Event) : (s.log e).ctrl = s.ctrl := rfl
@[simp] theorem State.log_samples (s : State) (e : Event) : (s.log e).samples = s.samples := rfl
@[simp] theorem State.log_line (s : State) (e : Event) : (s.log e).line = s.line := rfl
@[simp] theorem State.log_draws (s : State) (e : Event) : (s.log e).draws = s.draws := rfl
@[simp] theorem State.log_inputs (s : State) (e : Event) : (s.log e).inputs = s.inputs := rfl

/-! ## `putReg` -/

@[simp] theorem State.putReg_cfg (s : State) (b : Nat) (r : Role) (w : Word) : (s.putReg b r w).cfg = s.cfg := rfl
@[simp] theorem State.putReg_platform (s : State) (b : Nat) (r : Role) (w : Word) : (s.putReg b r w).platform = s.platform := rfl
@[simp] theorem State.putReg_normals (s : State) (b : Nat) (r : Role) (w : Word) : (s.putReg b r w).normals = s.normals := rfl
@[simp] theorem State.putReg_interrupt (s : State) (b : Nat) (r : Role) (w : Word) : (s.putReg b r w).interrupt = s.interrupt := rfl
@[simp] theorem State.putReg_active (s : State) (b : Nat) (r : Role) (w : Word) : (s.putReg b r w).active = s.active := rfl
@[simp] theorem State.putReg_kind (s : State) (b : Nat) (r : Role) (w : Word) : (s.putReg b r w).kind = s.kind := rfl
@[simp] theorem State.putReg_lock (s : State) (b : Nat) (r : Role) (w : Word) : (s.putReg b r w).lock = s.lock := rfl
@[simp] theorem State.putReg_dmx (s : State) (b : Nat) (r : Role) (w : Word) : (s.putReg b r w).dmx = s.dmx := rfl
@[simp] theorem State.putReg_walkCount (s : State) (b : Nat) (r : Role) (w : Word) : (s.putReg b r w).walkCount = s.walkCount := rfl
@[simp] theorem State.putReg_walkFor (s : State) (b : Nat) (r : Role) (w : Word) : (s.putReg b r w).walkFor = s.walkFor := rfl
@[simp] theorem State.putReg_ready (s : State) (b : Nat) (r : Role) (w : Word) : (s.putReg b r w).ready = s.ready := rfl
@[simp] theorem State.putReg_ctrl (s : State) (b : Nat) (r : Role) (w : Word) : (s.putReg b r w).ctrl = s.ctrl := rfl
@[simp] theorem State.putReg_samples (s : State) (b : Nat) (r : Role) (w : Word) : (s.putReg b r w).samples = s.samples := rfl
@[simp] theorem State.putReg_line (s : State) (b : Nat) (r : Role) (w : Word) : (s.putReg b r w).line = s.line := rfl
@[simp] theorem State.putReg_draws (s : State) (b : Nat) (r : Role) (w : Word) : (s.putReg b r w).draws = s.draws := rfl
@[simp] theorem State.putReg_trace (s : State) (b : Nat) (r : Role) (w : Word) : (s.putReg b r w).trace = s.trace := rfl
@[simp] theorem State.putReg_inputs (s : State) (b : Nat) (r : Role) (w : Word) : (s.putReg b r w).inputs = s.inputs := rfl

/-! ## `releaseLock` -/

@[simp] theorem State.releaseLock_cfg (s : State) : (s.releaseLock).cfg = s.cfg := rfl
@[simp] theorem State.releaseLock_platform (s : State) : (s.releaseLock).platform = s.platform := rfl
@[simp] theorem State.releaseLock_normals (s : State) : (s.releaseLock).normals = s.normals := rfl
@[simp] theorem State.releaseLock_interrupt (s : State) : (s.releaseLock).interrupt = s.interrupt := rfl
@[simp] theorem State.releaseLock_active (s : State) : (s.releaseLock).active = s.active := rfl
@[simp] theorem State.releaseLock_kind (s : State) : (s.releaseLock).kind = s.kind := rfl
@[simp] theorem State.releaseLock_dmx (s : State) : (s.releaseLock).dmx = s.dmx := rfl
@[simp] theorem State.releaseLock_walkCount (s : State) : (s.releaseLock).walkCount = s.walkCount := rfl
@[simp] theorem State.releaseLock_walkFor (s : State) : (s.releaseLock).walkFor = s.walkFor := rfl
@[simp] theorem State.releaseLock_ready (s : State) : (s.releaseLock).ready = s.ready := rfl
@[simp] theorem State.releaseLock_banks (s : State) : (s.releaseLock).banks = s.banks := rfl
@[simp] theorem State.releaseLock_ctrl (s : State) : (s.releaseLock).ctrl = s.ctrl := rfl
@[simp] theorem State.releaseLock_samples (s : State) : (s.releaseLock).samples = s.samples := rfl
@[simp] theorem State.releaseLock_line (s : State) : (s.releaseLock).line = s.line := rfl
@[simp] theorem State.releaseLock_draws (s : State) : (s.releaseLock).draws = s.draws := rfl
@[simp] theorem State.releaseLock_trace (s : State) : (s.releaseLock).trace = s.trace := rfl
@[simp] theorem State.releaseLock_inputs (s : State) : (s.releaseLock).inputs = s.inputs := rfl

/-! ## `takeLock` -/

@[simp] theorem State.takeLock_cfg (s : State) (c : Ctx) : (s.takeLock c).cfg = s.cfg := rfl
@[simp] theorem State.takeLock_platform (s : State) (c : Ctx) : (s.takeLock c).platform = s.platform := rfl
@[simp] theorem State.takeLock_normals (s : State) (c : Ctx) : (s.takeLock c).normals = s.normals := rfl
@[simp] theorem State.takeLock_interrupt (s : State) (c : Ctx) : (s.takeLock c).interrupt = s.interrupt := rfl
@[simp] theorem State.takeLock_active (s : State) (c : Ctx) : (s.takeLock c).active = s.active := rfl
@[simp] theorem State.takeLock_kind (s : State) (c : Ctx) : (s.takeLock c).kind = s.kind := rfl
@[simp] theorem State.takeLock_dmx (s : State) (c : Ctx) : (s.takeLock c).dmx = s.dmx := rfl
@[simp] theorem State.takeLock_walkCount (s : State) (c : Ctx) : (s.takeLock c).walkCount = s.walkCount := rfl
@[simp] theorem State.takeLock_walkFor (s : State) (c : Ctx) : (s.takeLock c).walkFor = s.walkFor := rfl
@[simp] theorem State.takeLock_ready (s : State) (c : Ctx) : (s.takeLock c).ready = s.ready := rfl
@[simp] theorem State.takeLock_banks (s : State) (c : Ctx) : (s.takeLock c).banks = s.banks := rfl
@[simp] theorem State.takeLock_ctrl (s : State) (c : Ctx) : (s.takeLock c).ctrl = s.ctrl := rfl
@[simp] theorem State.takeLock_samples (s : State) (c : Ctx) : (s.takeLock c).samples = s.samples := rfl
@[simp] theorem State.takeLock_line (s : State) (c : Ctx) : (s.takeLock c).line = s.line := rfl
@[simp] theorem State.takeLock_draws (s : State) (c : Ctx) : (s.takeLock c).draws = s.draws := rfl
@[simp] theorem State.takeLock_trace (s : State) (c : Ctx) : (s.takeLock c).trace = s.trace := rfl
@[simp] theorem State.takeLock_inputs (s : State) (c : Ctx) : (s.takeLock c).inputs = s.inputs := rfl

/-! ## `setKind` -/

@[simp] theorem State.setKind_cfg (s : State) (p : Nat) (k : Kind) : (s.setKind p k).cfg = s.cfg := rfl
@[simp] theorem State.setKind_platform (s : State) (p : Nat) (k : Kind) : (s.setKind p k).platform = s.platform := rfl
@[simp] theorem State.setKind_normals (s : State) (p : Nat) (k : Kind) : (s.setKind p k).normals = s.normals := rfl
@[simp] theorem State.setKind_interrupt (s : State) (p : Nat) (k : Kind) : (s.setKind p k).interrupt = s.interrupt := rfl
@[simp] theorem State.setKind_active (s : State) (p : Nat) (k : Kind) : (s.setKind p k).active = s.active := rfl
@[simp] theorem State.setKind_lock (s : State) (p : Nat) (k : Kind) : (s.setKind p k).lock = s.lock := rfl
@[simp] theorem State.setKind_dmx (s : State) (p : Nat) (k : Kind) : (s.setKind p k).dmx = s.dmx := rfl
@[simp] theorem State.setKind_walkCount (s : State) (p : Nat) (k : Kind) : (s.setKind p k).walkCount = s.walkCount := rfl
@[simp] theorem State.setKind_walkFor (s : State) (p : Nat) (k : Kind) : (s.setKind p k).walkFor = s.walkFor := rfl
@[simp] theorem State.setKind_ready (s : State) (p : Nat) (k : Kind) : (s.setKind p k).ready = s.ready := rfl
@[simp] theorem State.setKind_banks (s : State) (p : Nat) (k : Kind) : (s.setKind p k).banks = s.banks := rfl
@[simp] theorem State.setKind_ctrl (s : State) (p : Nat) (k : Kind) : (s.setKind p k).ctrl = s.ctrl := rfl
@[simp] theorem State.setKind_samples (s : State) (p : Nat) (k : Kind) : (s.setKind p k).samples = s.samples := rfl
@[simp] theorem State.setKind_line (s : State) (p : Nat) (k : Kind) : (s.setKind p k).line = s.line := rfl
@[simp] theorem State.setKind_draws (s : State) (p : Nat) (k : Kind) : (s.setKind p k).draws = s.draws := rfl
@[simp] theorem State.setKind_trace (s : State) (p : Nat) (k : Kind) : (s.setKind p k).trace = s.trace := rfl
@[simp] theorem State.setKind_inputs (s : State) (p : Nat) (k : Kind) : (s.setKind p k).inputs = s.inputs := rfl

/-! ## `makeReady` -/

@[simp] theorem State.makeReady_cfg (s : State) : (s.makeReady).cfg = s.cfg := rfl
@[simp] theorem State.makeReady_platform (s : State) : (s.makeReady).platform = s.platform := rfl
@[simp] theorem State.makeReady_normals (s : State) : (s.makeReady).normals = s.normals := rfl
@[simp] theorem State.makeReady_interrupt (s : State) : (s.makeReady).interrupt = s.interrupt := rfl
@[simp] theorem State.makeReady_active (s : State) : (s.makeReady).active = s.active := rfl
@[simp] theorem State.makeReady_kind (s : State) : (s.makeReady).kind = s.kind := rfl
@[simp] theorem State.makeReady_lock (s : State) : (s.makeReady).lock = s.lock := rfl
@[simp] theorem State.makeReady_dmx (s : State) : (s.makeReady).dmx = s.dmx := rfl
@[simp] theorem State.makeReady_walkCount (s : State) : (s.makeReady).walkCount = s.walkCount := rfl
@[simp] theorem State.makeReady_walkFor (s : State) : (s.makeReady).walkFor = s.walkFor := rfl
@[simp] theorem State.makeReady_banks (s : State) : (s.makeReady).banks = s.banks := rfl
@[simp] theorem State.makeReady_ctrl (s : State) : (s.makeReady).ctrl = s.ctrl := rfl
@[simp] theorem State.makeReady_samples (s : State) : (s.makeReady).samples = s.samples := rfl
@[simp] theorem State.makeReady_line (s : State) : (s.makeReady).line = s.line := rfl
@[simp] theorem State.makeReady_draws (s : State) : (s.makeReady).draws = s.draws := rfl
@[simp] theorem State.makeReady_trace (s : State) : (s.makeReady).trace = s.trace := rfl
@[simp] theorem State.makeReady_inputs (s : State) : (s.makeReady).inputs = s.inputs := rfl

/-! ## `countDraw` -/

@[simp] theorem State.countDraw_cfg (s : State) : (s.countDraw).cfg = s.cfg := rfl
@[simp] theorem State.countDraw_platform (s : State) : (s.countDraw).platform = s.platform := rfl
@[simp] theorem State.countDraw_normals (s : State) : (s.countDraw).normals = s.normals := rfl
@[simp] theorem State.countDraw_interrupt (s : State) : (s.countDraw).interrupt = s.interrupt := rfl
@[simp] theorem State.countDraw_active (s : State) : (s.countDraw).active = s.active := rfl
@[simp] theorem State.countDraw_kind (s : State) : (s.countDraw).kind = s.kind := rfl
@[simp] theorem State.countDraw_lock (s : State) : (s.countDraw).lock = s.lock := rfl
@[simp] theorem State.countDraw_dmx (s : State) : (s.countDraw).dmx = s.dmx := rfl
@[simp] theorem State.countDraw_walkCount (s : State) : (s.countDraw).walkCount = s.walkCount := rfl
@[simp] theorem State.countDraw_walkFor (s : State) : (s.countDraw).walkFor = s.walkFor := rfl
@[simp] theorem State.countDraw_ready (s : State) : (s.countDraw).ready = s.ready := rfl
@[simp] theorem State.countDraw_banks (s : State) : (s.countDraw).banks = s.banks := rfl
@[simp] theorem State.countDraw_ctrl (s : State) : (s.countDraw).ctrl = s.ctrl := rfl
@[simp] theorem State.countDraw_samples (s : State) : (s.countDraw).samples = s.samples := rfl
@[simp] theorem State.countDraw_line (s : State) : (s.countDraw).line = s.line := rfl
@[simp] theorem State.countDraw_trace (s : State) : (s.countDraw).trace = s.trace := rfl
@[simp] theorem State.countDraw_inputs (s : State) : (s.countDraw).inputs = s.inputs := rfl

/-! ## `resample` -/

@[simp] theorem State.resample_cfg (s : State) (b : Nat) (f : Sample → Sample) : (s.resample b f).cfg = s.cfg := rfl
@[simp] theorem State.resample_platform (s : State) (b : Nat) (f : Sample → Sample) : (s.resample b f).platform = s.platform := rfl
@[simp] theorem State.resample_normals (s : State) (b : Nat) (f : Sample → Sample) : (s.resample b f).normals = s.normals := rfl
@[simp] theorem State.resample_interrupt (s : State) (b : Nat) (f : Sample → Sample) : (s.resample b f).interrupt = s.interrupt := rfl
@[simp] theorem State.resample_active (s : State) (b : Nat) (f : Sample → Sample) : (s.resample b f).active = s.active := rfl
@[simp] theorem State.resample_kind (s : State) (b : Nat) (f : Sample → Sample) : (s.resample b f).kind = s.kind := rfl
@[simp] theorem State.resample_lock (s : State) (b : Nat) (f : Sample → Sample) : (s.resample b f).lock = s.lock := rfl
@[simp] theorem State.resample_dmx (s : State) (b : Nat) (f : Sample → Sample) : (s.resample b f).dmx = s.dmx := rfl
@[simp] theorem State.resample_walkCount (s : State) (b : Nat) (f : Sample → Sample) : (s.resample b f).walkCount = s.walkCount := rfl
@[simp] theorem State.resample_walkFor (s : State) (b : Nat) (f : Sample → Sample) : (s.resample b f).walkFor = s.walkFor := rfl
@[simp] theorem State.resample_ready (s : State) (b : Nat) (f : Sample → Sample) : (s.resample b f).ready = s.ready := rfl
@[simp] theorem State.resample_banks (s : State) (b : Nat) (f : Sample → Sample) : (s.resample b f).banks = s.banks := rfl
@[simp] theorem State.resample_ctrl (s : State) (b : Nat) (f : Sample → Sample) : (s.resample b f).ctrl = s.ctrl := rfl
@[simp] theorem State.resample_line (s : State) (b : Nat) (f : Sample → Sample) : (s.resample b f).line = s.line := rfl
@[simp] theorem State.resample_draws (s : State) (b : Nat) (f : Sample → Sample) : (s.resample b f).draws = s.draws := rfl
@[simp] theorem State.resample_trace (s : State) (b : Nat) (f : Sample → Sample) : (s.resample b f).trace = s.trace := rfl
@[simp] theorem State.resample_inputs (s : State) (b : Nat) (f : Sample → Sample) : (s.resample b f).inputs = s.inputs := rfl

@[simp] theorem State.resample_samples (s : State) (b : Nat) (f : Sample → Sample) : (s.resample b f).samples = s.samples.modify b f := rfl
@[simp] theorem State.accept_active (s : State) (c : Ctx) (w : Word) : (s.accept c w).active = c := by cases c <;> rfl
@[simp] theorem State.log_trace (s : State) (e : Event) : (s.log e).trace = e :: s.trace := rfl
@[simp] theorem State.takeLock_lock (s : State) (c : Ctx) : (s.takeLock c).lock = .held c := rfl
@[simp] theorem State.setKind_kind (s : State) (p : Nat) (k : Kind) : (s.setKind p k).kind = s.kind.set p k := rfl
@[simp] theorem State.makeReady_ready (s : State) : s.makeReady.ready = true := rfl
@[simp] theorem State.countDraw_draws (s : State) : s.countDraw.draws = s.draws + 1 := rfl
@[simp] theorem State.releaseLock_lock (s : State) : s.releaseLock.lock = .free := rfl
@[simp] theorem State.putReg_banks (s : State) (b : Nat) (r : Role) (w : Word) :
    (s.putReg b r w).banks = s.banks.modify b fun k => k.put r w := rfl

/-! ## The contexts -/

theorem requester_put_self (l : List Context) (k : Nat) (x : Context) : requester (putRequester l k x) k = x := by
  have : k < l.length + (k + 1 - l.length) := by omega
  simp [requester, putRequester, this]

theorem requester_put_ne (l : List Context) {k j : Nat} (h : j ≠ k) (x : Context) :
    requester (putRequester l k x) j = requester l j := by
  by_cases hj : j < l.length
  · simp [requester, putRequester, Ne.symm h, List.getElem?_append, hj]
  · by_cases hk : j - l.length < k + 1 - l.length
    · simp [requester, putRequester, Ne.symm h, List.getElem?_append, hj, hk,Nat.add_sub_cancel' (Nat.le_of_not_lt hj)]
    · simp [requester, putRequester, Ne.symm h, List.getElem?_append, hj, hk]

theorem putRequester_put (l : List Context) (k : Nat) (x y : Context) :
    putRequester (putRequester l k x) k y = putRequester l k y := by
  have : k + 1 - (l.length + (k + 1 - l.length)) = 0 := by omega
  simp [putRequester, this]
@[simp] theorem State.setCtx_ctx_self (s : State) (c : Ctx) (x : Context) : (s.setCtx c x).ctx c = x := by
  cases c
  · exact requester_put_self _ _ _
  · rfl
theorem State.setCtx_ctx_ne (s : State) {c d : Ctx} (h : d ≠ c) (x : Context) : (s.setCtx c x).ctx d = s.ctx d := by
  cases c <;> cases d
  · exact requester_put_ne _ (fun e => h (congrArg Ctx.normal e)) x
  · rfl
  · rfl
  · exact absurd rfl h
@[simp] theorem State.setCtx_setCtx (s : State) (c : Ctx) (x y : Context) : (s.setCtx c x).setCtx c y = s.setCtx c y := by
  cases c
  · simp only [State.setCtx, putRequester_put]
  · rfl

theorem State.accept_ctx (s : State) (c d : Ctx) (w : Word) : (s.accept c w).ctx d = (s.setCtx c { s.ctx c with cmd := w }).ctx d := by
  cases d <;> rfl
/-- An answer leaves nothing in progress where nothing was. -/
theorem State.answer_ended {s : State} {c : Ctx} (h : (s.ctx c).todo = []) (st : BitVec 4) (dat msk : Word) :
    (s.answer c st dat msk).setTodo c [] = s.answer c st dat msk := by
  simp [State.setTodo, State.answer, h]


@[simp] theorem State.setTodo_ctx_cmd (s : State) (c : Ctx) (l : List Micro) : ((s.setTodo c l).ctx c).cmd = (s.ctx c).cmd := by simp [State.setTodo]
@[simp] theorem State.setTodo_ctx_op0 (s : State) (c : Ctx) (l : List Micro) : ((s.setTodo c l).ctx c).op0 = (s.ctx c).op0 := by simp [State.setTodo]
@[simp] theorem State.setTodo_ctx_op1 (s : State) (c : Ctx) (l : List Micro) : ((s.setTodo c l).ctx c).op1 = (s.ctx c).op1 := by simp [State.setTodo]
@[simp] theorem State.setTodo_ctx_resp (s : State) (c : Ctx) (l : List Micro) : ((s.setTodo c l).ctx c).resp = (s.ctx c).resp := by simp [State.setTodo]
@[simp] theorem State.setTodo_ctx_todo (s : State) (c : Ctx) (l : List Micro) : ((s.setTodo c l).ctx c).todo = l := by simp [State.setTodo]
@[simp] theorem State.setTodo_ctx_tmp (s : State) (c : Ctx) (l : List Micro) : ((s.setTodo c l).ctx c).tmp = (s.ctx c).tmp := by simp [State.setTodo]
theorem State.setTodo_ctx_ne (s : State) {c d : Ctx} (h : d ≠ c) (l : List Micro) : (s.setTodo c l).ctx d = s.ctx d :=
  State.setCtx_ctx_ne s h _

@[simp] theorem State.setTmp_ctx_cmd (s : State) (c : Ctx) (w : Word) : ((s.setTmp c w).ctx c).cmd = (s.ctx c).cmd := by simp [State.setTmp]
@[simp] theorem State.setTmp_ctx_op0 (s : State) (c : Ctx) (w : Word) : ((s.setTmp c w).ctx c).op0 = (s.ctx c).op0 := by simp [State.setTmp]
@[simp] theorem State.setTmp_ctx_op1 (s : State) (c : Ctx) (w : Word) : ((s.setTmp c w).ctx c).op1 = (s.ctx c).op1 := by simp [State.setTmp]
@[simp] theorem State.setTmp_ctx_resp (s : State) (c : Ctx) (w : Word) : ((s.setTmp c w).ctx c).resp = (s.ctx c).resp := by simp [State.setTmp]
@[simp] theorem State.setTmp_ctx_todo (s : State) (c : Ctx) (w : Word) : ((s.setTmp c w).ctx c).todo = (s.ctx c).todo := by simp [State.setTmp]
@[simp] theorem State.setTmp_ctx_tmp (s : State) (c : Ctx) (w : Word) : ((s.setTmp c w).ctx c).tmp = w := by simp [State.setTmp]
theorem State.setTmp_ctx_ne (s : State) {c d : Ctx} (h : d ≠ c) (w : Word) : (s.setTmp c w).ctx d = s.ctx d :=
  State.setCtx_ctx_ne s h _

@[simp] theorem State.answer_ctx_cmd (s : State) (c : Ctx) (st : BitVec 4) (dat msk : Word) : ((s.answer c st dat msk).ctx c).cmd = (s.ctx c).cmd := by simp [State.answer]
@[simp] theorem State.answer_ctx_op0 (s : State) (c : Ctx) (st : BitVec 4) (dat msk : Word) : ((s.answer c st dat msk).ctx c).op0 = (s.ctx c).op0 := by simp [State.answer]
@[simp] theorem State.answer_ctx_op1 (s : State) (c : Ctx) (st : BitVec 4) (dat msk : Word) : ((s.answer c st dat msk).ctx c).op1 = (s.ctx c).op1 := by simp [State.answer]
@[simp] theorem State.answer_ctx_resp (s : State) (c : Ctx) (st : BitVec 4) (dat msk : Word) : ((s.answer c st dat msk).ctx c).resp = { status := st, data := dat, mask := msk } := by simp [State.answer]
@[simp] theorem State.answer_ctx_todo (s : State) (c : Ctx) (st : BitVec 4) (dat msk : Word) : ((s.answer c st dat msk).ctx c).todo = (s.ctx c).todo := by simp [State.answer]
@[simp] theorem State.answer_ctx_tmp (s : State) (c : Ctx) (st : BitVec 4) (dat msk : Word) : ((s.answer c st dat msk).ctx c).tmp = (s.ctx c).tmp := by simp [State.answer]
theorem State.answer_ctx_ne (s : State) {c d : Ctx} (h : d ≠ c) (st : BitVec 4) (dat msk : Word) : (s.answer c st dat msk).ctx d = s.ctx d :=
  State.setCtx_ctx_ne s h _

@[simp] theorem State.raise_ctx_cmd (s : State) (c : Ctx) (k : Status) : ((s.raise c k).ctx c).cmd = (s.ctx c).cmd := by simp [State.raise]
@[simp] theorem State.raise_ctx_op0 (s : State) (c : Ctx) (k : Status) : ((s.raise c k).ctx c).op0 = (s.ctx c).op0 := by simp [State.raise]
@[simp] theorem State.raise_ctx_op1 (s : State) (c : Ctx) (k : Status) : ((s.raise c k).ctx c).op1 = (s.ctx c).op1 := by simp [State.raise]
@[simp] theorem State.raise_ctx_resp (s : State) (c : Ctx) (k : Status) : ((s.raise c k).ctx c).resp = { status := statusCode k, data := 0#32, mask := 0#32 } := by simp [State.raise]
@[simp] theorem State.raise_ctx_todo (s : State) (c : Ctx) (k : Status) : ((s.raise c k).ctx c).todo = (s.ctx c).todo := by simp [State.raise]
@[simp] theorem State.raise_ctx_tmp (s : State) (c : Ctx) (k : Status) : ((s.raise c k).ctx c).tmp = (s.ctx c).tmp := by simp [State.raise]
theorem State.raise_ctx_ne (s : State) {c d : Ctx} (h : d ≠ c) (k : Status) : (s.raise c k).ctx d = s.ctx d :=
  State.setCtx_ctx_ne s h _

@[simp] theorem State.accept_ctx_cmd (s : State) (c : Ctx) (w : Word) : ((s.accept c w).ctx c).cmd = w := by rw [State.accept_ctx, State.setCtx_ctx_self]
@[simp] theorem State.accept_ctx_op0 (s : State) (c : Ctx) (w : Word) : ((s.accept c w).ctx c).op0 = (s.ctx c).op0 := by rw [State.accept_ctx, State.setCtx_ctx_self]
@[simp] theorem State.accept_ctx_op1 (s : State) (c : Ctx) (w : Word) : ((s.accept c w).ctx c).op1 = (s.ctx c).op1 := by rw [State.accept_ctx, State.setCtx_ctx_self]
@[simp] theorem State.accept_ctx_resp (s : State) (c : Ctx) (w : Word) : ((s.accept c w).ctx c).resp = (s.ctx c).resp := by rw [State.accept_ctx, State.setCtx_ctx_self]
@[simp] theorem State.accept_ctx_todo (s : State) (c : Ctx) (w : Word) : ((s.accept c w).ctx c).todo = (s.ctx c).todo := by rw [State.accept_ctx, State.setCtx_ctx_self]
@[simp] theorem State.accept_ctx_tmp (s : State) (c : Ctx) (w : Word) : ((s.accept c w).ctx c).tmp = (s.ctx c).tmp := by rw [State.accept_ctx, State.setCtx_ctx_self]
theorem State.accept_ctx_ne (s : State) {c d : Ctx} (h : d ≠ c) (w : Word) : (s.accept c w).ctx d = s.ctx d :=
  (State.accept_ctx s c d w).trans (State.setCtx_ctx_ne s h _)

@[simp] theorem State.log_ctx (s : State) (e : Event) (n : Ctx) : (s.log e).ctx n = s.ctx n := by cases n <;> rfl
@[simp] theorem State.putReg_ctx (s : State) (b : Nat) (r : Role) (w : Word) (n : Ctx) : (s.putReg b r w).ctx n = s.ctx n := by cases n <;> rfl
@[simp] theorem State.releaseLock_ctx (s : State) (n : Ctx) : (s.releaseLock).ctx n = s.ctx n := by cases n <;> rfl
@[simp] theorem State.takeLock_ctx (s : State) (c : Ctx) (n : Ctx) : (s.takeLock c).ctx n = s.ctx n := by cases n <;> rfl
@[simp] theorem State.setKind_ctx (s : State) (p : Nat) (k : Kind) (n : Ctx) : (s.setKind p k).ctx n = s.ctx n := by cases n <;> rfl
@[simp] theorem State.makeReady_ctx (s : State) (n : Ctx) : (s.makeReady).ctx n = s.ctx n := by cases n <;> rfl
@[simp] theorem State.countDraw_ctx (s : State) (n : Ctx) : (s.countDraw).ctx n = s.ctx n := by cases n <;> rfl
@[simp] theorem State.resample_ctx (s : State) (b : Nat) (f : Sample → Sample) (n : Ctx) : (s.resample b f).ctx n = s.ctx n := by cases n <;> rfl

/-! ## What is read off the state -/

@[simp] theorem State.setCtx_reg (s : State) (c : Ctx) (x : Context) (n : Nat) (q : Role) : (s.setCtx c x).reg n q = s.reg n q := by cases c <;> rfl
@[simp] theorem State.setCtx_wordAt (s : State) (c : Ctx) (x : Context) (n : Nat) : (s.setCtx c x).wordAt n = s.wordAt n := by cases c <;> rfl
@[simp] theorem State.setCtx_level (s : State) (c : Ctx) (x : Context) (n : Nat) : (s.setCtx c x).level n = s.level n := by cases c <;> rfl
@[simp] theorem State.setCtx_handler (s : State) (c : Ctx) (x : Context) (n : Nat) : (s.setCtx c x).handler n = s.handler n := by cases c <;> rfl
@[simp] theorem State.setCtx_deliveryMasked (s : State) (c : Ctx) (x : Context) : (s.setCtx c x).deliveryMasked = s.deliveryMasked := by cases c <;> rfl
@[simp] theorem State.setCtx_dispatching (s : State) (c : Ctx) (x : Context) : (s.setCtx c x).dispatching = s.dispatching := by cases c <;> rfl
@[simp] theorem State.setTodo_reg (s : State) (c : Ctx) (l : List Micro) (n : Nat) (q : Role) : (s.setTodo c l).reg n q = s.reg n q := by cases c <;> rfl
@[simp] theorem State.setTodo_wordAt (s : State) (c : Ctx) (l : List Micro) (n : Nat) : (s.setTodo c l).wordAt n = s.wordAt n := by cases c <;> rfl
@[simp] theorem State.setTodo_level (s : State) (c : Ctx) (l : List Micro) (n : Nat) : (s.setTodo c l).level n = s.level n := by cases c <;> rfl
@[simp] theorem State.setTodo_handler (s : State) (c : Ctx) (l : List Micro) (n : Nat) : (s.setTodo c l).handler n = s.handler n := by cases c <;> rfl
@[simp] theorem State.setTodo_deliveryMasked (s : State) (c : Ctx) (l : List Micro) : (s.setTodo c l).deliveryMasked = s.deliveryMasked := by cases c <;> rfl
@[simp] theorem State.setTodo_dispatching (s : State) (c : Ctx) (l : List Micro) : (s.setTodo c l).dispatching = s.dispatching := by cases c <;> rfl
@[simp] theorem State.setTmp_reg (s : State) (c : Ctx) (w : Word) (n : Nat) (q : Role) : (s.setTmp c w).reg n q = s.reg n q := by cases c <;> rfl
@[simp] theorem State.setTmp_wordAt (s : State) (c : Ctx) (w : Word) (n : Nat) : (s.setTmp c w).wordAt n = s.wordAt n := by cases c <;> rfl
@[simp] theorem State.setTmp_level (s : State) (c : Ctx) (w : Word) (n : Nat) : (s.setTmp c w).level n = s.level n := by cases c <;> rfl
@[simp] theorem State.setTmp_handler (s : State) (c : Ctx) (w : Word) (n : Nat) : (s.setTmp c w).handler n = s.handler n := by cases c <;> rfl
@[simp] theorem State.setTmp_deliveryMasked (s : State) (c : Ctx) (w : Word) : (s.setTmp c w).deliveryMasked = s.deliveryMasked := by cases c <;> rfl
@[simp] theorem State.setTmp_dispatching (s : State) (c : Ctx) (w : Word) : (s.setTmp c w).dispatching = s.dispatching := by cases c <;> rfl
@[simp] theorem State.answer_reg (s : State) (c : Ctx) (st : BitVec 4) (dat msk : Word) (n : Nat) (q : Role) : (s.answer c st dat msk).reg n q = s.reg n q := by cases c <;> rfl
@[simp] theorem State.answer_wordAt (s : State) (c : Ctx) (st : BitVec 4) (dat msk : Word) (n : Nat) : (s.answer c st dat msk).wordAt n = s.wordAt n := by cases c <;> rfl
@[simp] theorem State.answer_level (s : State) (c : Ctx) (st : BitVec 4) (dat msk : Word) (n : Nat) : (s.answer c st dat msk).level n = s.level n := by cases c <;> rfl
@[simp] theorem State.answer_handler (s : State) (c : Ctx) (st : BitVec 4) (dat msk : Word) (n : Nat) : (s.answer c st dat msk).handler n = s.handler n := by cases c <;> rfl
@[simp] theorem State.answer_deliveryMasked (s : State) (c : Ctx) (st : BitVec 4) (dat msk : Word) : (s.answer c st dat msk).deliveryMasked = s.deliveryMasked := by cases c <;> rfl
@[simp] theorem State.answer_dispatching (s : State) (c : Ctx) (st : BitVec 4) (dat msk : Word) : (s.answer c st dat msk).dispatching = s.dispatching := by cases c <;> rfl
@[simp] theorem State.raise_reg (s : State) (c : Ctx) (k : Status) (n : Nat) (q : Role) : (s.raise c k).reg n q = s.reg n q := by cases c <;> rfl
@[simp] theorem State.raise_wordAt (s : State) (c : Ctx) (k : Status) (n : Nat) : (s.raise c k).wordAt n = s.wordAt n := by cases c <;> rfl
@[simp] theorem State.raise_level (s : State) (c : Ctx) (k : Status) (n : Nat) : (s.raise c k).level n = s.level n := by cases c <;> rfl
@[simp] theorem State.raise_handler (s : State) (c : Ctx) (k : Status) (n : Nat) : (s.raise c k).handler n = s.handler n := by cases c <;> rfl
@[simp] theorem State.raise_deliveryMasked (s : State) (c : Ctx) (k : Status) : (s.raise c k).deliveryMasked = s.deliveryMasked := by cases c <;> rfl
@[simp] theorem State.raise_dispatching (s : State) (c : Ctx) (k : Status) : (s.raise c k).dispatching = s.dispatching := by cases c <;> rfl
@[simp] theorem State.accept_reg (s : State) (c : Ctx) (w : Word) (n : Nat) (q : Role) : (s.accept c w).reg n q = s.reg n q := by cases c <;> rfl
@[simp] theorem State.accept_wordAt (s : State) (c : Ctx) (w : Word) (n : Nat) : (s.accept c w).wordAt n = s.wordAt n := by cases c <;> rfl
@[simp] theorem State.accept_level (s : State) (c : Ctx) (w : Word) (n : Nat) : (s.accept c w).level n = s.level n := by cases c <;> rfl
@[simp] theorem State.accept_handler (s : State) (c : Ctx) (w : Word) (n : Nat) : (s.accept c w).handler n = s.handler n := by cases c <;> rfl
@[simp] theorem State.accept_deliveryMasked (s : State) (c : Ctx) (w : Word) : (s.accept c w).deliveryMasked = s.deliveryMasked := by cases c <;> rfl
@[simp] theorem State.accept_dispatching (s : State) (c : Ctx) (w : Word) : (s.accept c w).dispatching = s.dispatching := by cases c <;> rfl
@[simp] theorem State.log_reg (s : State) (e : Event) (n : Nat) (q : Role) : (s.log e).reg n q = s.reg n q := rfl
@[simp] theorem State.log_wordAt (s : State) (e : Event) (n : Nat) : (s.log e).wordAt n = s.wordAt n := rfl
@[simp] theorem State.log_level (s : State) (e : Event) (n : Nat) : (s.log e).level n = s.level n := rfl
@[simp] theorem State.log_handler (s : State) (e : Event) (n : Nat) : (s.log e).handler n = s.handler n := rfl
@[simp] theorem State.log_deliveryMasked (s : State) (e : Event) : (s.log e).deliveryMasked = s.deliveryMasked := rfl
@[simp] theorem State.log_dispatching (s : State) (e : Event) : (s.log e).dispatching = s.dispatching := rfl
@[simp] theorem State.putReg_level (s : State) (b : Nat) (r : Role) (w : Word) (n : Nat) : (s.putReg b r w).level n = s.level n := rfl
@[simp] theorem State.putReg_handler (s : State) (b : Nat) (r : Role) (w : Word) (n : Nat) : (s.putReg b r w).handler n = s.handler n := rfl
@[simp] theorem State.putReg_deliveryMasked (s : State) (b : Nat) (r : Role) (w : Word) : (s.putReg b r w).deliveryMasked = s.deliveryMasked := rfl
@[simp] theorem State.putReg_dispatching (s : State) (b : Nat) (r : Role) (w : Word) : (s.putReg b r w).dispatching = s.dispatching := rfl
@[simp] theorem State.releaseLock_reg (s : State) (n : Nat) (q : Role) : (s.releaseLock).reg n q = s.reg n q := rfl
@[simp] theorem State.releaseLock_wordAt (s : State) (n : Nat) : (s.releaseLock).wordAt n = s.wordAt n := rfl
@[simp] theorem State.releaseLock_level (s : State) (n : Nat) : (s.releaseLock).level n = s.level n := rfl
@[simp] theorem State.releaseLock_handler (s : State) (n : Nat) : (s.releaseLock).handler n = s.handler n := rfl
@[simp] theorem State.releaseLock_dispatching (s : State) : (s.releaseLock).dispatching = s.dispatching := rfl
@[simp] theorem State.takeLock_reg (s : State) (c : Ctx) (n : Nat) (q : Role) : (s.takeLock c).reg n q = s.reg n q := rfl
@[simp] theorem State.takeLock_wordAt (s : State) (c : Ctx) (n : Nat) : (s.takeLock c).wordAt n = s.wordAt n := rfl
@[simp] theorem State.takeLock_level (s : State) (c : Ctx) (n : Nat) : (s.takeLock c).level n = s.level n := rfl
@[simp] theorem State.takeLock_handler (s : State) (c : Ctx) (n : Nat) : (s.takeLock c).handler n = s.handler n := rfl
@[simp] theorem State.takeLock_dispatching (s : State) (c : Ctx) : (s.takeLock c).dispatching = s.dispatching := rfl
@[simp] theorem State.setKind_reg (s : State) (p : Nat) (k : Kind) (n : Nat) (q : Role) : (s.setKind p k).reg n q = s.reg n q := rfl
@[simp] theorem State.setKind_wordAt (s : State) (p : Nat) (k : Kind) (n : Nat) : (s.setKind p k).wordAt n = s.wordAt n := rfl
@[simp] theorem State.setKind_level (s : State) (p : Nat) (k : Kind) (n : Nat) : (s.setKind p k).level n = s.level n := rfl
@[simp] theorem State.setKind_deliveryMasked (s : State) (p : Nat) (k : Kind) : (s.setKind p k).deliveryMasked = s.deliveryMasked := rfl
@[simp] theorem State.setKind_dispatching (s : State) (p : Nat) (k : Kind) : (s.setKind p k).dispatching = s.dispatching := rfl
@[simp] theorem State.makeReady_reg (s : State) (n : Nat) (q : Role) : (s.makeReady).reg n q = s.reg n q := rfl
@[simp] theorem State.makeReady_wordAt (s : State) (n : Nat) : (s.makeReady).wordAt n = s.wordAt n := rfl
@[simp] theorem State.makeReady_level (s : State) (n : Nat) : (s.makeReady).level n = s.level n := rfl
@[simp] theorem State.makeReady_handler (s : State) (n : Nat) : (s.makeReady).handler n = s.handler n := rfl
@[simp] theorem State.makeReady_deliveryMasked (s : State) : (s.makeReady).deliveryMasked = s.deliveryMasked := rfl
@[simp] theorem State.makeReady_dispatching (s : State) : (s.makeReady).dispatching = s.dispatching := rfl
@[simp] theorem State.countDraw_reg (s : State) (n : Nat) (q : Role) : (s.countDraw).reg n q = s.reg n q := rfl
@[simp] theorem State.countDraw_wordAt (s : State) (n : Nat) : (s.countDraw).wordAt n = s.wordAt n := rfl
@[simp] theorem State.countDraw_level (s : State) (n : Nat) : (s.countDraw).level n = s.level n := rfl
@[simp] theorem State.countDraw_handler (s : State) (n : Nat) : (s.countDraw).handler n = s.handler n := rfl
@[simp] theorem State.countDraw_deliveryMasked (s : State) : (s.countDraw).deliveryMasked = s.deliveryMasked := rfl
@[simp] theorem State.countDraw_dispatching (s : State) : (s.countDraw).dispatching = s.dispatching := rfl
@[simp] theorem State.resample_reg (s : State) (b : Nat) (f : Sample → Sample) (n : Nat) (q : Role) : (s.resample b f).reg n q = s.reg n q := rfl
@[simp] theorem State.resample_wordAt (s : State) (b : Nat) (f : Sample → Sample) (n : Nat) : (s.resample b f).wordAt n = s.wordAt n := rfl
@[simp] theorem State.resample_handler (s : State) (b : Nat) (f : Sample → Sample) (n : Nat) : (s.resample b f).handler n = s.handler n := rfl
@[simp] theorem State.resample_deliveryMasked (s : State) (b : Nat) (f : Sample → Sample) : (s.resample b f).deliveryMasked = s.deliveryMasked := rfl
@[simp] theorem State.resample_dispatching (s : State) (b : Nat) (f : Sample → Sample) : (s.resample b f).dispatching = s.dispatching := rfl

end Sys2Proof.Machine
end

