-- ==== Sys2Proof/Laws/Locator.lean ====
section
/-! SUPPORT. The Register Locator and the register map agree: every address the locator gives is the address of that bank's register of that role, and of no other (spec 40_locator.md R121, R128, 20_memory.md R51). -/

namespace Sys2Proof.Machine

/-! ## Codes -/

@[simp] theorem roleOfCode_roleCode (r : Role) : roleOfCode (roleCode r) = some r := by cases r <;> rfl

theorem roleCode_of_roleOfCode {n : Nat} {r : Role} (h : roleOfCode n = some r) : roleCode r = n := by
  unfold roleOfCode at h; split at h <;> cases h <;> rfl

theorem mem_rolesOf (d : BankDesc) (r : Role) : r ∈ rolesOf d ↔ (isIrqRole r = true → d.irq = true) := by
  unfold rolesOf; cases d.irq <;> cases r <;> simp [isIrqRole]

/-! ## The register map -/

theorem mem_banksMap {c : Cfg} {b : Nat} {ds : List BankDesc} {k : Nat} {g : Reg} :
    (k, g) ∈ banksMap c b ds ↔
      ∃ i d r, ds[i]? = some d ∧ r ∈ rolesOf d ∧ k = roleOffset c d r ∧ g = .bank (b + i) r := by
  induction ds generalizing b with
  | nil => simp [banksMap]
  | cons d ds ih =>
    simp only [banksMap, List.mem_append, ih, bankMap, List.mem_map, Prod.mk.injEq]
    constructor
    · rintro (⟨r, hr, rfl, rfl⟩ | ⟨i, e, r, hi, hr, rfl, rfl⟩)
      · exact ⟨0, d, r, rfl, hr, rfl, rfl⟩
      · exact ⟨i + 1, e, r, hi, hr, rfl, by rw [Nat.add_assoc, Nat.add_comm 1 i]⟩
    · rintro ⟨i, e, r, hi, hr, rfl, rfl⟩
      cases i with
      | zero => cases hi; exact .inl ⟨r, hr, rfl, rfl⟩
      | succ i => exact .inr ⟨i, e, r, hi, hr, rfl, by rw [Nat.add_assoc, Nat.add_comm 1 i]⟩

theorem mem_regMap {c : Cfg} {k : Nat} {g : Reg} :
    (k, g) ∈ regMap c ↔
      (∃ b d r, c.bankTable[b]? = some d ∧ r ∈ rolesOf d ∧ k = roleOffset c d r ∧ g = .bank b r)
        ∨ (k = c.ctrl.offset ∧ g = .ctrl) := by
  simp [regMap, mem_banksMap]

theorem find_of_nodup_keys {base : Nat} {l : List (Nat × Reg)} (h : (l.map (·.1)).Nodup)
    {k : Nat} {g : Reg} (m : (k, g) ∈ l) :
    l.find? (fun e => base + e.1 == base + k) = some (k, g) := by
  induction l with
  | nil => cases m
  | cons e l ih =>
    rw [List.map_cons, List.nodup_cons] at h
    rw [List.find?_cons]
    rcases List.mem_cons.mp m with rfl | m
    · simp
    · have : e.1 ≠ k := fun he => h.1 (he ▸ List.mem_map.mpr ⟨_, m, rfl⟩)
      have : (base + e.1 == base + k) = false := by simpa using this
      rw [this]; exact ih h.2 m

/-! ## Well-formed configurations -/

theorem cfgWf_parts {c : Cfg} (h : cfgWf c = true) :
    (1 ≤ c.ngpio ∧ c.ngpio ≤ 32 * nbanks c) ∧ (c.regBase % 4 = 0 ∧ ∀ e ∈ regMap c, e.1 % 4 = 0)
      ∧ ((regMap c).map (·.1)).Nodup ∧ ctrlLayoutFits c = true := by
  simp only [cfgWf, coversPins, alignedOffsets, distinctOffsets, Bool.and_eq_true, decide_eq_true_eq,
    List.all_eq_true] at h
  exact ⟨h.1.1.1.1, h.1.1.1.2, h.1.1.2, h.1.2⟩

/-- The bank of a valid pin is in the table (40_locator.md R123). -/
theorem bank_of_pin {c : Cfg} (h : cfgWf c = true) {p : Nat} (hp : p < c.ngpio) :
    ∃ d, c.bankTable[bankOf p]? = some d := by
  have := (cfgWf_parts h).1.2
  have : bankOf p < c.bankTable.length := by unfold bankOf nbanks at *; omega
  exact ⟨_, List.getElem?_eq_getElem this⟩

theorem bankIrq_of {c : Cfg} {b : Nat} {d : BankDesc} (h : c.bankTable[b]? = some d) : bankIrq c b = d.irq := by
  unfold bankIrq; rw [h]

theorem desc_of_bankIrq {c : Cfg} {b : Nat} (h : bankIrq c b = true) :
    ∃ d, c.bankTable[b]? = some d ∧ d.irq = true := by
  unfold bankIrq at h; split at h
  · exact ⟨_, ‹_›, h⟩
  · cases h

/-- A bus address is that of its own register and no other (40_locator.md R128, 20_memory.md R50). -/
theorem regAt_role {c : Cfg} (h : cfgWf c = true) {b : Nat} {d : BankDesc} (hd : c.bankTable[b]? = some d)
    {r : Role} (hr : isIrqRole r = true → d.irq = true) :
    regAt c (c.regBase + roleOffset c d r) = some (.bank b r) := by
  have m : (roleOffset c d r, Reg.bank b r) ∈ regMap c :=
    mem_regMap.mpr (.inl ⟨b, d, r, hd, (mem_rolesOf d r).mpr hr, rfl, rfl⟩)
  unfold regAt; rw [find_of_nodup_keys (cfgWf_parts h).2.2.1 m]; rfl

theorem regAt_ctrl {c : Cfg} (h : cfgWf c = true) : regAt c (ctrlAddr c) = some .ctrl := by
  have m : (c.ctrl.offset, Reg.ctrl) ∈ regMap c := mem_regMap.mpr (.inr ⟨rfl, rfl⟩)
  unfold regAt ctrlAddr; rw [find_of_nodup_keys (cfgWf_parts h).2.2.1 m]; rfl

theorem regAt_some {c : Cfg} {a : Nat} {g : Reg} (h : regAt c a = some g) :
    ∃ k, (k, g) ∈ regMap c ∧ a = c.regBase + k := by
  unfold regAt at h
  rcases hf : (regMap c).find? (fun e => c.regBase + e.1 == a) with _ | ⟨k, g'⟩
  · rw [hf] at h; cases h
  · rw [hf] at h; cases h
    have := List.find?_some hf
    exact ⟨k, List.mem_of_find?_eq_some hf, (by simpa using this : c.regBase + k = a).symm⟩

/-- Only registers that exist have an address (20_memory.md R51). -/
theorem regAt_bank {c : Cfg} {a b : Nat} {r : Role} (h : regAt c a = some (.bank b r)) :
    ∃ d, c.bankTable[b]? = some d ∧ (isIrqRole r = true → d.irq = true) ∧ a = c.regBase + roleOffset c d r := by
  obtain ⟨k, m, rfl⟩ := regAt_some h
  rcases mem_regMap.mp m with ⟨b', d, r', hd, hr, rfl, e⟩ | ⟨-, e⟩
  · cases e; exact ⟨d, hd, (mem_rolesOf d r).mp hr, rfl⟩
  · cases e

theorem regAt_aligned {c : Cfg} (h : cfgWf c = true) {a : Nat} {g : Reg} (ha : regAt c a = some g) : a % 4 = 0 := by
  obtain ⟨k, m, rfl⟩ := regAt_some ha
  have w := (cfgWf_parts h).2.1
  have := w.2 _ m
  have := w.1
  simp only at *
  omega

/-- Two addresses of one register are equal. -/
theorem regAt_inj {c : Cfg} {a a' : Nat} {g : Reg} (h : regAt c a = some g) (h' : regAt c a' = some g) : a = a' := by
  obtain ⟨k, m, rfl⟩ := regAt_some h
  obtain ⟨k', m', rfl⟩ := regAt_some h'
  rcases mem_regMap.mp m with ⟨b, d, r, hd, -, rfl, rfl⟩ | ⟨rfl, rfl⟩ <;>
    rcases mem_regMap.mp m' with ⟨b', d', r', hd', -, rfl, e⟩ | ⟨rfl, e⟩
  · cases e; rw [hd] at hd'; cases hd'; rfl
  · cases e
  · cases e
  · rfl

/-- The locator succeeds on every existing bank and role (40_locator.md R121, R127). -/
theorem busAddr_ok {c : Cfg} {b : Nat} {d : BankDesc} (hd : c.bankTable[b]? = some d) {r : Role}
    (hr : isIrqRole r = true → d.irq = true) : busAddr c b r = .ok (c.regBase + roleOffset c d r) := by
  have : (isIrqRole r && !d.irq) = false := by
    cases h : isIrqRole r
    · rfl
    · simp [hr h]
  simp [busAddr, locate, hd, this]

/-- Everything the locator gives is the address of a register that exists. -/
theorem regAt_busAddr {c : Cfg} (h : cfgWf c = true) {b a : Nat} {r : Role} (e : busAddr c b r = .ok a) :
    regAt c a = some (.bank b r) := by
  unfold busAddr locate at e
  rcases hd : c.bankTable[b]? with _ | d
  · simp [hd] at e
  · simp only [hd, roleOfCode_roleCode] at e
    by_cases hr : (isIrqRole r && !d.irq) = true
    · simp [hr] at e
    · simp only [hr, Bool.false_eq_true, if_false, Except.ok.injEq] at e
      subst e
      refine regAt_role h hd fun h' => ?_
      cases hq : d.irq
      · simp [h', hq] at hr
      · rfl

end Sys2Proof.Machine
end

