-- ==== Sys2Proof/Laws/Ops.lean ====
section
/-! SUPPORT. The registers, the bus primitives and the lock: what each can do, said once (spec 20_memory.md R58 to R70). -/

namespace Sys2Proof.Machine

/-! ## The registers of a bank -/

@[simp] theorem BankRegs.put_irq_isSome (k : BankRegs) (r : Role) (w : Word) :
    (k.put r w).irq.isSome = k.irq.isSome := by
  cases r <;> simp [BankRegs.put]

theorem BankRegs.get_put_self {k : BankRegs} {r : Role} {v : Word} (h : k.get r = some v) (w : Word) :
    (k.put r w).get r = some w := by
  cases r <;> simp_all [BankRegs.put, BankRegs.get] <;> obtain ⟨g, hg, -⟩ := h <;> exact ⟨g, hg⟩

theorem BankRegs.get_put_ne (k : BankRegs) {r q : Role} (h : q ≠ r) (w : Word) :
    (k.put r w).get q = k.get q := by
  cases r <;> cases q <;> simp_all [BankRegs.put, BankRegs.get] <;> cases k.irq <;> rfl

/-! ## The registers of the state -/

theorem State.reg_of_bank {s : State} {b : Nat} {k : BankRegs} (h : s.banks[b]? = some k) (r : Role) :
    s.reg b r = k.get r := by unfold State.reg; rw [h]

theorem State.reg_val (s : State) (b : Nat) : s.reg b .val = none := by
  unfold State.reg; cases s.banks[b]? <;> rfl

/-- A read after a write to the same register gives the word written. -/
theorem State.reg_putReg_self {s : State} {b : Nat} {r : Role} {v : Word} (h : s.reg b r = some v) (w : Word) :
    (s.putReg b r w).reg b r = some w := by
  unfold State.reg at h ⊢
  cases hb : s.banks[b]? with
  | none => rw [hb] at h; cases h
  | some k => rw [hb] at h; simp [hb, BankRegs.get_put_self h]

/-- A write leaves every other register alone. -/
theorem State.reg_putReg_ne (s : State) {b b' : Nat} {r q : Role} (h : b' ≠ b ∨ q ≠ r) (w : Word) :
    (s.putReg b r w).reg b' q = s.reg b' q := by
  unfold State.reg
  simp only [State.putReg_banks, List.getElem?_modify]
  by_cases hb : b = b'
  · subst hb
    cases s.banks[b]? with
    | none => rfl
    | some k => simpa using BankRegs.get_put_ne k (h.resolve_left (· rfl)) w
  · cases s.banks[b']? <;> simp [hb]

theorem State.putReg_length (s : State) (b : Nat) (r : Role) (w : Word) :
    (s.putReg b r w).banks.length = s.banks.length := by simp

/-- In a shaped state every register the map names holds a word. -/
theorem State.Shaped.reg_some {s : State} (h : s.Shaped) {b : Nat} {d : BankDesc}
    (hd : s.cfg.bankTable[b]? = some d) {r : Role} (hr : isIrqRole r = true → d.irq = true) (hv : r ≠ .val) :
    ∃ w, s.reg b r = some w := by
  have hl : b < s.banks.length := by
    rw [h.banks]; exact (List.getElem?_eq_some_iff.mp hd).1
  have hk := List.getElem?_eq_getElem hl
  have hi := h.irq b _ hk
  rw [bankIrq_of hd] at hi
  rw [State.reg_of_bank hk]
  cases r <;> simp [BankRegs.get, isIrqRole] at * <;>
    (rw [hr] at hi; obtain ⟨g, hg⟩ := Option.isSome_iff_exists.mp hi; simp [hg])

/-! ## A write's effect on the register file -/

@[simp] theorem State.writeReg_cfg (s : State) (g : Reg) (v : Word) : (s.writeReg g v).cfg = s.cfg := by
  unfold State.writeReg; split <;> rfl
@[simp] theorem State.writeReg_platform (s : State) (g : Reg) (v : Word) : (s.writeReg g v).platform = s.platform := by
  unfold State.writeReg; split <;> rfl
@[simp] theorem State.writeReg_ctx (s : State) (g : Reg) (v : Word) (c : Ctx) : (s.writeReg g v).ctx c = s.ctx c := by
  unfold State.writeReg; split <;> cases c <;> rfl
@[simp] theorem State.writeReg_active (s : State) (g : Reg) (v : Word) : (s.writeReg g v).active = s.active := by
  unfold State.writeReg; split <;> rfl
@[simp] theorem State.writeReg_kind (s : State) (g : Reg) (v : Word) : (s.writeReg g v).kind = s.kind := by
  unfold State.writeReg; split <;> rfl
@[simp] theorem State.writeReg_lock (s : State) (g : Reg) (v : Word) : (s.writeReg g v).lock = s.lock := by
  unfold State.writeReg; split <;> rfl
@[simp] theorem State.writeReg_dmx (s : State) (g : Reg) (v : Word) : (s.writeReg g v).dmx = s.dmx := by
  unfold State.writeReg; split <;> rfl
@[simp] theorem State.writeReg_walkCount (s : State) (g : Reg) (v : Word) : (s.writeReg g v).walkCount = s.walkCount := by
  unfold State.writeReg; split <;> rfl
@[simp] theorem State.writeReg_walkFor (s : State) (g : Reg) (v : Word) : (s.writeReg g v).walkFor = s.walkFor := by
  unfold State.writeReg; split <;> rfl
@[simp] theorem State.writeReg_ready (s : State) (g : Reg) (v : Word) : (s.writeReg g v).ready = s.ready := by
  unfold State.writeReg; split <;> rfl
@[simp] theorem State.writeReg_samples (s : State) (g : Reg) (v : Word) : (s.writeReg g v).samples = s.samples := by
  unfold State.writeReg; split <;> rfl
@[simp] theorem State.writeReg_line (s : State) (g : Reg) (v : Word) : (s.writeReg g v).line = s.line := by
  unfold State.writeReg; split <;> rfl
@[simp] theorem State.writeReg_draws (s : State) (g : Reg) (v : Word) : (s.writeReg g v).draws = s.draws := by
  unfold State.writeReg; split <;> rfl
@[simp] theorem State.writeReg_trace (s : State) (g : Reg) (v : Word) : (s.writeReg g v).trace = s.trace := by
  unfold State.writeReg; split <;> rfl
@[simp] theorem State.writeReg_inputs (s : State) (g : Reg) (v : Word) : (s.writeReg g v).inputs = s.inputs := by
  unfold State.writeReg; split <;> rfl

/-- The register a write to a role changes: a write to `VAL` shows in the write-latch (20_memory.md R63). -/
def writtenRole : Role → Role
  | .val   => .latch
  | .latch => .latch
  | .ien   => .ien
  | .type0 => .type0
  | .type1 => .type1
  | .type2 => .type2
  | .istat => .istat
  | .tol   => .tol

/-- The word a write of `v` leaves in a register that holds `old` (20_memory.md R63 to R69). -/
def writtenWord (r : Role) (old v : Word) : Word := if r = .istat then old &&& ~~~v else v

theorem State.writeReg_reg_self {s : State} {b : Nat} {r : Role} {old : Word}
    (h : s.reg b (writtenRole r) = some old) (v : Word) :
    (s.writeReg (.bank b r) v).reg b (writtenRole r) = some (writtenWord r old v) := by
  cases r <;> simp only [writtenRole] at h ⊢ <;> simp [State.writeReg, writtenWord, State.reg_putReg_self h, h]

theorem State.writeReg_reg_ne (s : State) {b b' : Nat} {r q : Role} (h : b' ≠ b ∨ q ≠ writtenRole r) (v : Word) :
    (s.writeReg (.bank b r) v).reg b' q = s.reg b' q := by
  cases r <;> exact State.reg_putReg_ne s h _

@[simp] theorem State.writeReg_ctrl_reg (s : State) (v : Word) (b : Nat) (q : Role) :
    (s.writeReg .ctrl v).reg b q = s.reg b q := rfl
@[simp] theorem State.writeReg_ctrl_ctrl (s : State) (v : Word) : (s.writeReg .ctrl v).ctrl = v := rfl
@[simp] theorem State.writeReg_bank_ctrl (s : State) (b : Nat) (r : Role) (v : Word) :
    (s.writeReg (.bank b r) v).ctrl = s.ctrl := by cases r <;> rfl

theorem State.Shaped.putReg {s : State} (h : s.Shaped) (b : Nat) (r : Role) (w : Word) : (s.putReg b r w).Shaped := by
  refine ⟨h.cfg, by simpa using h.banks, fun b' k hk => ?_, h.kinds, h.samples⟩
  simp only [State.putReg_banks, List.getElem?_modify] at hk
  cases hb : s.banks[b']? with
  | none => simp [hb] at hk
  | some k' =>
    have := h.irq b' k' hb
    rw [hb] at hk
    by_cases e : b = b'
    · simp [e] at hk; subst hk; simpa using this
    · simp [e] at hk; subst hk; exact this

theorem State.Shaped.writeReg {s : State} (h : s.Shaped) (g : Reg) (v : Word) : (s.writeReg g v).Shaped := by
  unfold State.writeReg; split
  · exact ⟨h.cfg, h.banks, h.irq, h.kinds, h.samples⟩
  all_goals exact h.putReg _ _ _

/-! ## The bus primitives -/

/-- A bus read changes no register: it records one event, and a read of `VAL` takes one draw. -/
theorem State.memRead_cases {s t : State} {who : Master} {a : Nat} {w : Word} (h : s.memRead who a = .ok (w, t)) :
    ∃ g, regAt s.cfg a = some g ∧
      ((∃ b, g = .bank b .val ∧ w = Config.valDraw s.draws b (s.level b) ∧ t = s.countDraw.log (.read who a w))
        ∨ ((∀ b, g ≠ .bank b .val) ∧ s.wordAt a = some w ∧ t = s.log (.read who a w))) := by
  unfold State.memRead at h
  split at h
  · split at h
    · cases h; exact ⟨_, ‹_›, .inl ⟨_, rfl, rfl, rfl⟩⟩
    · rename_i g hv hg
      split at h
      · cases h
        exact ⟨_, hg, .inr ⟨fun b e => hv b (by rw [e]), ‹_›, rfl⟩⟩
      · cases h
    · cases h
  · cases h

/-- A read of a storage register, the write-latch or the status register gives the word that stands there. -/
theorem State.memRead_word {s : State} (h : s.Shaped) {a : Nat} {g : Reg} {w : Word} (hg : regAt s.cfg a = some g)
    (hw : s.wordAt a = some w) (who : Master) : s.memRead who a = .ok (w, s.log (.read who a w)) := by
  have hv : ∀ b, g ≠ .bank b .val := by
    rintro b rfl; simp [State.wordAt, hg, State.reg_val] at hw
  unfold State.memRead
  rw [if_pos (regAt_aligned h.cfg hg), hg]
  split
  · rename_i b e; cases e; exact absurd rfl (hv b)
  · simp [hw]
  · cases ‹some g = none›

/-- A read of `VAL` gives a draw (20_memory.md R63). -/
theorem State.memRead_val {s : State} (h : s.Shaped) {a b : Nat} (hg : regAt s.cfg a = some (.bank b .val)) (who : Master) :
    s.memRead who a = .ok (Config.valDraw s.draws b (s.level b),
      s.countDraw.log (.read who a (Config.valDraw s.draws b (s.level b)))) := by
  unfold State.memRead
  rw [if_pos (regAt_aligned h.cfg hg), hg]

theorem State.wordAt_bank {s : State} {a b : Nat} {r : Role} (hg : regAt s.cfg a = some (.bank b r)) :
    s.wordAt a = s.reg b r := by unfold State.wordAt; rw [hg]

theorem State.wordAt_ctrl {s : State} {a : Nat} (hg : regAt s.cfg a = some .ctrl) :
    s.wordAt a = some s.ctrl := by unfold State.wordAt; rw [hg]

/-- In a shaped state a read of a register that exists is not refused. -/
theorem State.memRead_ok {s : State} (h : s.Shaped) {a : Nat} {g : Reg} (hg : regAt s.cfg a = some g) (who : Master) :
    ∃ w t, s.memRead who a = .ok (w, t) := by
  cases g with
  | ctrl => exact ⟨_, _, State.memRead_word h hg (State.wordAt_ctrl hg) who⟩
  | bank b r =>
    by_cases hv : r = .val
    · subst hv; exact ⟨_, _, State.memRead_val h hg who⟩
    · obtain ⟨d, hd, hr, -⟩ := regAt_bank hg
      obtain ⟨w, hw⟩ := h.reg_some hd hr hv
      exact ⟨_, _, State.memRead_word h hg ((State.wordAt_bank hg).trans hw) who⟩

/-- A bus write changes the register it is addressed to and records one event. -/
theorem State.memWrite_cases {s t : State} {who : Master} {a : Nat} {v : Word} (h : s.memWrite who a v = .ok t) :
    ∃ g, regAt s.cfg a = some g ∧ (∀ b, g ≠ .bank b .latch) ∧ t = (s.writeReg g v).log (.write who a v) := by
  unfold State.memWrite at h
  split at h
  · split at h
    · cases h
    · rename_i g hl hg
      cases h; exact ⟨g, hg, fun b e => hl b (by rw [e]), rfl⟩
    · cases h
  · cases h

/-- A write to a register that exists and is no write-latch is not refused. -/
theorem State.memWrite_ok {s : State} (h : s.Shaped) {a : Nat} {g : Reg} (hg : regAt s.cfg a = some g)
    (hl : ∀ b, g ≠ .bank b .latch) (who : Master) (v : Word) :
    s.memWrite who a v = .ok ((s.writeReg g v).log (.write who a v)) := by
  unfold State.memWrite
  rw [if_pos (regAt_aligned h.cfg hg), hg]
  split
  · rename_i b e; cases e; exact absurd rfl (hl b)
  · rename_i e; cases e; rfl
  · cases ‹some g = none›

/-! ## The lock -/

theorem State.acquireLock_cases {s t : State} {c : Ctx} (h : s.acquireLock c = .made t) :
    s.lock = .free ∧ t = s.takeLock c := by
  unfold State.acquireLock at h; split at h <;> cases h; exact ⟨‹_›, rfl⟩

theorem State.acquireLock_free {s : State} (h : s.lock = .free) (c : Ctx) :
    s.acquireLock c = .made (s.takeLock c) := by unfold State.acquireLock; rw [h]

theorem State.acquireLock_held {s : State} {d : Ctx} (h : s.lock = .held d) (c : Ctx) :
    s.acquireLock c = .blocked := by unfold State.acquireLock; rw [h]

end Sys2Proof.Machine
end

