-- ==== Sys2Proof/Laws/Engine.lean ====
section
/-! SUPPORT. The engine: what running one line, or the rest of an operation, does, said once for each kind of line (spec 00_scope.md R15, 20_memory.md R70 to R74). -/

namespace Sys2Proof.Machine

/-! ## Shape -/

/-- The shape of a state depends on its configuration, register file, tables and samples alone. -/
theorem State.Shaped.congr {s t : State} (h : s.Shaped) (hc : t.cfg = s.cfg) (hb : t.banks = s.banks)
    (hk : t.kind = s.kind) (hs : t.samples = s.samples) : t.Shaped :=
  ⟨by rw [hc]; exact h.cfg, by rw [hb, hc]; exact h.banks, by rw [hb, hc]; exact h.irq,
    by rw [hk, hc]; exact h.kinds, by rw [hs, hc]; exact h.samples⟩

theorem State.Shaped.log {s : State} (h : s.Shaped) (e : Event) : (s.log e).Shaped := h.congr rfl rfl rfl rfl
theorem State.Shaped.setCtx {s : State} (h : s.Shaped) (c : Ctx) (x : Context) : (s.setCtx c x).Shaped :=
  h.congr (by simp) (by simp) (by simp) (by simp)
theorem State.Shaped.setTodo {s : State} (h : s.Shaped) (c : Ctx) (l : List Micro) : (s.setTodo c l).Shaped := h.setCtx c _
theorem State.Shaped.setTmp {s : State} (h : s.Shaped) (c : Ctx) (w : Word) : (s.setTmp c w).Shaped := h.setCtx c _
theorem State.Shaped.answer {s : State} (h : s.Shaped) (c : Ctx) (st : BitVec 4) (d m : Word) : (s.answer c st d m).Shaped :=
  h.setCtx c _
theorem State.Shaped.accept {s : State} (h : s.Shaped) (c : Ctx) (w : Word) : (s.accept c w).Shaped :=
  h.congr (by simp) (by simp) (by simp) (by simp)
theorem State.Shaped.releaseLock {s : State} (h : s.Shaped) : s.releaseLock.Shaped := h.congr rfl rfl rfl rfl
theorem State.Shaped.takeLock {s : State} (h : s.Shaped) (c : Ctx) : (s.takeLock c).Shaped := h.congr rfl rfl rfl rfl
theorem State.Shaped.countDraw {s : State} (h : s.Shaped) : s.countDraw.Shaped := h.congr rfl rfl rfl rfl
theorem State.Shaped.makeReady {s : State} (h : s.Shaped) : s.makeReady.Shaped := h.congr rfl rfl rfl rfl
theorem State.Shaped.setKind {s : State} (h : s.Shaped) (p : Nat) (k : Kind) : (s.setKind p k).Shaped :=
  ⟨h.cfg, h.banks, h.irq, by simpa using h.kinds, h.samples⟩

/-! ## One line at a time -/

@[simp] theorem runLines_nil (c : Ctx) (s : State) : runLines c [] s = .next (s.setTodo c []) := rfl

theorem runLines_acquire {s : State} (h : s.lock = .free) (c : Ctx) (l : List Micro) :
    runLines c (.acquire :: l) s = runLines c l (s.takeLock c) := by
  simp [runLines, Micro.run, State.acquireLock_free h]

/-- A locked section does not start while another context holds the lock: the operation waits (20_memory.md R70). -/
theorem runLines_acquire_held {s : State} {d : Ctx} (h : s.lock = .held d) (c : Ctx) (l : List Micro) :
    runLines c (.acquire :: l) s = .next (s.setTodo c (.acquire :: l)) := by
  simp [runLines, Micro.run, State.acquireLock_held h]

@[simp] theorem runLines_release (s : State) (c : Ctx) (l : List Micro) :
    runLines c (.release :: l) s = runLines c l s.releaseLock := rfl

theorem runLines_read {s : State} (h : s.Shaped) {a : Nat} {g : Reg} {w : Word} (hg : regAt s.cfg a = some g)
    (hw : s.wordAt a = some w) (c : Ctx) (l : List Micro) :
    runLines c (.read a :: l) s = runLines c l ((s.log (.read (.op c) a w)).setTmp c w) := by
  simp [runLines, Micro.run, State.memRead_word h hg hw]

theorem runLines_read_val {s : State} (h : s.Shaped) {a b : Nat} (hg : regAt s.cfg a = some (.bank b .val))
    (c : Ctx) (l : List Micro) :
    runLines c (.read a :: l) s = runLines c l
      ((s.countDraw.log (.read (.op c) a (Config.valDraw s.draws b (s.level b)))).setTmp c
        (Config.valDraw s.draws b (s.level b))) := by
  simp [runLines, Micro.run, State.memRead_val h hg]

theorem runLines_writeBit {s : State} (h : s.Shaped) {src a : Nat} {g : Reg} (hg : regAt s.cfg a = some g)
    (hl : ∀ b, g ≠ .bank b .latch) (c : Ctx) (m : Word) (v : Bool) (l : List Micro) :
    runLines c (.writeBit src a m v :: l) s
      = runLines c l ((s.writeReg g (putBits (s.ctx c).tmp m v)).log (.write (.op c) a (putBits (s.ctx c).tmp m v))) := by
  simp [runLines, Micro.run, State.memWrite_ok h hg hl]

theorem runLines_write {s : State} (h : s.Shaped) {a : Nat} {g : Reg} (hg : regAt s.cfg a = some g)
    (hl : ∀ b, g ≠ .bank b .latch) (c : Ctx) (w : Word) (l : List Micro) :
    runLines c (.write a w :: l) s = runLines c l ((s.writeReg g w).log (.write (.op c) a w)) := by
  simp [runLines, Micro.run, State.memWrite_ok h hg hl]

@[simp] theorem runLines_bind (s : State) (c : Ctx) (p : Nat) (k : Kind) (l : List Micro) :
    runLines c (.bind p k :: l) s = runLines c l (s.setKind p k) := rfl
@[simp] theorem runLines_setReady (s : State) (c : Ctx) (l : List Micro) :
    runLines c (.setReady :: l) s = runLines c l s.makeReady := rfl
@[simp] theorem runLines_answer (s : State) (c : Ctx) (st : BitVec 4) (d m : Word) (l : List Micro) :
    runLines c (.answer st d m :: l) s = runLines c l (s.answer c st d m) := rfl
@[simp] theorem runLines_answerBit (s : State) (c : Ctx) (i : Nat) (l : List Micro) :
    runLines c (.answerBit i :: l) s
      = runLines c l (s.answer c (statusCode .ok) (boolWord ((s.ctx c).tmp.getLsbD i)) 0#32) := rfl

/-! ## What no line changes -/

theorem memRead_outer {s t : State} {who : Master} {a : Nat} {w : Word} (h : s.memRead who a = .ok (w, t)) :
    t.cfg = s.cfg ∧ t.platform = s.platform ∧ t.active = s.active ∧ t.samples = s.samples ∧ t.line = s.line
      ∧ t.inputs = s.inputs ∧ ∀ d, t.ctx d = s.ctx d := by
  obtain ⟨g, -, ⟨b, -, -, rfl⟩ | ⟨-, -, rfl⟩⟩ := State.memRead_cases h <;>
    exact ⟨rfl, rfl, rfl, rfl, rfl, rfl, fun d => by cases d <;> rfl⟩

theorem memWrite_outer {s t : State} {who : Master} {a : Nat} {v : Word} (h : s.memWrite who a v = .ok t) :
    t.cfg = s.cfg ∧ t.platform = s.platform ∧ t.active = s.active ∧ t.samples = s.samples ∧ t.line = s.line
      ∧ t.inputs = s.inputs ∧ ∀ d, t.ctx d = s.ctx d := by
  obtain ⟨g, -, -, rfl⟩ := State.memWrite_cases h
  simp

/-- A line changes neither the configuration and the surroundings, nor the inputs, nor any other context, nor its own context's port inputs and list of lines. -/
theorem Micro.run_outer {c : Ctx} {m : Micro} {s t : State} (h : m.run c s = .made t) :
    t.cfg = s.cfg ∧ t.platform = s.platform ∧ t.active = s.active ∧ t.samples = s.samples ∧ t.line = s.line
      ∧ t.inputs = s.inputs ∧ (∀ d, d ≠ c → t.ctx d = s.ctx d) ∧ (t.ctx c).todo = (s.ctx c).todo
      ∧ (t.ctx c).cmd = (s.ctx c).cmd ∧ (t.ctx c).op0 = (s.ctx c).op0 ∧ (t.ctx c).op1 = (s.ctx c).op1 := by
  have keep : ∀ {u : State}, (∀ d, u.ctx d = s.ctx d) → (∀ d, d ≠ c → u.ctx d = s.ctx d) ∧ (u.ctx c).todo = (s.ctx c).todo
      ∧ (u.ctx c).cmd = (s.ctx c).cmd ∧ (u.ctx c).op0 = (s.ctx c).op0 ∧ (u.ctx c).op1 = (s.ctx c).op1 :=
    fun hu => ⟨fun d _ => hu d, by rw [hu], by rw [hu], by rw [hu], by rw [hu]⟩
  cases m with
  | acquire =>
    obtain ⟨-, rfl⟩ := State.acquireLock_cases h
    exact ⟨rfl, rfl, rfl, rfl, rfl, rfl, keep fun d => by cases d <;> rfl⟩
  | release => cases h; exact ⟨rfl, rfl, rfl, rfl, rfl, rfl, keep fun d => by cases d <;> rfl⟩
  | read a =>
    simp only [Micro.run] at h
    split at h <;> cases h
    rename_i w u hu
    obtain ⟨h₁, h₂, h₃, h₄, h₅, h₆, h₇⟩ := memRead_outer hu
    refine ⟨by simp [h₁], by simp [h₂], by simp [h₃], by simp [h₄], by simp [h₅], by simp [h₆], fun d hd => ?_, ?_, ?_, ?_, ?_⟩
    · rw [State.setTmp_ctx_ne _ hd, h₇]
    all_goals simp [h₇]
  | writeBit src a m v =>
    simp only [Micro.run] at h
    split at h <;> cases h
    obtain ⟨h₁, h₂, h₃, h₄, h₅, h₆, h₇⟩ := memWrite_outer ‹_›
    exact ⟨h₁, h₂, h₃, h₄, h₅, h₆, keep h₇⟩
  | write a w =>
    simp only [Micro.run] at h
    split at h <;> cases h
    obtain ⟨h₁, h₂, h₃, h₄, h₅, h₆, h₇⟩ := memWrite_outer ‹_›
    exact ⟨h₁, h₂, h₃, h₄, h₅, h₆, keep h₇⟩
  | bind p k => cases h; exact ⟨rfl, rfl, rfl, rfl, rfl, rfl, keep fun d => by cases d <;> rfl⟩
  | setReady => cases h; exact ⟨rfl, rfl, rfl, rfl, rfl, rfl, keep fun d => by cases d <;> rfl⟩
  | startWalk =>
    simp only [Micro.run, State.startWalk] at h
    split at h <;> cases h
    exact ⟨rfl, rfl, rfl, rfl, rfl, rfl, keep fun d => by cases d <;> rfl⟩
  | awaitWalk => cases h
  | answer st d m =>
    cases h
    exact ⟨by simp, by simp, by simp, by simp, by simp, by simp, fun d hd => State.answer_ctx_ne _ hd _ _ _, by simp, by simp, by simp, by simp⟩
  | answerBit i =>
    cases h
    exact ⟨by simp, by simp, by simp, by simp, by simp, by simp, fun d hd => State.answer_ctx_ne _ hd _ _ _, by simp, by simp, by simp, by simp⟩

/-- A context's move is one line of its operation. -/
theorem State.moveContext_cases {s t : State} {c : Ctx} (h : s.moveContext c = .made t) :
    ∃ m l u, (s.ctx c).todo = m :: l ∧ m.run c s = .made u ∧ t = u.setTodo c l := by
  unfold State.moveContext at h
  split at h
  · cases h
  · split at h <;> cases h
    exact ⟨_, _, _, ‹_›, ‹_›, rfl⟩

/-- Running an operation to its end, or to where it must wait, is its first line and then the rest. -/
theorem runLines_cases {c : Ctx} {m : Micro} {l : List Micro} {s t : State} (h : runLines c (m :: l) s = .next t) :
    (∃ u, m.run c s = .made u ∧ runLines c l u = .next t) ∨ (m.run c s = .blocked ∧ t = s.setTodo c (m :: l)) := by
  simp only [runLines] at h
  split at h
  · exact .inl ⟨_, ‹_›, h⟩
  · cases h; exact .inr ⟨‹_›, rfl⟩
  · cases h
  · cases h

/-! ## The plans of bit updates -/

/-- Read half and write half of a bit update, under the lock: the register at `a` gets the word read at `src` with the bits changed, and two events are recorded (20_memory.md R60, R70). -/
theorem runLines_update {s : State} (h : s.Shaped) (hf : s.lock = .free) {src a : Nat} {g g' : Reg} {w : Word}
    (hs : regAt s.cfg src = some g') (hw : s.wordAt src = some w) (ha : regAt s.cfg a = some g)
    (hl : ∀ b, g ≠ .bank b .latch) (c : Ctx) (m : Word) (v : Bool) (l : List Micro) :
    runLines c (.acquire :: .read src :: .writeBit src a m v :: .release :: l) s
      = runLines c l
          ((((s.takeLock c).log (.read (.op c) src w)).setTmp c w).writeReg g (putBits w m v)
            |>.log (.write (.op c) a (putBits w m v)) |>.releaseLock) := by
  rw [runLines_acquire hf, runLines_read (g := g') (h.takeLock _) hs hw, runLines_writeBit (g := g) _ _ hl]
  · simp
  · exact ((h.takeLock _).log _).setTmp _ _
  · simpa using ha

end Sys2Proof.Machine
end

