-- ==== Sys2Proof/Laws/Environment.lean ====
section
/-! SUPPORT. The environment's steps: what StatusSet and PinChange can do, and R199's table read bit by bit (spec 20_memory.md R62, R68, 43_irq_control.md R199). -/

namespace Sys2Proof.Machine

/-! ## The table -/

/-- The edge rows: a bit matches when the level moved and moved the way its kind asks for. -/
theorem getLsbD_edgeMatch (g : IrqRegs) (old new : Word) {j : Nat} (hj : j < 32) :
    (edgeMatch g old new).getLsbD j = ((old.getLsbD j != new.getLsbD j) &&
      (g.kindAt j == some .edgeBoth || g.kindAt j == some (if new.getLsbD j then .edgeRising else .edgeFalling))) := by
  simp only [edgeMatch, IrqRegs.kindAt, BitVec.getLsbD_or, BitVec.getLsbD_and, BitVec.getLsbD_not, BitVec.getLsbD_xor, hj, decide_true,
    Bool.true_and]
  cases g.type0.getLsbD j <;> cases g.type1.getLsbD j <;> cases g.type2.getLsbD j <;> cases old.getLsbD j <;> cases new.getLsbD j <;>
    rfl

/-- The level rows and the undefined patterns. -/
theorem getLsbD_holdMatch (g : IrqRegs) (level : Word) {j : Nat} (hj : j < 32) :
    (holdMatch g level).getLsbD j =
      (g.kindAt j == none || g.kindAt j == some (if level.getLsbD j then .levelHigh else .levelLow)) := by
  simp only [holdMatch, IrqRegs.kindAt, BitVec.getLsbD_or, BitVec.getLsbD_and, BitVec.getLsbD_not, hj, decide_true, Bool.true_and]
  cases g.type0.getLsbD j <;> cases g.type1.getLsbD j <;> cases g.type2.getLsbD j <;> cases level.getLsbD j <;> rfl

/-! ## The samples -/

@[simp] theorem Sample.use_level (x : Sample) (m : Word) : (x.use m).level = x.level := rfl
@[simp] theorem Sample.use_edges (x : Sample) (m : Word) : (x.use m).edges = x.edges &&& ~~~m := rfl
@[simp] theorem Sample.use_holds (x : Sample) (m : Word) : (x.use m).holds = x.holds &&& ~~~m := rfl
@[simp] theorem Sample.take_level (x : Sample) (q : Option IrqRegs) (w : Word) : (x.take q w).level = w := by cases q <;> rfl

theorem State.sample_of {s : State} {b : Nat} {x : Sample} (h : s.samples[b]? = some x) : s.sample b = x := by
  simp [State.sample, h]

theorem State.irqOf_of {s : State} {b : Nat} {k : BankRegs} (h : s.banks[b]? = some k) : s.irqOf b = k.irq := by
  simp [State.irqOf, h]

theorem State.resample_self {s : State} {b : Nat} {x : Sample} (h : s.samples[b]? = some x) (f : Sample → Sample) :
    (s.resample b f).samples[b]? = some (f x) := by
  simp [State.resample, h]

theorem State.resample_ne (s : State) {b b' : Nat} (h : b' ≠ b) (f : Sample → Sample) :
    (s.resample b f).samples[b']? = s.samples[b']? := by
  simp [State.resample, Ne.symm h]

/-- No sample's place is gained or lost. -/
@[simp] theorem State.resample_samples_length (s : State) (b : Nat) (f : Sample → Sample) :
    (s.resample b f).samples.length = s.samples.length := by
  simp [State.resample]

theorem State.Shaped.resample {s : State} (h : s.Shaped) (b : Nat) (f : Sample → Sample) : (s.resample b f).Shaped :=
  ⟨h.cfg, h.banks, h.irq, h.kinds, by simpa using h.samples⟩

/-! ## The steps -/

/-- Everything a StatusSet can do: nothing where the bank has no interrupts, else it sets the allowed bits of one status register and uses their matches. -/
theorem State.statusSet_cases (s : State) (b : Nat) (w : Word) :
    s.statusSet b w = s ∨ ∃ g m, s.irqOf b = some g ∧ m = w &&& s.statusAllowed b g
      ∧ s.statusSet b w = (s.putReg b .istat (g.istat ||| m)).resample b fun x => x.use m := by
  unfold State.statusSet
  split
  · exact .inr ⟨_, _, ‹_›, rfl, rfl⟩
  · exact .inl rfl

theorem State.statusSet_of {s : State} {b : Nat} {g : IrqRegs} (h : s.irqOf b = some g) (w : Word) :
    s.statusSet b w = (s.putReg b .istat (g.istat ||| (w &&& s.statusAllowed b g))).resample b
      fun x => x.use (w &&& s.statusAllowed b g) := by
  simp [State.statusSet, h]

theorem State.statusAllowed_free {s : State} (h : s.platform.status = .free) (b : Nat) (g : IrqRegs) :
    s.statusAllowed b g = 0xFFFFFFFF#32 := by simp [State.statusAllowed, h]

theorem State.statusAllowed_matched {s : State} (h : s.platform.status = .matched) {b : Nat} {x : Sample}
    (hx : s.samples[b]? = some x) (g : IrqRegs) : s.statusAllowed b g = x.edges ||| x.holds ||| holdMatch g x.level := by
  simp [State.statusAllowed, h, maySet, State.sample_of hx]

/-- An unused match may set in either surroundings, so that a StatusSet that asks for it uses it. -/
theorem State.statusAllowed_used {s : State} {b : Nat} {x : Sample} (hx : s.samples[b]? = some x) (g : IrqRegs) {j : Nat} (hj : j < 32)
    (h : x.edges.getLsbD j = true ∨ x.holds.getLsbD j = true) : (s.statusAllowed b g).getLsbD j = true := by
  cases hp : s.platform.status
  · rw [State.statusAllowed_free hp]; interval_cases j <;> rfl
  · rw [State.statusAllowed_matched hp hx]; rcases h with h | h <;> simp [h]

/-! ## Reset -/

/-- After power-on no context has anything in progress. -/
@[simp] theorem State.powerOn_todo (c : Cfg) (p : Platform) (d : Ctx) : ((State.powerOn c p).ctx d).todo = [] := by
  cases d with
  | normal k => cases k <;> rfl
  | interrupt => rfl

/-- After a reset of the block no context has anything in progress. -/
@[simp] theorem State.blockReset_todo (s : State) (d : Ctx) : (s.blockReset.ctx d).todo = [] := by
  cases d with
  | normal k => cases k <;> rfl
  | interrupt => rfl

end Sys2Proof.Machine
end

