-- ==== Sys2Proof/Laws/Plans.lean ====
section
/-! SUPPORT. Plans: what the common beginnings and endings of the operations do, and the bits a bit update leaves (spec 42_pin_io.md R172, 60_exceptions.md R270, 20_memory.md R60). -/

namespace Sys2Proof.Machine

/-! ## Bits -/

/-- The mask of a pin has the pin's bit and no other (00_scope.md R14). -/
theorem getLsbD_maskOf (p j : Nat) : (maskOf p).getLsbD j = decide (j = p % 32) := by
  unfold maskOf bitOf
  rw [BitVec.getLsbD_shiftLeft]
  by_cases h : j = p % 32
  · subst h; have : p % 32 < 32 := Nat.mod_lt _ (by decide); simp [this]
  · by_cases hj : j < p % 32
    · simp [h, hj]
    · have : j - p % 32 ≠ 0 := by omega
      simp [h, this]

/-- A bit update changes the pin's bit and no other (20_memory.md R60). -/
theorem getLsbD_putBits_maskOf (w : Word) (p : Nat) (v : Bool) (j : Nat) :
    (putBits w (maskOf p) v).getLsbD j = if j = p % 32 then v else w.getLsbD j := by
  have hp : p % 32 < 32 := Nat.mod_lt _ (by decide)
  unfold putBits
  cases v <;> by_cases h : j = p % 32 <;> simp [h, getLsbD_maskOf]
  intro hw
  exact BitVec.lt_of_getLsbD hw

/-! ## Plans that only answer -/

theorem runPlan_raise {s : State} (h : (s.ctx s.active).todo = []) (k : Status) :
    s.runPlan (raisePlan k) = .next (s.answer s.active (statusCode k) 0#32 0#32) := by
  simp only [State.runPlan, raisePlan, runLines_answer, runLines_nil]
  rw [State.answer_ended h]

theorem runPlan_answer {s : State} (h : (s.ctx s.active).todo = []) (d : Word) :
    s.runPlan (answerPlan d) = .next (s.answer s.active (statusCode .ok) d 0#32) := by
  simp only [State.runPlan, answerPlan, runLines_answer, runLines_nil]
  rw [State.answer_ended h]

/-! ## The prologue -/

theorem prologue_ready {s : State} (h : s.ready = true) {p : Nat} (hp : p < s.cfg.ngpio) (k : Plan) :
    prologue s p k = k := by simp [prologue, h, hp]

theorem prologue_not_ready {s : State} (h : s.ready = false) (p : Nat) (k : Plan) :
    prologue s p k = raisePlan .notReady := by simp [prologue, h]

theorem prologue_out_of_range {s : State} (h : s.ready = true) {p : Nat} (hp : s.cfg.ngpio ≤ p) (k : Plan) :
    prologue s p k = raisePlan .invalidArgument := by simp [prologue, h, Nat.not_lt.mpr hp]

/-- The prologue ends in one of its two errors or goes on. -/
theorem prologue_cases (s : State) (p : Nat) (k : Plan) :
    (s.ready = false ∧ prologue s p k = raisePlan .notReady)
      ∨ (s.ready = true ∧ s.cfg.ngpio ≤ p ∧ prologue s p k = raisePlan .invalidArgument)
      ∨ (s.ready = true ∧ p < s.cfg.ngpio ∧ prologue s p k = k) := by
  cases h : s.ready
  · exact .inl ⟨rfl, prologue_not_ready h p k⟩
  · by_cases hp : p < s.cfg.ngpio
    · exact .inr (.inr ⟨rfl, hp, prologue_ready h hp k⟩)
    · exact .inr (.inl ⟨rfl, Nat.not_lt.mp hp, prologue_out_of_range h (Nat.not_lt.mp hp) k⟩)

/-! ## Locked sections -/

/-- A locked section that has been left leaves the lock as it found it. -/
theorem State.unlock_takeLock {s : State} (h : s.lock = .free) (c d : Ctx) (e e' : Event) (w n : Word) (g : Reg) :
    (((((s.takeLock c).log e).setTmp d w).writeReg g n).log e').releaseLock
      = ((((s.log e).setTmp d w).writeReg g n).log e') := by
  cases s; cases h
  cases d <;> cases g <;> first | rfl | (rename_i b r; cases r <;> rfl)

/-- A locked bit update as one change of the state (20_memory.md R60, R70). -/
theorem runLines_locked_update {s : State} (h : s.Shaped) (hf : s.lock = .free) {src a : Nat} {g g' : Reg} {w : Word}
    (hs : regAt s.cfg src = some g') (hw : s.wordAt src = some w) (ha : regAt s.cfg a = some g)
    (hl : ∀ b, g ≠ .bank b .latch) (c : Ctx) (m : Word) (v : Bool) (l : List Micro) :
    runLines c (.acquire :: .read src :: .writeBit src a m v :: .release :: l) s
      = runLines c l ((((s.log (.read (.op c) src w)).setTmp c w).writeReg g (putBits w m v)).log
          (.write (.op c) a (putBits w m v))) := by
  rw [runLines_update h hf hs hw ha hl, State.unlock_takeLock hf]

/-! ## Registers of a pin's bank -/

/-- In a shaped state, a register of the bank of a pin has a bus address and, `VAL` apart, holds a word. -/
theorem State.Shaped.reg_of_pin {s : State} (h : s.Shaped) {p : Nat} (hp : p < s.cfg.ngpio) {r : Role}
    (hr : isIrqRole r = true → bankIrq s.cfg (bankOf p) = true) :
    ∃ a, busAddr s.cfg (bankOf p) r = .ok a ∧ regAt s.cfg a = some (.bank (bankOf p) r)
      ∧ (r ≠ .val → ∃ w, s.reg (bankOf p) r = some w ∧ s.wordAt a = some w) := by
  obtain ⟨d, hd⟩ := bank_of_pin h.cfg hp
  rw [bankIrq_of hd] at hr
  have ha := busAddr_ok hd hr
  have hg := regAt_busAddr h.cfg ha
  refine ⟨_, ha, hg, fun hv => ?_⟩
  obtain ⟨w, hw⟩ := h.reg_some hd hr hv
  exact ⟨w, hw, (State.wordAt_bank hg).trans hw⟩

end Sys2Proof.Machine
end

