-- ==== Sys2Proof/Laws/PlanForms.lean ====
section
/-! SUPPORT. Everything an operation's plan can be, said once: the shapes the plans have, and that every plan is legal and disciplined (spec 20_memory.md R70 to R74, 95_test_vectors.md V450). -/

namespace Sys2Proof.Machine

/-! ## The shapes of plans -/

/-- The lines of a locked bit update of pin `p`, from the first to the answer. -/
def updateLines (src addr p : Nat) (v : Bool) : List Micro :=
  [.acquire, .read src, .writeBit src addr (maskOf p) v, .release, answerOk]

/-- The role of the register an operation updates one bit of, and the bit it writes: TOL, MASK and UNMASK. -/
def RmwOperation (c : Cfg) (p : Nat) (i : Instr) (r : Role) (v : Bool) : Prop :=
  (i = .tol p v ∧ r = .tol) ∨ (i = .mask p ∧ r = .ien ∧ v = false ∧ bankIrq c (bankOf p) = true)
    ∨ (i = .unmask p ∧ r = .ien ∧ v = true ∧ bankIrq c (bankOf p) = true)

/-- Every shape an operation's plan can have in a state with a well-formed configuration. -/
inductive PlanForm (s : State) : Instr → List Micro → Prop where
  | answer (i : Instr) (k : Status) (d m : Word) : PlanForm s i [.answer (statusCode k) d m]
  | get (p a : Nat) (ready : s.ready = true) (pin : p < s.cfg.ngpio)
      (addr : busAddr s.cfg (bankOf p) (if outputCapable s.cfg p then .latch else .val) = .ok a) :
      PlanForm s (.get p) [.read a, .answerBit (bitOf p)]
  | output (i : Instr) (p : Nat) (v : Bool) (src dst : Nat) (ready : s.ready = true) (pin : p < s.cfg.ngpio)
      (op : i = .set p v ∨ i = .dirout p v) (capable : outputCapable s.cfg p = true)
      (srcAddr : busAddr s.cfg (bankOf p) .latch = .ok src) (dstAddr : busAddr s.cfg (bankOf p) .val = .ok dst) :
      PlanForm s i (updateLines src dst p v)
  | rmw (i : Instr) (p : Nat) (r : Role) (v : Bool) (a : Nat) (ready : s.ready = true) (pin : p < s.cfg.ngpio)
      (op : RmwOperation s.cfg p i r v) (addr : busAddr s.cfg (bankOf p) r = .ok a) : PlanForm s i (updateLines a a p v)
  | settype (p code : Nat) (k : Kind) (x : TypeBits) (a0 a1 a2 : Nat) (ready : s.ready = true) (pin : p < s.cfg.ngpio)
      (irq : bankIrq s.cfg (bankOf p) = true) (kind : kindOfCode code = some k) (bits : typeBitsOf k = some x)
      (addr0 : busAddr s.cfg (bankOf p) .type0 = .ok a0) (addr1 : busAddr s.cfg (bankOf p) .type1 = .ok a1)
      (addr2 : busAddr s.cfg (bankOf p) .type2 = .ok a2) :
      PlanForm s (.settype p code)
        [.acquire, .read a0, .writeBit a0 a0 (maskOf p) x.type0, .read a1, .writeBit a1 a1 (maskOf p) x.type1,
          .read a2, .writeBit a2 a2 (maskOf p) x.type2, .release, .bind p k, answerOk]
  | ack (p a : Nat) (ready : s.ready = true) (pin : p < s.cfg.ngpio) (irq : bankIrq s.cfg (bankOf p) = true)
      (addr : busAddr s.cfg (bankOf p) .istat = .ok a) :
      PlanForm s (.ack p) [.acquire, .write a (maskOf p), .release, answerOk]
  | demux (ready : s.ready = true) : PlanForm s .demux [.startWalk, .awaitWalk]
  | init (cs : Nat) (cw : Word) (l : List Micro) (ready : s.ready = false)
      (banks : initBanks s.cfg 0 s.cfg.bankTable = .ok l) :
      PlanForm s (.init cs) (.write (ctrlAddr s.cfg) cw :: l ++ [.setReady, .answer (statusCode .ok) cw 0#32])

/-- A meaning runs its plan. -/
theorem exec_eq_runPlan (i : Instr) (s : State) : exec i s = s.runPlan (planOf i s) := by cases i <;> rfl

theorem busAddr_error {c : Cfg} {b : Nat} {d : BankDesc} (hd : c.bankTable[b]? = some d) {r : Role} {f : Fault}
    (h : busAddr c b r = .error f) : isIrqRole r = true ∧ d.irq = false := by
  by_cases hr : isIrqRole r = true → d.irq = true
  · rw [busAddr_ok hd hr] at h; cases h
  · rw [Classical.not_imp] at hr; exact ⟨hr.1, by simpa using hr.2⟩

theorem raisePlan_form (s : State) (i : Instr) (k : Status) {l : List Micro} (h : raisePlan k = .ok l) : PlanForm s i l := by
  cases h; exact .answer i k _ _

theorem answerPlan_form (s : State) (i : Instr) (d : Word) {l : List Micro} (h : answerPlan d = .ok l) : PlanForm s i l := by
  cases h; exact .answer i .ok _ _

theorem prologue_form {s : State} {i : Instr} {p : Nat} {k : Plan} {l : List Micro} (h : prologue s p k = .ok l)
    (g : s.ready = true → p < s.cfg.ngpio → k = .ok l → PlanForm s i l) : PlanForm s i l := by
  rcases prologue_cases s p k with ⟨-, e⟩ | ⟨-, -, e⟩ | ⟨hr, hp, e⟩ <;> rw [e] at h
  · exact raisePlan_form _ _ _ h
  · exact raisePlan_form _ _ _ h
  · exact g hr hp h

theorem setLines_form {s : State} {i : Instr} {p : Nat} {v : Bool} (hr : s.ready = true) (hp : p < s.cfg.ngpio)
    (op : i = .set p v ∨ i = .dirout p v) (hc : outputCapable s.cfg p = true) {l : List Micro}
    (h : setLines p v s = .ok l) : PlanForm s i l := by
  unfold setLines at h
  split at h
  · cases h
  · split at h <;> cases h
    exact .output i p v _ _ hr hp op hc ‹_› ‹_›

theorem ienPlan_form {s : State} {i : Instr} {p : Nat} {v : Bool} {l : List Micro}
    (op : bankIrq s.cfg (bankOf p) = true → RmwOperation s.cfg p i .ien v) (h : ienPlan p v s = .ok l) : PlanForm s i l := by
  unfold ienPlan at h
  refine prologue_form h fun hr hp h => ?_
  split at h
  · split at h <;> cases h
    exact .rmw i p .ien v _ hr hp (op ‹_›) ‹_›
  · exact answerPlan_form _ _ _ h

/-- Everything an operation's plan can be. -/
theorem planOf_form {s : State} {i : Instr} {l : List Micro} (h : planOf i s = .ok l) : PlanForm s i l := by
  cases i <;> simp only [planOf] at h
  case locate b role =>
    unfold planLocate at h
    split at h
    · exact answerPlan_form _ _ _ h
    · exact raisePlan_form _ _ _ h
    · exact raisePlan_form _ _ _ h
    · cases h
  case locatep p role =>
    unfold planLocatep at h
    split at h
    · split at h
      · cases h; exact .answer _ .ok _ _
      · exact raisePlan_form _ _ _ h
      · exact raisePlan_form _ _ _ h
      · cases h
    · exact raisePlan_form _ _ _ h
  case incap p =>
    unfold planIncap at h
    split at h
    · exact answerPlan_form _ _ _ h
    · exact raisePlan_form _ _ _ h
  case outcap p =>
    unfold planOutcap at h
    split at h
    · exact answerPlan_form _ _ _ h
    · exact raisePlan_form _ _ _ h
  case valid p => exact answerPlan_form _ _ _ h
  case get p =>
    refine prologue_form h fun hr hp h => ?_
    split at h <;> cases h
    exact .get p _ hr hp ‹_›
  case set p v =>
    refine prologue_form h fun hr hp h => ?_
    split at h
    · exact setLines_form hr hp (.inl rfl) ‹_› h
    · exact answerPlan_form _ _ _ h
  case dirin p =>
    refine prologue_form h fun _ _ h => ?_
    split at h
    · exact answerPlan_form _ _ _ h
    · exact raisePlan_form _ _ _ h
  case dirout p v =>
    refine prologue_form h fun hr hp h => ?_
    split at h
    · exact setLines_form hr hp (.inr rfl) ‹_› h
    · exact raisePlan_form _ _ _ h
  case dirq p =>
    refine prologue_form h fun _ _ h => ?_
    split at h
    · exact answerPlan_form _ _ _ h
    · split at h
      · exact answerPlan_form _ _ _ h
      · exact raisePlan_form _ _ _ h
  case tol p v =>
    refine prologue_form h fun hr hp h => ?_
    split at h <;> cases h
    exact .rmw _ p .tol v _ hr hp (.inl ⟨rfl, rfl⟩) ‹_›
  case settype p code =>
    refine prologue_form h fun hr hp h => ?_
    split at h
    · split at h
      · exact raisePlan_form _ _ _ h
      · split at h
        · exact raisePlan_form _ _ _ h
        · unfold settypeLines at h
          split at h <;> cases h
          exact .settype p code _ _ _ _ _ hr hp ‹_› ‹_› ‹_› ‹_› ‹_› ‹_›
    · exact raisePlan_form _ _ _ h
  case mask p => exact ienPlan_form (fun hb => .inr (.inl ⟨rfl, rfl, rfl, hb⟩)) h
  case unmask p => exact ienPlan_form (fun hb => .inr (.inr ⟨rfl, rfl, rfl, hb⟩)) h
  case ack p =>
    refine prologue_form h fun hr hp h => ?_
    split at h
    · split at h <;> cases h
      exact .ack p _ hr hp ‹_› ‹_›
    · exact raisePlan_form _ _ _ h
  case demux =>
    unfold planDemux at h
    split at h
    · cases h; exact .demux ‹_›
    · exact raisePlan_form _ _ _ h
  case init cs =>
    unfold planInit at h
    split at h
    · exact raisePlan_form _ _ _ h
    · split at h
      · exact raisePlan_form _ _ _ h
      · split at h
        · exact raisePlan_form _ _ _ h
        · split at h
          · exact raisePlan_form _ _ _ h
          · simp only at h
            split at h <;> cases h
            exact .init cs _ _ (by simpa using ‹¬s.ready = true›) ‹_›

/-! ## INIT's writes -/

/-- The addresses of INIT's writes to a bank: of tolerance and of interrupt registers. -/
theorem initBank_ok {c : Cfg} {b : Nat} {d : BankDesc} (hd : c.bankTable[b]? = some d) :
    initBank c b d = .ok (.write (c.regBase + roleOffset c d .tol) 0#32 ::
      if d.irq then
        [.write (c.regBase + roleOffset c d .ien) 0#32, .write (c.regBase + roleOffset c d .istat) 0xFFFFFFFF#32,
          .write (c.regBase + roleOffset c d .type0) 0xFFFFFFFF#32, .write (c.regBase + roleOffset c d .type1) 0#32,
          .write (c.regBase + roleOffset c d .type2) 0#32]
      else []) := by
  unfold initBank
  rw [busAddr_ok hd (r := .tol) (by simp [isIrqRole])]
  by_cases h : d.irq = true
  · simp [h, busAddr_ok hd]
  · simp [h]

/-- INIT's writes as one list, from bank `b` up. -/
def initLines (c : Cfg) : Nat → List BankDesc → List Micro
  | _, []      => []
  | b, d :: ds =>
    (.write (c.regBase + roleOffset c d .tol) 0#32 ::
      if d.irq then
        [.write (c.regBase + roleOffset c d .ien) 0#32, .write (c.regBase + roleOffset c d .istat) 0xFFFFFFFF#32,
          .write (c.regBase + roleOffset c d .type0) 0xFFFFFFFF#32, .write (c.regBase + roleOffset c d .type1) 0#32,
          .write (c.regBase + roleOffset c d .type2) 0#32]
      else []) ++ initLines c (b + 1) ds

theorem initBanks_ok {c : Cfg} {b : Nat} {ds : List BankDesc} (h : ∀ j d, ds[j]? = some d → c.bankTable[b + j]? = some d) :
    initBanks c b ds = .ok (initLines c b ds) := by
  induction ds generalizing b with
  | nil => rfl
  | cons d ds ih =>
    have hd : c.bankTable[b]? = some d := h 0 d rfl
    have hs : ∀ j e, ds[j]? = some e → c.bankTable[b + 1 + j]? = some e := fun j e hj => by
      rw [Nat.add_assoc, Nat.add_comm 1 j]; exact h (j + 1) e hj
    simp only [initBanks, initBank_ok hd, ih hs, initLines]

theorem initBanks_all (c : Cfg) : initBanks c 0 c.bankTable = .ok (initLines c 0 c.bankTable) :=
  initBanks_ok fun j d h => by rwa [Nat.zero_add]

theorem mem_initLines {c : Cfg} {b : Nat} {ds : List BankDesc} {m : Micro} (hm : m ∈ initLines c b ds) :
    ∃ (j : Nat) (d : BankDesc) (r : Role) (w : Word), ds[j]? = some d ∧ m = .write (c.regBase + roleOffset c d r) w ∧ (isIrqRole r = true → d.irq = true)
      ∧ r ∈ [Role.tol, .ien, .istat, .type0, .type1, .type2] := by
  induction ds generalizing b with
  | nil => cases hm
  | cons d ds ih =>
    rw [initLines, List.mem_append, List.mem_cons] at hm
    rcases hm with (rfl | hm) | hm
    · exact ⟨0, d, .tol, _, rfl, rfl, by simp [isIrqRole], by simp⟩
    · split at hm
      · simp only [List.mem_cons, List.not_mem_nil, or_false] at hm
        rcases hm with rfl | rfl | rfl | rfl | rfl
        exacts [⟨0, d, .ien, _, rfl, rfl, fun _ => ‹_›, by simp⟩, ⟨0, d, .istat, _, rfl, rfl, fun _ => ‹_›, by simp⟩,
          ⟨0, d, .type0, _, rfl, rfl, fun _ => ‹_›, by simp⟩, ⟨0, d, .type1, _, rfl, rfl, fun _ => ‹_›, by simp⟩,
          ⟨0, d, .type2, _, rfl, rfl, fun _ => ‹_›, by simp⟩]
      · cases hm
    · obtain ⟨j, e, r, w, h⟩ := ih hm
      exact ⟨j + 1, e, r, w, h⟩

/-! ## Plans are legal and disciplined -/

theorem writeLegal {c : Cfg} (hc : cfgWf c = true) {b : Nat} {d : BankDesc} (hd : c.bankTable[b]? = some d) {r : Role}
    (hr : isIrqRole r = true → d.irq = true) (hm : r ∈ [Role.tol, .ien, .istat, .type0, .type1, .type2]) (w : Word) :
    (Micro.write (c.regBase + roleOffset c d r) w).Legal c :=
  ⟨_, regAt_role hc hd hr, .inr ⟨b, r, rfl, by rintro rfl; simp at hm, by rintro rfl; simp at hm⟩⟩

theorem initLines_legal {c : Cfg} (hc : cfgWf c = true) : ∀ m ∈ initLines c 0 c.bankTable, m.Legal c := by
  intro m hm
  obtain ⟨j, d, r, w, hd, rfl, hr, hm⟩ := mem_initLines hm
  exact writeLegal hc hd hr hm w

theorem PlanForm.legal {s : State} (hc : cfgWf s.cfg = true) {i : Instr} {l : List Micro} (h : PlanForm s i l) :
    ∀ m ∈ l, m.Legal s.cfg := by
  cases h with
  | answer => simp [Micro.Legal]
  | get p a _ _ addr => simp only [List.mem_cons, List.not_mem_nil, or_false]; rintro m (rfl | rfl); exacts [⟨_, regAt_busAddr hc addr⟩, trivial]
  | output i p v src dst _ pin op capable hs hd =>
    simp only [updateLines, List.mem_cons, List.not_mem_nil, or_false]
    rintro m (rfl | rfl | rfl | rfl | rfl)
    exacts [trivial, ⟨_, regAt_busAddr hc hs⟩, ⟨p, pin, rfl, .inl ⟨capable, regAt_busAddr hc hs, regAt_busAddr hc hd⟩⟩, trivial, trivial]
  | rmw i p r v a _ pin op addr =>
    simp only [updateLines, List.mem_cons, List.not_mem_nil, or_false]
    have hr : r ∈ [Role.tol, .ien, .type0, .type1, .type2] := by
      rcases op with ⟨-, rfl⟩ | ⟨-, rfl, -⟩ | ⟨-, rfl, -⟩ <;> simp
    rintro m (rfl | rfl | rfl | rfl | rfl)
    exacts [trivial, ⟨_, regAt_busAddr hc addr⟩, ⟨p, pin, rfl, .inr ⟨rfl, r, hr, regAt_busAddr hc addr⟩⟩, trivial, trivial]
  | settype p code k x a0 a1 a2 _ pin irq _ _ h0 h1 h2 =>
    simp only [List.mem_cons, List.not_mem_nil, or_false]
    rintro m (rfl | rfl | rfl | rfl | rfl | rfl | rfl | rfl | rfl | rfl)
    exacts [trivial, ⟨_, regAt_busAddr hc h0⟩, ⟨p, pin, rfl, .inr ⟨rfl, _, by simp, regAt_busAddr hc h0⟩⟩,
      ⟨_, regAt_busAddr hc h1⟩, ⟨p, pin, rfl, .inr ⟨rfl, _, by simp, regAt_busAddr hc h1⟩⟩,
      ⟨_, regAt_busAddr hc h2⟩, ⟨p, pin, rfl, .inr ⟨rfl, _, by simp, regAt_busAddr hc h2⟩⟩, trivial, ⟨pin, irq⟩, trivial]
  | ack p a _ pin irq addr =>
    simp only [List.mem_cons, List.not_mem_nil, or_false]
    rintro m (rfl | rfl | rfl | rfl)
    exacts [trivial, ⟨_, regAt_busAddr hc addr, .inr ⟨_, _, rfl, by simp, by simp⟩⟩, trivial, trivial]
  | demux => simp [Micro.Legal]
  | init cs cw l _ banks =>
    rw [initBanks_all] at banks; cases banks
    intro m hm
    rw [List.cons_append, List.mem_cons, List.mem_append] at hm
    rcases hm with rfl | hm | hm
    · exact ⟨_, regAt_ctrl hc, .inl rfl⟩
    · exact initLines_legal hc m hm
    · simp only [List.mem_cons, List.not_mem_nil, or_false] at hm; rcases hm with rfl | rfl <;> trivial

/-- The plan of an operation accepted by an initialised controller is disciplined. -/
theorem PlanForm.disciplined {s : State} (hc : cfgWf s.cfg = true) (hr : s.ready = true) {i : Instr} {l : List Micro}
    (h : PlanForm s i l) : Disciplined s.cfg false none l := by
  cases h with
  | init cs cw l hn => rw [hr] at hn; cases hn
  | ack p a _ _ _ addr => simp [Disciplined, answerOk, regAt_busAddr hc addr]
  | _ => simp [Disciplined, updateLines, answerOk]

theorem initLines_append {c : Cfg} {l l' : List Micro} (h : ∀ m ∈ l, m.Legal c ∧ ∃ a w, m = .write a w) (h' : InitLines c l') :
    InitLines c (l ++ l') := by
  induction l with
  | nil => exact h'
  | cons m l ih =>
    obtain ⟨hm, a, w, rfl⟩ := h m (by simp)
    exact ⟨hm, ih fun m hm => h m (by simp [hm])⟩

/-- The plan of an operation accepted before INIT: an answer alone, or, for INIT only, INIT's lines. -/
theorem PlanForm.initTail {s : State} (hc : cfgWf s.cfg = true) (hr : s.ready = false) {i : Instr} {l : List Micro}
    (h : PlanForm s i l) : (∃ st d m, l = [.answer st d m]) ∨ (∃ cs, i = .init cs) ∧ InitLines s.cfg l := by
  have no : s.ready ≠ true := by simp [hr]
  cases h with
  | answer => exact .inl ⟨_, _, _, rfl⟩
  | init cs cw l _ banks =>
    rw [initBanks_all] at banks; cases banks
    refine .inr ⟨⟨cs, rfl⟩, ⟨_, regAt_ctrl hc, .inl rfl⟩, initLines_append (fun m hm => ⟨initLines_legal hc m hm, ?_⟩) (by simp [InitLines])⟩
    obtain ⟨j, d, r, w, -, rfl, -⟩ := mem_initLines hm
    exact ⟨_, _, rfl⟩
  | _ => exact absurd ‹s.ready = true› no

/-- A fatal outcome is LOCATE's or LOCATEP's contract violation (40_locator.md R124, 60_exceptions.md R272). -/
theorem planOf_error {s : State} (hc : cfgWf s.cfg = true) {i : Instr} {f : Fault} (h : planOf i s = .error f) :
    f = .contractViolation ∧ ∃ n code, i = .locate n code ∨ i = .locatep n code := by
  have pro : ∀ {p : Nat} {k : Plan}, prologue s p k = .error f → p < s.cfg.ngpio ∧ k = .error f := by
    intro p k h
    rcases prologue_cases s p k with ⟨-, e⟩ | ⟨-, -, e⟩ | ⟨hr, hp, e⟩ <;> rw [e] at h
    · cases h
    · cases h
    · exact ⟨hp, h⟩
  have no : ∀ {p : Nat} {r : Role} {g : Fault}, p < s.cfg.ngpio → (isIrqRole r = true → bankIrq s.cfg (bankOf p) = true) →
      busAddr s.cfg (bankOf p) r = .error g → False := by
    intro p r g hp hb e
    obtain ⟨d, hd⟩ := bank_of_pin hc hp
    obtain ⟨h1, h2⟩ := busAddr_error hd e
    have := hb h1; rw [bankIrq_of hd, h2] at this; cases this
  have ien : ∀ {p : Nat} {v : Bool}, ienPlan p v s = .error f → False := by
    intro p v h
    obtain ⟨hp, h⟩ := pro h
    split at h
    · split at h
      · exact no hp (fun _ => ‹_›) ‹_›
      · cases h
    · cases h
  have out : ∀ {p : Nat} {v : Bool}, p < s.cfg.ngpio → setLines p v s = .error f → False := by
    intro p v hp h
    unfold setLines at h
    split at h
    · exact no (r := .latch) hp (by simp [isIrqRole]) ‹_›
    · split at h
      · exact no (r := .val) hp (by simp [isIrqRole]) ‹_›
      · cases h
  cases i <;> simp only [planOf] at h
  case locate b role =>
    unfold planLocate at h
    split at h <;> cases h
    exact ⟨rfl, b, role, .inl rfl⟩
  case locatep p role =>
    unfold planLocatep at h
    split at h
    · split at h <;> cases h
      exact ⟨rfl, p, role, .inr rfl⟩
    · cases h
  case incap p => unfold planIncap at h; split at h <;> cases h
  case outcap p => unfold planOutcap at h; split at h <;> cases h
  case valid p => cases h
  case get p =>
    obtain ⟨hp, h⟩ := pro h
    split at h
    · exact (no (r := if outputCapable s.cfg p then .latch else .val) hp (by split <;> simp [isIrqRole]) ‹_›).elim
    · cases h
  case set p v =>
    obtain ⟨hp, h⟩ := pro h
    split at h
    · exact (out hp h).elim
    · cases h
  case dirin p => obtain ⟨hp, h⟩ := pro h; split at h <;> cases h
  case dirout p v =>
    obtain ⟨hp, h⟩ := pro h
    split at h
    · exact (out hp h).elim
    · cases h
  case dirq p =>
    obtain ⟨hp, h⟩ := pro h
    split at h
    · cases h
    · split at h <;> cases h
  case tol p v =>
    obtain ⟨hp, h⟩ := pro h
    split at h
    · exact (no (r := .tol) hp (by simp [isIrqRole]) ‹_›).elim
    · cases h
  case settype p code =>
    obtain ⟨hp, h⟩ := pro h
    split at h
    · rename_i hb
      split at h
      · cases h
      · split at h
        · cases h
        · unfold settypeLines at h
          split at h
          · cases h
          · exact (no hp (fun _ => hb) ‹_›).elim
          · exact (no hp (fun _ => hb) ‹_›).elim
          · exact (no hp (fun _ => hb) ‹_›).elim
    · cases h
  case mask p => exact (ien h).elim
  case unmask p => exact (ien h).elim
  case ack p =>
    obtain ⟨hp, h⟩ := pro h
    split at h
    · split at h
      · exact (no hp (fun _ => ‹_›) ‹_›).elim
      · cases h
    · cases h
  case demux => unfold planDemux at h; split at h <;> cases h
  case init cs =>
    unfold planInit at h
    rw [initBanks_all] at h
    split at h
    · cases h
    · split at h
      · cases h
      · split at h
        · cases h
        · split at h <;> cases h

end Sys2Proof.Machine
end

