-- ==== Sys2Proof/Laws/Lines.lean ====
section
/-! SUPPORT. What one line, and a run of lines, changes and leaves alone, in a shaped state (spec 20_memory.md R58 to R74). -/

namespace Sys2Proof.Machine

/-! ## One line -/

theorem BitUpdate.not_latch {c : Cfg} {p src a : Nat} (h : BitUpdate c p src a) :
    ∃ g, regAt c a = some g ∧ ∀ b, g ≠ .bank b .latch := by
  rcases h with ⟨-, -, h⟩ | ⟨-, r, hr, h⟩
  · exact ⟨_, h, by simp⟩
  · exact ⟨_, h, fun b e => by cases e; simp at hr⟩

/-- A legal line is never refused: it is done, or it waits. -/
theorem Micro.run_goes {s : State} (h : s.Shaped) {m : Micro} (hl : m.Legal s.cfg) (c : Ctx) :
    (∃ t, m.run c s = .made t) ∨ (m.run c s = .blocked ∧ (m = .acquire ∨ m = .startWalk ∨ m = .awaitWalk)) := by
  cases m with
  | acquire =>
    cases hk : s.lock with
    | free => exact .inl ⟨_, State.acquireLock_free hk c⟩
    | held d => exact .inr ⟨State.acquireLock_held hk c, .inl rfl⟩
  | read a =>
    obtain ⟨g, hg⟩ := hl
    obtain ⟨w, t, ht⟩ := State.memRead_ok h hg (.op c)
    exact .inl ⟨t.setTmp c w, by simp only [Micro.run, ht]⟩
  | writeBit src a m v =>
    obtain ⟨p, -, -, hb⟩ := hl
    obtain ⟨g, hg, hn⟩ := hb.not_latch
    left; simp only [Micro.run, State.memWrite_ok h hg hn]; exact ⟨_, rfl⟩
  | write a w =>
    obtain ⟨g, hg, hn⟩ := hl
    have hn : ∀ b, g ≠ .bank b .latch := by
      rintro b rfl
      rcases hn with e | ⟨b', r, e, hr, -⟩
      · cases e
      · cases e; exact hr rfl
    left; simp only [Micro.run, State.memWrite_ok h hg hn]; exact ⟨_, rfl⟩
  | startWalk =>
    by_cases hg : s.dmx = .idle ∧ s.deliveryMasked = false
    · exact .inl ⟨_, if_pos hg⟩
    · exact .inr ⟨if_neg hg, .inr (.inl rfl)⟩
  | awaitWalk => exact .inr ⟨rfl, .inr (.inr rfl)⟩
  | release => exact .inl ⟨_, rfl⟩
  | bind p k => exact .inl ⟨_, rfl⟩
  | setReady => exact .inl ⟨_, rfl⟩
  | answer st d m => exact .inl ⟨_, rfl⟩
  | answerBit i => exact .inl ⟨_, rfl⟩

theorem State.Shaped.memRead {s t : State} (h : s.Shaped) {who : Master} {a : Nat} {w : Word}
    (hr : s.memRead who a = .ok (w, t)) : t.Shaped := by
  obtain ⟨g, -, ⟨b, -, -, rfl⟩ | ⟨-, -, rfl⟩⟩ := State.memRead_cases hr
  · exact h.countDraw.log _
  · exact h.log _

theorem State.Shaped.memWrite {s t : State} (h : s.Shaped) {who : Master} {a : Nat} {v : Word}
    (hr : s.memWrite who a v = .ok t) : t.Shaped := by
  obtain ⟨g, -, -, rfl⟩ := State.memWrite_cases hr
  exact (h.writeReg g v).log _

/-- Every line keeps the shape. -/
theorem Micro.run_shaped {c : Ctx} {m : Micro} {s t : State} (h : s.Shaped) (hr : m.run c s = .made t) : t.Shaped := by
  cases m with
  | acquire => obtain ⟨-, rfl⟩ := State.acquireLock_cases hr; exact h.takeLock c
  | release => cases hr; exact h.releaseLock
  | read a => simp only [Micro.run] at hr; split at hr <;> cases hr; exact (h.memRead ‹_›).setTmp _ _
  | writeBit src a m v => simp only [Micro.run] at hr; split at hr <;> cases hr; exact h.memWrite ‹_›
  | write a w => simp only [Micro.run] at hr; split at hr <;> cases hr; exact h.memWrite ‹_›
  | bind p k => cases hr; exact h.setKind p k
  | setReady => cases hr; exact h.makeReady
  | startWalk =>
    simp only [Micro.run, State.startWalk] at hr; split at hr <;> cases hr
    exact h.congr rfl rfl rfl rfl
  | awaitWalk => cases hr
  | answer st d m => cases hr; exact h.answer _ _ _ _
  | answerBit i => cases hr; exact h.answer _ _ _ _

/-- The address at which a line may change the word that stands there. The write half of a bit update changes the register its read half read (20_memory.md R63). -/
def Micro.target : Micro → Option Nat
  | .writeBit src _ _ _ => some src
  | .write a _          => some a
  | .read _ | .acquire | .release | .bind _ _ | .setReady | .startWalk | .awaitWalk | .answer _ _ _ | .answerBit _ => none

/-- A write to a role leaves the word at every other address, that of the written register apart. -/
theorem State.writeReg_wordAt {s : State} {b : Nat} {r : Role} {a : Nat} (h : regAt s.cfg a ≠ some (.bank b (writtenRole r)))
    (v : Word) : (s.writeReg (.bank b r) v).wordAt a = s.wordAt a := by
  unfold State.wordAt
  simp only [State.writeReg_cfg, State.writeReg_bank_ctrl]
  split
  · rename_i b' q hg
    refine State.writeReg_reg_ne s ?_ v
    by_contra hc
    rw [not_or, not_not, not_not] at hc
    obtain ⟨rfl, rfl⟩ := hc
    exact h hg
  · rfl
  · rfl

theorem State.writeReg_ctrl_wordAt {s : State} {a : Nat} (h : regAt s.cfg a ≠ some .ctrl) (v : Word) :
    (s.writeReg .ctrl v).wordAt a = s.wordAt a := by
  unfold State.wordAt
  simp only [State.writeReg_cfg]
  split
  · rfl
  · exact absurd ‹_› h
  · rfl

theorem BitUpdate.written {c : Cfg} {p src a : Nat} (h : BitUpdate c p src a) :
    ∃ r, regAt c a = some (.bank (bankOf p) r) ∧ regAt c src = some (.bank (bankOf p) (writtenRole r)) ∧ r ≠ .istat
      ∧ writtenRole r ≠ .istat := by
  rcases h with ⟨-, h1, h2⟩ | ⟨rfl, r, hr, h⟩
  · exact ⟨.val, h2, h1, by simp, by simp [writtenRole]⟩
  · refine ⟨r, h, ?_, ?_⟩
    · simp only [List.mem_cons, List.not_mem_nil, or_false] at hr
      rcases hr with rfl | rfl | rfl | rfl | rfl <;> exact h
    · simp only [List.mem_cons, List.not_mem_nil, or_false] at hr
      rcases hr with rfl | rfl | rfl | rfl | rfl <;> simp [writtenRole]

/-- A legal line changes the word at no address but its target. -/
theorem Micro.run_wordAt {c : Ctx} {m : Micro} {s t : State} (hl : m.Legal s.cfg) (hr : m.run c s = .made t)
    {a : Nat} (ha : m.target ≠ some a) : t.wordAt a = s.wordAt a := by
  cases m with
  | acquire => obtain ⟨-, rfl⟩ := State.acquireLock_cases hr; rfl
  | release => cases hr; rfl
  | read a =>
    simp only [Micro.run] at hr; split at hr <;> cases hr
    obtain ⟨g, -, ⟨b, -, -, rfl⟩ | ⟨-, -, rfl⟩⟩ := State.memRead_cases ‹_› <;> simp
  | writeBit src d m v =>
    obtain ⟨p, -, -, hb⟩ := hl
    obtain ⟨r, hd, hs, -⟩ := hb.written
    simp only [Micro.run] at hr; split at hr <;> cases hr
    obtain ⟨g, hg, -, rfl⟩ := State.memWrite_cases ‹_›
    rw [hd] at hg; cases hg
    rw [State.log_wordAt]
    exact State.writeReg_wordAt (fun e => ha (by rw [Micro.target, regAt_inj e hs])) _
  | write d w =>
    obtain ⟨g, hd, hn⟩ := hl
    simp only [Micro.run] at hr; split at hr <;> cases hr
    obtain ⟨g, hg, -, rfl⟩ := State.memWrite_cases ‹_›
    rw [hd] at hg; cases hg
    rw [State.log_wordAt]
    rcases hn with rfl | ⟨b, r, rfl, hr1, hr2⟩
    · exact State.writeReg_ctrl_wordAt (fun e => ha (by rw [Micro.target, regAt_inj e hd])) _
    · have : writtenRole r = r := by cases r <;> simp_all [writtenRole]
      exact State.writeReg_wordAt (fun e => ha (by rw [this] at e; rw [Micro.target, regAt_inj e hd])) _
  | bind p k => cases hr; rfl
  | setReady => cases hr; rfl
  | startWalk => simp only [Micro.run, State.startWalk] at hr; split at hr <;> cases hr; rfl
  | awaitWalk => cases hr
  | answer st d m => cases hr; simp
  | answerBit i => cases hr; simp

/-- What a line does to the rest of the block's state: each part is changed by one kind of line only. -/
theorem Micro.run_block {c : Ctx} {m : Micro} {s t : State} (hr : m.run c s = .made t) :
    ((∀ p k, m ≠ .bind p k) → t.kind = s.kind) ∧ (m ≠ .setReady → t.ready = s.ready)
      ∧ (m ≠ .startWalk → t.dmx = s.dmx ∧ t.walkCount = s.walkCount ∧ t.walkFor = s.walkFor)
      ∧ (m ≠ .acquire → m ≠ .release → t.lock = s.lock)
      ∧ ((∀ a b, m = .read a → regAt s.cfg a ≠ some (.bank b .val)) → t.draws = s.draws) := by
  cases m with
  | acquire => obtain ⟨-, rfl⟩ := State.acquireLock_cases hr; simp
  | release => cases hr; simp
  | read a =>
    simp only [Micro.run] at hr; split at hr <;> cases hr
    obtain ⟨g, hg, ⟨b, rfl, -, rfl⟩ | ⟨-, -, rfl⟩⟩ := State.memRead_cases ‹_›
    · exact ⟨by simp, by simp, by simp, by simp, fun h => absurd hg (h _ _ rfl)⟩
    · simp
  | writeBit src d m v =>
    simp only [Micro.run] at hr; split at hr <;> cases hr
    obtain ⟨g, hg, -, rfl⟩ := State.memWrite_cases ‹_›; simp
  | write d w =>
    simp only [Micro.run] at hr; split at hr <;> cases hr
    obtain ⟨g, hg, -, rfl⟩ := State.memWrite_cases ‹_›; simp
  | bind p k => cases hr; simp
  | setReady => cases hr; simp
  | startWalk => simp only [Micro.run, State.startWalk] at hr; split at hr <;> cases hr; simp
  | awaitWalk => cases hr
  | answer st d m => cases hr; simp
  | answerBit i => cases hr; simp

/-- What a line does to the lock. -/
theorem Micro.run_lock {c : Ctx} {m : Micro} {s t : State} (hr : m.run c s = .made t) :
    (m = .acquire → s.lock = .free ∧ t.lock = .held c) ∧ (m = .release → t.lock = .free)
      ∧ (m ≠ .acquire → m ≠ .release → t.lock = s.lock) := by
  refine ⟨?_, ?_, (Micro.run_block hr).2.2.2.1⟩
  · rintro rfl; obtain ⟨h, rfl⟩ := State.acquireLock_cases hr; exact ⟨h, rfl⟩
  · rintro rfl; cases hr; rfl

/-! ## Lines and the list of lines left -/

/-- Replace a context's list of lines in the state a move leads to. -/
def Move.setTodo (m : Move) (c : Ctx) (l : List Micro) : Move :=
  match m with
  | .made t    => .made (t.setTodo c l)
  | .blocked   => .blocked
  | .fault f   => .fault f
  | .refused r => .refused r

@[simp] theorem State.setTodo_setTodo (s : State) (c : Ctx) (l l' : List Micro) : (s.setTodo c l).setTodo c l' = s.setTodo c l' := by
  simp [State.setTodo]

theorem State.setTmp_setTodo (s : State) (c : Ctx) (l : List Micro) (w : Word) :
    (s.setTodo c l).setTmp c w = (s.setTmp c w).setTodo c l := by
  simp [State.setTodo, State.setTmp]

theorem State.answer_setTodo (s : State) (c : Ctx) (l : List Micro) (st : BitVec 4) (d m : Word) :
    (s.setTodo c l).answer c st d m = (s.answer c st d m).setTodo c l := by
  simp [State.setTodo, State.answer]

theorem State.memRead_setTodo (s : State) (c : Ctx) (l : List Micro) (who : Master) (a : Nat) :
    (s.setTodo c l).memRead who a
      = match s.memRead who a with
        | .ok (w, t) => .ok (w, t.setTodo c l)
        | .error r   => .error r := by
  unfold State.memRead
  simp only [State.setTodo_cfg, State.setTodo_wordAt]
  split
  · split
    · cases c <;> rfl
    · split
      · cases c <;> rfl
      · rfl
    · rfl
  · rfl

theorem State.memWrite_setTodo (s : State) (c : Ctx) (l : List Micro) (who : Master) (a : Nat) (v : Word) :
    (s.setTodo c l).memWrite who a v
      = match s.memWrite who a v with
        | .ok t    => .ok (t.setTodo c l)
        | .error r => .error r := by
  unfold State.memWrite
  simp only [State.setTodo_cfg]
  split
  · split
    · rfl
    · rename_i g _ _
      rcases g with ⟨b, r⟩ | _
      · cases c <;> cases r <;> rfl
      · cases c <;> rfl
    · rfl
  · rfl

/-- What a line does does not depend on the lines that stand in its context's list, and it leaves the list alone. -/
theorem Micro.run_setTodo (c : Ctx) (m : Micro) (s : State) (l : List Micro) :
    m.run c (s.setTodo c l) = (m.run c s).setTodo c l := by
  cases m with
  | acquire =>
    simp only [Micro.run, State.acquireLock, State.setTodo_lock]
    split
    · cases c <;> rfl
    · rfl
  | read a =>
    simp only [Micro.run, State.memRead_setTodo]
    cases s.memRead (.op c) a with
    | error r => rfl
    | ok x => simp only [State.setTmp_setTodo, Move.setTodo]
  | writeBit src a m v =>
    simp only [Micro.run, State.memWrite_setTodo, State.setTodo_ctx_tmp]
    cases s.memWrite (.op c) a (putBits (s.ctx c).tmp m v) <;> rfl
  | write a w =>
    simp only [Micro.run, State.memWrite_setTodo]
    cases s.memWrite (.op c) a w <;> rfl
  | startWalk =>
    simp only [Micro.run, State.startWalk, State.setTodo_dmx, State.setTodo_deliveryMasked]
    split
    · cases c <;> rfl
    · rfl
  | awaitWalk => rfl
  | release => cases c <;> rfl
  | bind p k => cases c <;> rfl
  | setReady => cases c <;> rfl
  | answer st d m => simp only [Micro.run, State.answer_setTodo, Move.setTodo]
  | answerBit i => simp only [Micro.run, State.answer_setTodo, State.setTodo_ctx_tmp, Move.setTodo]

/-! ## A run of lines -/

/-- What every line of a run keeps, the run keeps. -/
theorem runLines_keeps {P : State → Prop} {c : Ctx} {l : List Micro} {s t : State} (hr : runLines c l s = .next t) (h : P s)
    (line : ∀ m ∈ l, ∀ u v, P u → m.run c u = .made v → P v) (todo : ∀ u l, P u → P (u.setTodo c l)) : P t := by
  induction l generalizing s with
  | nil => cases hr; exact todo _ _ h
  | cons m l ih =>
    rcases runLines_cases hr with ⟨u, hm, hu⟩ | ⟨-, rfl⟩
    · exact ih hu (line m (by simp) _ _ h hm) fun m' hm' => line m' (by simp [hm'])
    · exact todo _ _ h

/-- A run of legal lines is not refused. -/
theorem runLines_goes {c : Ctx} {l : List Micro} {s : State} (h : s.Shaped) (hl : ∀ m ∈ l, m.Legal s.cfg) :
    ∃ t, runLines c l s = .next t := by
  induction l generalizing s with
  | nil => exact ⟨_, rfl⟩
  | cons m l ih =>
    rcases Micro.run_goes h (hl m (by simp)) c with ⟨u, hu⟩ | ⟨hb, -⟩
    · obtain ⟨t, ht⟩ := ih (Micro.run_shaped h hu) fun m' hm' => by
        rw [(Micro.run_outer hu).1]; exact hl m' (by simp [hm'])
      exact ⟨t, by simp only [runLines, hu, ht]⟩
    · simp only [runLines, hb]; exact ⟨_, rfl⟩

end Sys2Proof.Machine
end

