-- ==== Sys2Proof/Laws/Steps.lean ====
section
/-! SUPPORT. What a step can be, said once: an input that happens, or one move of one agent (spec 20_memory.md R72). -/

namespace Sys2Proof.Machine

/-- One move of one agent, or none. -/
inductive State.Moved (s t : State) : Prop where
  | context (c : Ctx) (h : s.moveContext c = .made t)
  | walk (h : s.walk = .made t)
  | line (h : s.takeLine = .made t)
  | none (h : t = s)

theorem Move.outcome_cases {m : Move} {s t : State} (h : m.outcome s = .next t) : m = .made t ∨ t = s := by
  cases m <;> cases h
  · exact .inl rfl
  · exact .inr rfl

theorem Move.orElse_cases {m n : Move} {t : State} (h : m.orElse n = .made t) : m = .made t ∨ n = .made t := by
  cases m
  · exact .inl h
  · exact .inr h
  · cases h
  · cases h

/-- A move of the normal context is one requester's. -/
theorem State.moveNormal_cases {s t : State} (h : s.moveNormal = .made t) : ∃ k, s.moveContext (.normal k) = .made t := by
  unfold State.moveNormal at h
  revert h
  induction List.range s.normals.length with
  | nil => nofun
  | cons k l ih =>
    intro h
    rcases Move.orElse_cases h with h | h
    · exact ⟨k, h⟩
    · exact ih h

/-- The move the block makes by itself. -/
theorem State.advance_cases {s t : State} (h : s.advance = .next t) : s.Moved t := by
  rcases Move.outcome_cases h with h | h
  · rcases Move.orElse_cases h with h | h
    · rcases Move.orElse_cases h with h | h
      · rcases Move.orElse_cases h with h | h
        · exact .context .interrupt h
        · exact .walk h
      · obtain ⟨k, h⟩ := State.moveNormal_cases h; exact .context (.normal k) h
    · exact .line h
  · exact .none h

/-- A step is an input that happens, or one move of one agent. -/
theorem step_cases {s t : State} (h : step s = .next t) :
    cfgWf s.cfg = true ∧
      (s.Moved t ∨ ∃ e l, s.inputs = e :: l ∧ e.enabled s = true ∧ e.perform { s with inputs := l } = .next t) := by
  unfold step at h
  split at h
  · refine ⟨‹_›, ?_⟩
    split at h
    · exact .inl (State.advance_cases h)
    · split at h
      · exact .inr ⟨_, _, ‹_›, ‹_›, h⟩
      · exact .inl (State.advance_cases h)
  · cases h

/-- An INIT is in progress exactly where some context has still to set `READY`. -/
theorem State.initialising_iff (s : State) : s.initialising = true ↔ ∃ c, Micro.setReady ∈ (s.ctx c).todo := by
  simp only [State.initialising, Context.initialising, Bool.or_eq_true, List.any_eq_true, List.contains_iff_mem]
  constructor
  · rintro (h | ⟨x, hx, h⟩)
    · exact ⟨.interrupt, h⟩
    · obtain ⟨k, hk⟩ := List.getElem?_of_mem hx
      exact ⟨.normal k, by simpa [State.ctx, requester, hk] using h⟩
  · rintro ⟨c | _, h⟩
    · simp only [State.ctx, requester] at h
      split at h
      · exact .inr ⟨_, List.mem_of_getElem? ‹_›, h⟩
      · cases h
    · exact .inl h

/-- Whether an INIT is in progress depends on the lines left alone. -/
theorem State.initialising_congr {s t : State} (h : ∀ c, (t.ctx c).todo = (s.ctx c).todo) : t.initialising = s.initialising := by
  rw [Bool.eq_iff_iff, State.initialising_iff, State.initialising_iff]; simp only [h]

/-- What it takes to issue a command word. -/
theorem State.mayIssue_cases {s : State} {c : Ctx} {w : Word} (h : s.mayIssue c w = true) :
    (s.ctx c).todo = [] ∧ (isInit w = true → ∀ d, Micro.setReady ∉ (s.ctx d).todo) ∧ (c = .interrupt → s.dispatching = true) := by
  simp only [State.mayIssue, Bool.and_eq_true, List.isEmpty_iff, Bool.not_eq_true', Bool.and_eq_false_iff] at h
  refine ⟨h.1.1, fun hw d hd => ?_, ?_⟩
  · rcases h.1.2 with e | e
    · rw [hw] at e; cases e
    · have := (State.initialising_iff s).mpr ⟨d, hd⟩; rw [e] at this; cases this
  · rintro rfl; exact h.2

/-- What issuing a command word is. -/
theorem State.issue_cases {s t : State} {c : Ctx} {w : Word} (h : s.issue c w = .next t) :
    t = (s.accept c w).raise c .invalidArgument
      ∨ ∃ i l, decode w = .ok i ∧ planOf i (s.accept c w) = .ok l ∧ runLines c l (s.accept c w) = .next t := by
  unfold State.issue at h
  split at h
  · cases h; exact .inl rfl
  · rw [exec_eq_runPlan] at h
    unfold State.runPlan at h
    split at h
    · cases h
    · exact .inr ⟨_, _, ‹_›, ‹_›, by simpa [State.accept] using h⟩

/-- What starting a command word is. -/
theorem State.start_cases {s t : State} {c : Ctx} {w : Word} (h : s.start c w = .next t) :
    t = (s.accept c w).raise c .invalidArgument
      ∨ ∃ i l, decode w = .ok i ∧ planOf i (s.accept c w) = .ok l ∧ t = (s.accept c w).setTodo c l := by
  unfold State.start at h
  split at h
  · cases h; exact .inl rfl
  · split at h
    · cases h
    · cases h; exact .inr ⟨_, _, ‹_›, ‹_›, rfl⟩

/-- A command that is issued runs its plan: whatever holds when it is started and is kept by its context's moves holds when it has ended or waits. -/
theorem runLines_induct {P : State → Prop} {c : Ctx} {l : List Micro} {s t : State} (h : runLines c l s = .next t)
    (start : P (s.setTodo c l)) (move : ∀ u v, P u → u.moveContext c = .made v → P v) : P t := by
  induction l generalizing s with
  | nil => cases h; exact start
  | cons m l ih =>
    rcases runLines_cases h with ⟨u, hm, hu⟩ | ⟨-, rfl⟩
    · refine ih hu (move _ _ start ?_)
      simp only [State.moveContext, State.setTodo_ctx_todo, Micro.run_setTodo, hm, Move.setTodo, State.setTodo_setTodo]
    · exact start

/-- What a walk's transition can be. -/
theorem State.walk_cases {s t : State} (h : s.walk = .made t) :
    (∃ b d, s.dmx = .nextBank b ∧ s.cfg.bankTable[b]? = some d ∧ d.irq = false ∧ t = { s with dmx := .nextBank (b + 1) })
      ∨ (∃ b d a w, s.dmx = .nextBank b ∧ s.cfg.bankTable[b]? = some d ∧ d.irq = true
          ∧ ∃ u, s.memRead .demux a = .ok (w, u) ∧ t = { u with dmx := .scan b w 0 })
      ∨ (∃ b, s.dmx = .nextBank b ∧ s.cfg.bankTable[b]? = none ∧ t = s.walkFinish)
      ∨ (∃ b w i, s.dmx = .scan b w i ∧ 32 ≤ i ∧ t = { s with dmx := .nextBank (b + 1) })
      ∨ (∃ b w i, s.dmx = .scan b w i ∧ i < 32 ∧ w.getLsbD i = true ∧ s.deliveryMasked = false
          ∧ t = { s.dispatch (pinOf b i) with dmx := .wait b w i })
      ∨ (∃ b w i, s.dmx = .scan b w i ∧ i < 32 ∧ w.getLsbD i = false ∧ t = { s with dmx := .scan b w (i + 1) }) := by
  unfold State.walk at h
  split at h
  · cases h
  · rename_i b hd
    split at h
    · rename_i d hb
      unfold State.walkBank at h
      split at h
      · split at h
        · cases h
        · split at h <;> cases h
          exact .inr (.inl ⟨b, d, _, _, hd, hb, ‹_›, _, ‹_›, rfl⟩)
      · cases h; exact .inl ⟨b, d, hd, hb, by simpa using ‹¬d.irq = true›, rfl⟩
    · cases h; exact .inr (.inr (.inl ⟨b, hd, ‹_›, rfl⟩))
  · rename_i b w i hd
    unfold State.walkBit at h
    split at h
    · cases h; exact .inr (.inr (.inr (.inl ⟨b, w, i, hd, ‹_›, rfl⟩)))
    · split at h
      · split at h <;> cases h
        exact .inr (.inr (.inr (.inr (.inl ⟨b, w, i, hd, by omega, ‹_›, by simpa using ‹¬s.deliveryMasked = true›, rfl⟩))))
      · cases h
        exact .inr (.inr (.inr (.inr (.inr ⟨b, w, i, hd, by omega, by simpa using ‹¬w.getLsbD i = true›, rfl⟩))))
  · cases h

/-- What taking the upstream line can be. -/
theorem State.startWalk_cases {s t : State} {c : Ctx} (h : s.startWalk c = .made t) :
    s.dmx = .idle ∧ s.deliveryMasked = false ∧ t = { s with walkCount := 0, walkFor := c, dmx := .nextBank 0 } := by
  unfold State.startWalk at h; split at h <;> cases h; exact ⟨‹_ ∧ _›.1, ‹_ ∧ _›.2, rfl⟩

theorem State.takeLine_cases {s t : State} (h : s.takeLine = .made t) :
    s.ready = true ∧ s.lineAsserted = true ∧ s.startWalk .interrupt = .made t := by
  unfold State.takeLine at h; split at h
  · exact ⟨‹_ ∧ _›.1, ‹_ ∧ _›.2, h⟩
  · cases h

/-- In a bank with interrupts the walk's status read is of that bank's status register. -/
theorem State.walk_read {s : State} (h : s.Shaped) {b : Nat} {d : BankDesc} (hd : s.cfg.bankTable[b]? = some d)
    (hi : d.irq = true) : ∃ a w, busAddr s.cfg b .istat = .ok a ∧ s.reg b .istat = some w
      ∧ s.memRead .demux a = .ok (w, s.log (.read .demux a w)) := by
  have ha := busAddr_ok hd (r := .istat) (fun _ => hi)
  have hg := regAt_busAddr h.cfg ha
  obtain ⟨w, hw⟩ := h.reg_some hd (r := .istat) (fun _ => hi) (by simp)
  exact ⟨_, w, ha, hw, State.memRead_word h hg ((State.wordAt_bank hg).trans hw) _⟩

end Sys2Proof.Machine
end

