-- ==== Sys2Proof/Laws/Invariant.lean ====
section
/-! SUPPORT. The invariant of the machine: what it depends on, and that a context's move keeps it (spec 20_memory.md R70 to R75). -/

namespace Sys2Proof.Machine

/-! ## What the invariant says -/

/-- The invariant depends on some parts of the state only. -/
theorem State.Inv.congr {s t : State} (h : s.Inv) (hcfg : t.cfg = s.cfg) (hb : t.banks = s.banks) (hctrl : t.ctrl = s.ctrl) (hk : t.kind = s.kind)
    (hl : t.lock = s.lock) (hd : t.dmx = s.dmx) (hw : t.walkFor = s.walkFor) (hr : t.ready = s.ready) (hs : t.samples.length = s.samples.length)
    (htodo : ∀ c, (t.ctx c).todo = (s.ctx c).todo) (htmp : ∀ c, (t.ctx c).tmp = (s.ctx c).tmp) : t.Inv := by
  have wa : ∀ a, t.wordAt a = s.wordAt a := by intro a; simp only [State.wordAt, State.reg, hcfg, hb, hctrl]
  refine ⟨⟨by rw [hcfg]; exact h.shaped.cfg, by rw [hb, hcfg]; exact h.shaped.banks, by rw [hb, hcfg]; exact h.shaped.irq,
    by rw [hk, hcfg]; exact h.shaped.kinds, by rw [hs, hcfg]; exact h.shaped.samples⟩, ?_, ?_, ⟨?_, ?_, ?_⟩, ?_, ?_⟩
  · unfold State.UntypedWithoutIrq; rw [hk, hcfg]; exact h.untyped
  · unfold State.WalkPlace; rw [hd, hcfg]; exact h.place
  · intro c; rw [htodo, hd, hw]; exact h.owner.waits c
  · intro k; rw [hd, hw, htodo]; exact h.owner.normal k
  · have := htodo .interrupt; simp only [State.ctx] at this; unfold State.dispatching; rw [hd, this]; exact h.owner.between
  · rw [hr]; intro h0; obtain ⟨a, b, c, d, e⟩ := h.before h0
    refine ⟨hl.trans a, hd.trans b, (htodo .interrupt).trans c, fun c => ?_, fun c d => ?_⟩
    · rw [hcfg, htodo]; exact d c
    · rw [hcfg, htodo, htodo]; exact e c d
  · rw [hr]; intro h1 c
    obtain ⟨a, b⟩ := h.after h1 c
    refine ⟨by rw [htodo, hcfg]; exact a, ?_⟩
    rw [htodo, hl, hcfg]
    rcases b with b | ⟨t', b1, b2⟩
    · exact .inl b
    · refine .inr ⟨t', b1, ?_⟩
      intro a w e1 e2 e3; rw [htmp]; rw [hl] at e2; rw [wa] at e3; exact b2 a w e1 e2 e3

/-- Lines left that are no wait for the walk are disciplined. -/
theorem State.InProgress.disc {s : State} {c : Ctx} (h : s.InProgress c) {m l} (ht : (s.ctx c).todo = m :: l) (hm : m ≠ .awaitWalk) :
    ∃ t, Disciplined s.cfg (decide (s.lock = .held c)) t (m :: l) ∧ s.FreshRead c t := by
  rcases h.2 with h | h
  · rw [ht] at h; cases h.1; exact absurd rfl hm
  · rw [ht] at h; exact h

/-- A context that has nothing in progress, or waits for the walk, does not hold the lock. -/
theorem State.InProgress.free {s : State} {c : Ctx} (h : s.InProgress c) (ht : (s.ctx c).todo = [] ∨ (s.ctx c).todo = [.awaitWalk]) : s.lock ≠ .held c := by
  rcases h.2 with h | ⟨t, hd, -⟩
  · exact h.2
  · rcases ht with ht | ht
    · rw [ht] at hd; simpa [Disciplined] using hd
    · rw [ht] at hd; simp [Disciplined] at hd

/-- What is left of an INIT in progress: a write and the rest of INIT, or the line that sets `READY` and the answer. -/
theorem InitLines.cases {c : Cfg} {m : Micro} {l : List Micro} (h : InitLines c (m :: l)) :
    (∃ a w, m = .write a w ∧ m.Legal c ∧ InitLines c l) ∨ (m = .setReady ∧ ∃ st d msk, l = [.answer st d msk]) := by
  unfold InitLines at h
  split at h
  · cases ‹_ :: _ = _ :: _›; exact .inl ⟨_, _, rfl, h.1, h.2⟩
  · cases ‹_ :: _ = _›; exact .inr ⟨rfl, _, _, _, rfl⟩
  · cases h

/-- An INIT in progress has still to set `READY`. -/
theorem InitLines.setReady {c : Cfg} {l : List Micro} (h : InitLines c l) : Micro.setReady ∈ l := by
  induction l with
  | nil => cases h
  | cons m l ih =>
    rcases h.cases with ⟨-, -, -, -, h⟩ | ⟨rfl, -⟩
    · exact List.mem_cons_of_mem _ (ih h)
    · exact List.mem_cons_self

theorem InitLines.legal {c : Cfg} {l : List Micro} (h : InitLines c l) : ∀ m ∈ l, m.Legal c := by
  induction l with
  | nil => simp
  | cons m l ih =>
    rcases h.cases with ⟨-, -, -, hm, h⟩ | ⟨rfl, st, d, msk, rfl⟩
    · exact List.forall_mem_cons.mpr ⟨hm, ih h⟩
    · simp [Micro.Legal]

/-- The lines left before INIT has ended are legal. -/
theorem InitTail.legal {c : Cfg} {l : List Micro} (h : InitTail c l) : ∀ m ∈ l, m.Legal c := by
  rcases h with rfl | ⟨st, d, msk, rfl⟩ | h
  · simp
  · simp [Micro.Legal]
  · exact h.legal

/-- In a state that meets the invariant, the lines left of an operation in progress are legal. -/
theorem State.Inv.legal {s : State} (h : s.Inv) (c : Ctx) : ∀ m ∈ (s.ctx c).todo, m.Legal s.cfg := by
  cases hr : s.ready
  · exact ((h.before hr).tail c).legal
  · exact (h.after hr c).1

/-- A fresh read stays fresh as long as no word changes while its context holds the lock. -/
theorem wordAt_freshRead {s t : State} {d : Ctx} {x : Option Nat} (h : s.FreshRead d x) (hl : t.lock = .held d → s.lock = .held d)
    (hw : s.lock = .held d → ∀ a, t.wordAt a = s.wordAt a) (ht : (t.ctx d).tmp = (s.ctx d).tmp) : t.FreshRead d x := by
  intro a w e1 e2 e3
  rw [ht]; exact h a w e1 (hl e2) (by rw [← hw (hl e2)]; exact e3)

/-! ## A context's move keeps the invariant -/

/-- A context's move, one line of its operation, keeps the invariant. -/
theorem moveContext_inv {s t : State} {c : Ctx} (h : s.Inv) (hm : s.moveContext c = .made t) : t.Inv := by
  obtain ⟨m, l, u, htodo, hr, rfl⟩ := State.moveContext_cases hm
  have hleg := h.legal c
  rw [htodo] at hleg
  have hml : m.Legal s.cfg := hleg m (by simp)
  obtain ⟨o1, o2, o3, o4, o5, o6, o7, o8, -⟩ := Micro.run_outer hr
  obtain ⟨k1, k2, k3, k4, -⟩ := Micro.run_block hr
  have hush : u.Shaped := Micro.run_shaped h.shaped hr
  have hshape : (u.setTodo c l).Shaped := hush.setTodo c l
  have hother : ∀ d, d ≠ c → (u.setTodo c l).ctx d = s.ctx d := fun d hd => by rw [State.setTodo_ctx_ne _ hd, o7 d hd]
  have huntyped : (u.setTodo c l).UntypedWithoutIrq := by
    intro p k hk hb
    simp only [State.setTodo_kind, State.setTodo_cfg, o1] at hk hb
    by_cases hbd : ∃ q k', m = .bind q k'
    · obtain ⟨q, k', rfl⟩ := hbd
      cases hr
      simp only [State.setKind_kind, List.getElem?_set] at hk
      split at hk
      · subst ‹q = p›; have := hml.2; rw [hb] at this; cases this
      · exact h.untyped p k hk hb
    · rw [k1 (fun p k e => hbd ⟨p, k, e⟩)] at hk; exact h.untyped p k hk hb
  cases hrd : s.ready
  · have hb := h.before hrd
    have htail := hb.tail c
    rw [htodo] at htail
    have hno : ∀ d, (s.ctx d).todo ≠ [.awaitWalk] := by
      intro d hd
      have := hb.tail d
      rw [hd] at this
      rcases this with h | ⟨_, _, _, h⟩ | h <;> cases h
    have hcases : (∃ st d msk, m = .answer st d msk ∧ l = [])
        ∨ (InitLines s.cfg (m :: l) ∧ ((∃ a w, m = .write a w ∧ InitLines s.cfg l) ∨ (m = .setReady ∧ ∃ st d msk, l = [.answer st d msk]))) := by
      rcases htail with h | ⟨st, d, msk, h⟩ | h
      · cases h
      · cases h; exact .inl ⟨_, _, _, rfl, rfl⟩
      · rcases h.cases with ⟨a, w, e, -, h'⟩ | h'
        · exact .inr ⟨h, .inl ⟨a, w, e, h'⟩⟩
        · exact .inr ⟨h, .inr h'⟩
    have hkind : m ≠ .startWalk ∧ m ≠ .acquire ∧ m ≠ .release := by
      rcases hcases with ⟨_, _, _, rfl, -⟩ | ⟨-, ⟨_, _, rfl, -⟩ | ⟨rfl, -⟩⟩ <;> exact ⟨nofun, nofun, nofun⟩
    have hci : c ≠ .interrupt := by rintro rfl; exact absurd (hb.interrupt.symm.trans htodo) nofun
    have hdm : (u.setTodo c l).dmx = .idle := (State.setTodo_dmx ..).trans ((k3 hkind.1).1.trans hb.dmx)
    have hlk : (u.setTodo c l).lock = .free := (State.setTodo_lock ..).trans ((k4 hkind.2.1 hkind.2.2).trans hb.lock)
    have hcfg : (u.setTodo c l).cfg = s.cfg := (State.setTodo_cfg ..).trans o1
    have hint : (u.setTodo c l).interrupt.todo = [] := by
      have := hother .interrupt hci.symm
      simp only [State.ctx] at this; rw [this]; exact hb.interrupt
    have htodo' : ∀ d, ((u.setTodo c l).ctx d).todo = [.awaitWalk] → False := by
      intro d hd
      by_cases hdc : d = c
      · subst hdc
        simp only [State.setTodo_ctx_todo] at hd
        rcases hcases with ⟨_, _, _, -, e⟩ | ⟨-, ⟨_, _, -, e⟩ | ⟨-, _, _, _, e⟩⟩
        · rw [e] at hd; cases hd
        · rw [hd] at e; cases e
        · rw [e] at hd; cases hd
      · rw [hother d hdc] at hd; exact hno d hd
    refine ⟨hshape, huntyped, ?_, ⟨fun d hd => (htodo' d hd).elim, fun k hn => absurd hdm hn, fun _ => hint⟩, fun hf => ⟨hlk, hdm, hint, ?_, ?_⟩, ?_⟩
    · unfold State.WalkPlace; rw [hdm]; trivial
    · intro d
      by_cases hdc : d = c
      · subst hdc
        rw [State.setTodo_ctx_todo, hcfg]
        rcases hcases with ⟨_, _, _, -, e⟩ | ⟨-, ⟨_, _, -, e⟩ | ⟨-, _, _, _, e⟩⟩
        · exact .ended e
        · exact .init e
        · exact .answering _ _ _ e
      · rw [hother d hdc, hcfg]; exact hb.tail d
    · have keep : ∀ d, InitLines (u.setTodo c l).cfg ((u.setTodo c l).ctx d).todo → InitLines s.cfg (s.ctx d).todo := by
        intro d hd
        rw [hcfg] at hd
        by_cases hdc : d = c
        · subst hdc
          rw [State.setTodo_ctx_todo] at hd
          rw [htodo]
          rcases hcases with ⟨_, _, _, -, e⟩ | ⟨h, -⟩
          · rw [e] at hd; cases hd
          · exact h
        · rwa [hother d hdc] at hd
      exact fun d e hd he => hb.once d e (keep d hd) (keep e he)
    · intro hf
      have hset : m = .setReady := by
        by_contra hne; have := k2 hne; rw [State.setTodo_ready, this, hrd] at hf; cases hf
      obtain ⟨hil, st, d, msk, hl⟩ : InitLines s.cfg (m :: l) ∧ ∃ st d msk, l = [.answer st d msk] := by
        rcases hcases with ⟨_, _, _, e, -⟩ | ⟨h, ⟨_, _, e, -⟩ | ⟨-, h'⟩⟩
        · rw [hset] at e; cases e
        · rw [hset] at e; cases e
        · exact ⟨h, h'⟩
      have ended : ∀ d, ((u.setTodo c l).ctx d).todo = [] ∨ ∃ st dd msk, ((u.setTodo c l).ctx d).todo = [.answer st dd msk] := by
        intro d
        by_cases hdc : d = c
        · subst hdc; rw [State.setTodo_ctx_todo]; exact .inr ⟨_, _, _, hl⟩
        · rw [hother d hdc]
          rcases hb.tail d with h | ⟨_, _, _, h⟩ | h
          · exact .inl h
          · exact .inr ⟨_, _, _, h⟩
          · exact absurd (hb.once d c h (by rw [htodo]; exact hil)) hdc
      intro d
      unfold State.InProgress
      rcases ended d with e | ⟨_, _, _, e⟩ <;> rw [e, hlk]
      · exact ⟨by simp, .inr ⟨none, by simp [Disciplined], nofun⟩⟩
      · exact ⟨by simp [Micro.Legal], .inr ⟨none, by simp [Disciplined], nofun⟩⟩
  · have hready : (u.setTodo c l).ready = true := by
      by_cases hm : m = .setReady
      · subst hm; cases hr; simp
      · simp [k2 hm, hrd]
    have hna : m ≠ .awaitWalk := by rintro rfl; cases hr
    obtain ⟨x, hdisc, hfresh⟩ := (h.after hrd c).disc htodo hna
    have hlk := Micro.run_lock hr
    have hns : m ≠ .setReady := by rintro rfl; simp [Disciplined] at hdisc
    have hl : l = [.awaitWalk] → m = .startWalk := by
      rintro rfl
      cases m <;> simp [Disciplined] at hdisc ⊢
    have hsw : m = .startWalk → s.dmx = .idle ∧ u.dmx = .nextBank 0 ∧ u.walkFor = c ∧ l = [.awaitWalk] ∧ u.lock = s.lock := by
      rintro rfl
      obtain ⟨e, -, rfl⟩ := State.startWalk_cases hr
      simp only [Disciplined] at hdisc
      exact ⟨e, rfl, rfl, hdisc.2, rfl⟩
    have hdw : ∀ d, d ≠ c → (s.ctx d).todo = [.awaitWalk] → m ≠ .startWalk := by
      rintro d - hd rfl
      exact (h.owner.waits d hd).1 (hsw rfl).1
    refine ⟨hshape, huntyped, ?_, ⟨?_, ?_, ?_⟩, ?_, ?_⟩
    · unfold State.WalkPlace
      by_cases hsm : m = .startWalk
      · rw [State.setTodo_dmx, (hsw hsm).2.1]; exact Nat.zero_le _
      · rw [State.setTodo_dmx, (k3 hsm).1, State.setTodo_cfg, o1]; exact h.place
    · intro d hd
      by_cases hdc : d = c
      · subst hdc
        simp at hd
        have := hsw (hl hd)
        simp [this.2.1, this.2.2.1]
      · rw [hother d hdc] at hd
        have := k3 (hdw d hdc hd)
        simp only [State.setTodo_dmx, State.setTodo_walkFor, this.1, this.2.2]
        exact h.owner.waits d hd
    · intro k hd hw
      by_cases hsm : m = .startWalk
      · have := hsw hsm
        rw [State.setTodo_walkFor, this.2.2.1] at hw; subst hw
        simp [this.2.2.2.1]
      · have := k3 hsm
        simp only [State.setTodo_dmx, State.setTodo_walkFor, this.1, this.2.2] at hd hw
        have hno := h.owner.normal k hd hw
        have : c ≠ .normal k := by
          rintro rfl; rw [hno] at htodo; cases htodo; exact hna rfl
        rw [hother _ (Ne.symm this)]; exact hno
    · intro hd
      by_cases hsm : m = .startWalk
      · have hi := (hsw hsm).1
        have hno := h.owner.between (by simp [State.dispatching, hi])
        have : c ≠ .interrupt := by rintro rfl; simp only [State.ctx, hno] at htodo; cases htodo
        have := hother .interrupt (Ne.symm this)
        simp only [State.ctx] at this; rw [this]; exact hno
      · have hds : (u.setTodo c l).dispatching = s.dispatching := by
          simp [State.dispatching, (k3 hsm).1]
        rw [hds] at hd
        have hno := h.owner.between hd
        have : c ≠ .interrupt := by rintro rfl; simp only [State.ctx, hno] at htodo; cases htodo
        have := hother .interrupt (Ne.symm this)
        simp only [State.ctx] at this; rw [this]; exact hno
    · intro hf; rw [hready] at hf; cases hf
    · intro _ d
      by_cases hdc : d = c
      · subst hdc
        refine ⟨by simpa [o1] using fun m hm => hleg m (by simp [hm]), ?_⟩
        simp only [State.setTodo_lock, State.setTodo_cfg, o1, State.setTodo_ctx_todo]
        have nonef : (u.setTodo d l).FreshRead d none := by intro a w e; cases e
        by_cases hsm : m = .startWalk
        · have := hsw hsm
          subst hsm
          simp only [Disciplined] at hdisc
          left
          refine ⟨this.2.2.2.1, ?_⟩
          rw [this.2.2.2.2]; simpa using hdisc.1
        · right
          cases m with
          | acquire =>
            simp only [Disciplined] at hdisc
            exact ⟨none, by simpa [(hlk.1 rfl).2] using hdisc.2, nonef⟩
          | release =>
            simp only [Disciplined] at hdisc
            exact ⟨none, by simpa [hlk.2.1 rfl] using hdisc.2, nonef⟩
          | read a =>
            simp only [Disciplined] at hdisc
            have e := hlk.2.2 (by simp) (by simp)
            refine ⟨some a, by rw [e]; exact hdisc, ?_⟩
            intro a' w ha hk hw
            cases ha
            simp only [Micro.run] at hr
            split at hr <;> cases hr
            obtain ⟨g, hg, ⟨b, rfl, -, rfl⟩ | ⟨-, hw', rfl⟩⟩ := State.memRead_cases ‹_›
            · simp only [State.setTodo_wordAt, State.setTmp_wordAt, State.log_wordAt, State.countDraw_wordAt] at hw
              rw [State.wordAt_bank hg, State.reg_val] at hw; cases hw
            · simp only [State.setTodo_wordAt, State.setTmp_wordAt, State.log_wordAt] at hw
              rw [hw'] at hw; cases hw; simp
          | writeBit src a msk v =>
            simp only [Disciplined] at hdisc
            have e := hlk.2.2 (by simp) (by simp)
            exact ⟨none, by rw [e]; exact hdisc.2.2, nonef⟩
          | write a w =>
            simp only [Disciplined] at hdisc
            have e := hlk.2.2 (by simp) (by simp)
            exact ⟨none, by rw [e]; exact hdisc.2.2, nonef⟩
          | bind p k =>
            simp only [Disciplined] at hdisc
            cases hr
            refine ⟨x, hdisc.2, ?_⟩
            exact wordAt_freshRead hfresh (by simp) (by simp) (by simp)
          | setReady => simp [Disciplined] at hdisc
          | startWalk => exact absurd rfl hsm
          | awaitWalk => exact absurd rfl hna
          | answer st dd mm =>
            simp only [Disciplined] at hdisc
            have e := hlk.2.2 (by simp) (by simp)
            refine ⟨none, ?_, nonef⟩
            rw [e, hdisc.2]; exact hdisc.1
          | answerBit i =>
            simp only [Disciplined] at hdisc
            have e := hlk.2.2 (by simp) (by simp)
            refine ⟨none, ?_, nonef⟩
            rw [e, hdisc.2]; exact hdisc.1
      · have hd := h.after hrd d
        have hheld : (u.setTodo c l).lock = .held d ↔ s.lock = .held d := by
          rw [State.setTodo_lock]
          by_cases h1 : m = .acquire
          · have := hlk.1 h1; rw [this.1, this.2]; simp [Ne.symm hdc]
          · by_cases h2 : m = .release
            · subst h2; simp only [Disciplined] at hdisc
              have : s.lock = .held c := by simpa using hdisc.1
              rw [hlk.2.1 rfl, this]; simp [Ne.symm hdc]
            · rw [hlk.2.2 h1 h2]
        refine ⟨by rw [hother d hdc, State.setTodo_cfg, o1]; exact hd.1, ?_⟩
        rw [hother d hdc, State.setTodo_cfg, o1]
        simp only [ne_eq, hheld]
        rcases hd.2 with hd | ⟨y, hy, hfy⟩
        · exact .inl hd
        · refine .inr ⟨y, hy, wordAt_freshRead hfy hheld.mp (fun hk a => ?_) (by rw [hother d hdc])⟩
          rw [State.setTodo_wordAt]
          refine Micro.run_wordAt hml hr ?_
          have hnl : s.lock ≠ .held c := by rw [hk]; simpa using hdc
          cases m <;> simp [Micro.target]
          · simp only [Disciplined] at hdisc; simp [hnl] at hdisc
          · simp only [Disciplined] at hdisc; simp [hnl] at hdisc

end Sys2Proof.Machine
end

