-- ==== Sys2Proof/Laws/PerInstr.lean ====
section
/-! SUPPORT. Per operation: the fields of an operation's command word are its own `op`, `arg` and `idx` (spec 30_encoding.md R90, R91, R100). -/

namespace Sys2Proof.Laws.Fields

/-- The command word of a well-formed operation holds the operation's `op`, `arg` and `idx` in the three fields. -/
def Statement (i : Instr) : Prop :=
  i.wf = true → opField (encode i) = i.op ∧ argField (encode i) = i.arg ∧ idxField (encode i) = i.idx

/-- Every field of a well-formed operation fits its place. -/
theorem bounds {i : Instr} (h : i.wf = true) : i.op < 256 ∧ i.arg < 256 ∧ i.idx < 65536 := by
  cases i <;> simp [Instr.wf, idxFits, argFits, statusFits, Instr.op, Instr.arg, Instr.idx, Bool.toNat] at h ⊢ <;>
    first
      | omega
      | (rename_i v; cases v <;> simp <;> omega)

theorem statement (i : Instr) : Statement i :=
  fun h => fields_ofNat (bounds h).1 (bounds h).2.1 (bounds h).2.2

theorem locate (bank : Nat) (role : Nat) : Statement (.locate bank role) := statement _

theorem locatep (pin : Nat) (role : Nat) : Statement (.locatep pin role) := statement _

theorem incap (pin : Nat) : Statement (.incap pin) := statement _

theorem outcap (pin : Nat) : Statement (.outcap pin) := statement _

theorem valid (pin : Nat) : Statement (.valid pin) := statement _

theorem get (pin : Nat) : Statement (.get pin) := statement _

theorem set (pin : Nat) (v : Bool) : Statement (.set pin v) := statement _

theorem dirin (pin : Nat) : Statement (.dirin pin) := statement _

theorem dirout (pin : Nat) (v : Bool) : Statement (.dirout pin v) := statement _

theorem dirq (pin : Nat) : Statement (.dirq pin) := statement _

theorem tol (pin : Nat) (v : Bool) : Statement (.tol pin v) := statement _

theorem settype (pin : Nat) (kind : Nat) : Statement (.settype pin kind) := statement _

theorem mask (pin : Nat) : Statement (.mask pin) := statement _

theorem unmask (pin : Nat) : Statement (.unmask pin) := statement _

theorem ack (pin : Nat) : Statement (.ack pin) := statement _

theorem demux : Statement .demux := statement _

theorem init (cs : Nat) : Statement (.init cs) := statement _

end Sys2Proof.Laws.Fields
end

