-- ==== Sys2Proof/Tests/Slice0.lean ====
section
/-! SUPPORT. Tests of the decoder, the encoder, the checks and single steps, with expected values from the spec's own tables (95_test_vectors.md and the vectors of the rules), and one witness for every obligation that has hypotheses. -/

namespace Sys2Proof.Tests

open Sys2Proof.Machine

/-! ## States the tests run on -/

/-- A port that holds nothing. -/
def blank : Context :=
  { cmd := 0#32, op0 := 0#32, op1 := 0#32, resp := { status := 0#4, data := 0#32, mask := 0#32 }, todo := [], tmp := 0#32 }

/-- The interrupt registers after INIT, with a chosen enable and status word. -/
def irqRegs (ien istat : Word) : IrqRegs :=
  { ien := ien, type0 := 0xFFFFFFFF#32, type1 := 0#32, type2 := 0#32, istat := istat }

/-- The registers of `REF`'s banks, with chosen write-latches, enable words and status words. -/
def refBanks (l0 l1 l2 e0 e1 i0 i1 : Word) : List BankRegs :=
  [ { latch := l0, tol := 0#32, irq := some (irqRegs e0 i0) },
    { latch := l1, tol := 0#32, irq := some (irqRegs e1 i1) },
    { latch := l2, tol := 0#32, irq := none } ]

/-- An initialised controller with `REF`, all of its state written out but for the unknown levels. -/
def live : State :=
  { State.powerOn refCfg refPlatform with
    normals   := [blank]
    interrupt := blank
    ready     := true
    banks     := refBanks 0x20#32 0x1#32 0#32 0#32 0x101#32 0x9#32 0x100#32
    ctrl      := 0x000B0141#32
    line      := true }

/-- The same controller before INIT, with 24 MHz and 1 MHz in the operand registers. -/
def fresh : State := { live with normals := [{ blank with op0 := 24000000#32, op1 := 1000000#32 }], ready := false }

/-- A controller whose requester 0 of the normal context holds the lock. -/
def locked : State := { live with lock := .held (.normal 0) }

/-- A DEMUX of requester 0 of the normal context is in progress, and the walk stands at a place. -/
def walking (d : Dmx) : State :=
  { live with dmx := d, normals := [{ blank with todo := [.awaitWalk] }], kind := live.kind.set 0 .edgeRising }

/-- The dispatch of pin 0 of bank 0 is outstanding. -/
def served : State := walking (.wait 0 0x9#32 0)

/-- What an operation answered. -/
def respOf (c : Ctx) (r : Result State) : Option Resp :=
  match r with
  | .next t    => some (t.ctx c).resp
  | .fault _   => none
  | .refused _ => none

/-- The word of a register afterwards. -/
def regOf (b : Nat) (q : Role) (r : Result State) : Option Word :=
  match r with
  | .next t    => t.reg b q
  | .fault _   => none
  | .refused _ => none

/-- The events so far, newest first. -/
def traceOf (r : Result State) : List Event :=
  match r with
  | .next t    => t.trace
  | .fault _   => []
  | .refused _ => []

/-- The status and the datum requester 0 of the normal context was answered, from a command word. -/
def answered (s : State) (w : Word) : Option (BitVec 4 × Word) :=
  (respOf (.normal 0) (step { s with inputs := [.issue (.normal 0) w] })).map fun r => (r.status, r.data)

/-! ## The decoder (30_encoding.md R90, R91, R100) -/

theorem test_decode_locate : decode 0b00000001_00000110_0000000000000001#32 = .ok (.locate 1 6) := by decide
theorem test_decode_locatep : decode 0b00000010_00000111_0000000000100101#32 = .ok (.locatep 37 7) := by decide
theorem test_decode_incap : decode 0b00000011_00000000_0000000000100011#32 = .ok (.incap 35) := by decide
theorem test_decode_outcap : decode 0b00000100_00000000_0000000000100011#32 = .ok (.outcap 35) := by decide
theorem test_decode_valid : decode 0b00000101_00000000_0000000001000111#32 = .ok (.valid 71) := by decide
theorem test_decode_get : decode 0b00010000_10101011_0000000000000101#32 = .ok (.get 5) := by decide
theorem test_decode_set : decode 0b00010001_00000001_0000000000100011#32 = .ok (.set 35 true) := by decide
theorem test_decode_set_bit : decode 0b00010001_00000010_0000000000000101#32 = .ok (.set 5 false) := by decide
theorem test_decode_dirin : decode 0b00010010_00000000_0000000000110010#32 = .ok (.dirin 50) := by decide
theorem test_decode_dirout : decode 0b00010011_00000001_0000000001001000#32 = .ok (.dirout 72 true) := by decide
theorem test_decode_dirq : decode 0b00010100_00000000_0000000001000111#32 = .ok (.dirq 71) := by decide
theorem test_decode_tol : decode 0b00010101_00000001_0000000000100101#32 = .ok (.tol 37 true) := by decide
theorem test_decode_settype : decode 0b00100000_00000011_0000000000101000#32 = .ok (.settype 40 3) := by decide
theorem test_decode_mask : decode 0b00100001_00000000_0000000000101000#32 = .ok (.mask 40) := by decide
theorem test_decode_unmask : decode 0b00100010_00000000_0000000000101000#32 = .ok (.unmask 40) := by decide
theorem test_decode_ack : decode 0b00100011_00000000_0000000000000011#32 = .ok (.ack 3) := by decide
theorem test_decode_demux : decode 0b00100100_00000000_0000000000000000#32 = .ok .demux := by decide
theorem test_decode_init : decode 0b00110000_00000010_0000000000000000#32 = .ok (.init 2) := by decide

/-- The ends of the unassigned ranges of `op` (30_encoding.md R100, R101). -/
theorem test_decode_unassigned :
    [0x00000000#32, 0x06000000#32, 0x0F000000#32, 0x16000000#32, 0x1F000000#32, 0x25000000#32, 0x2F000000#32,
      0x31000000#32, 0xFFFFFFFF#32].map decode
      = [0x00, 0x06, 0x0F, 0x16, 0x1F, 0x25, 0x2F, 0x31, 0xFF].map fun op => .error (.unassignedOp op) := by decide

theorem test_encode_settype : encode (.settype 40 3) = 0x20030028#32 := by decide
theorem test_table_word : decodeTableWord 32 0x13010048 = some (.dirout 72 true) := by decide
theorem test_table_word_unassigned : decodeTableWord 32 0x06000000 = none := by decide

/-! ## Ill-formed terms are refused (30_encoding.md R90, R91, 00_scope.md R11) -/

theorem test_pin_too_wide : (Instr.get 65536).wf = false := by decide
theorem test_role_too_wide : (Instr.locate 0 256).wf = false := by decide
theorem test_kind_too_wide : (Instr.settype 0 256).wf = false := by decide
theorem test_status_too_wide : (Instr.init 4).wf = false := by decide

/-- `REF` is well formed, with 20 registers (20_memory.md R56). -/
theorem test_ref_is_well_formed : cfgWf refCfg = true ∧ (regMap refCfg).length = 20 := by decide

/-- (a): pins that no bank covers. -/
theorem test_cfg_uncovered : cfgWf { refCfg with ngpio := 97 } = false := by decide
theorem test_cfg_no_pin : cfgWf { refCfg with ngpio := 0 } = false := by decide
/-- (b): an offset that is no multiple of 4. -/
theorem test_cfg_misaligned : cfgWf { refCfg with ctrl := { refCfg.ctrl with offset := 0x56 } } = false := by decide
theorem test_cfg_base_misaligned : cfgWf { refCfg with regBase := 2 } = false := by decide
/-- (c): the control register at bank 1's tolerance register. -/
theorem test_cfg_overlap : cfgWf { refCfg with ctrl := { refCfg.ctrl with offset := 0x34 } } = false := by decide
/-- Overlapping fields of the control register. -/
theorem test_cfg_fields_overlap : cfgWf { refCfg with ctrl := { refCfg.ctrl with fbLsb := 15 } } = false := by decide
theorem test_cfg_field_narrow : cfgWf { refCfg with ctrl := { refCfg.ctrl with fbW := 3 } } = false := by decide

/-! ## The locator and the capabilities (95_test_vectors.md V410, V411) -/

theorem test_locate_istat : respOf (.normal 0) (exec (.locate 1 6) live) = some ⟨0#4, 0x30#32, 0#32⟩ := by decide
theorem test_locate_no_interrupts : exec (.locate 2 2) live = .fault .contractViolation := by rfl
theorem test_locatep_tol : respOf (.normal 0) (exec (.locatep 37 7) live) = some ⟨0#4, 0x34#32, 0x20#32⟩ := by decide
theorem test_locatep_out_of_range : respOf (.normal 0) (exec (.locatep 80 0) live) = some ⟨2#4, 0#32, 0#32⟩ := by decide
theorem test_incap : [35, 48, 71, 72].map (fun p => respOf (.normal 0) (exec (.incap p) fresh))
    = [0#32, 1#32, 0#32, 0#32].map fun d => some ⟨0#4, d, 0#32⟩ := by decide
theorem test_outcap : [47, 48, 70, 78].map (fun p => respOf (.normal 0) (exec (.outcap p) fresh))
    = [1#32, 0#32, 0#32, 1#32].map fun d => some ⟨0#4, d, 0#32⟩ := by decide
theorem test_valid : [31, 70, 71, 80].map (fun p => respOf (.normal 0) (exec (.valid p) fresh))
    = [1#32, 1#32, 0#32, 0#32].map fun d => some ⟨0#4, d, 0#32⟩ := by decide

/-! ## Pin I/O (V412, V413) -/

theorem test_get : respOf (.normal 0) (exec (.get 5) live) = some ⟨0#4, 1#32, 0#32⟩ := by decide
theorem test_get_event : traceOf (exec (.get 35) live) = [.read (.op (.normal 0)) 0x74 1#32] := by decide
theorem test_set : regOf 1 .latch (exec (.set 35 true) live) = some 9#32 := by decide
theorem test_set_events : traceOf (exec (.set 35 true) live)
    = [.write (.op (.normal 0)) 0x1C 9#32, .read (.op (.normal 0)) 0x74 1#32] := by decide
theorem test_dirin : [5, 50, 35, 71].map (fun p => answered live (0x12000000#32 ||| BitVec.ofNat 32 p))
    = [0#4, 0#4, 1#4, 1#4].map fun k => some (k, 0#32) := by decide
theorem test_dirout : regOf 2 .latch (exec (.dirout 72 true) live) = some 0x100#32 := by decide
theorem test_dirout_not_supported : respOf (.normal 0) (exec (.dirout 64 true) live) = some ⟨1#4, 0#32, 0#32⟩ := by decide
theorem test_dirq : [5, 50, 35, 71].map (fun p => answered live (0x14000000#32 ||| BitVec.ofNat 32 p))
    = [some (0#4, 0#32), some (0#4, 1#32), some (0#4, 0#32), some (1#4, 0#32)] := by decide
theorem test_tol : regOf 1 .tol (exec (.tol 37 true) live) = some 0x20#32 := by decide
theorem test_tol_events : traceOf (exec (.tol 71 true) live)
    = [.write (.op (.normal 0)) 0x50 0x80#32, .read (.op (.normal 0)) 0x50 0#32] := by decide

/-! ## Interrupt control (V414) -/

theorem test_settype_both : [Role.type0, .type1, .type2].map (fun q => regOf 1 q (exec (.settype 40 3) live))
    = [some 0xFFFFFFFF#32, some 0#32, some 0x100#32] := by decide
theorem test_settype_low_events : traceOf (exec (.settype 40 8) live)
    = [.write (.op (.normal 0)) 0x2C 0#32, .read (.op (.normal 0)) 0x2C 0#32, .write (.op (.normal 0)) 0x28 0x100#32,
       .read (.op (.normal 0)) 0x28 0#32, .write (.op (.normal 0)) 0x24 0xFFFFFEFF#32, .read (.op (.normal 0)) 0x24 0xFFFFFFFF#32] := by decide
theorem test_mask : regOf 1 .ien (exec (.mask 40) live) = some 1#32 := by decide
theorem test_mask_no_interrupts : traceOf (exec (.mask 70) live) = [] := by decide
theorem test_unmask : regOf 1 .ien (exec (.unmask 35) live) = some 0x109#32 := by decide
theorem test_ack : regOf 0 .istat (exec (.ack 3) live) = some 1#32 := by decide
theorem test_ack_events : traceOf (exec (.ack 3) live) = [.write (.op (.normal 0)) 0x14 8#32] := by decide

/-! ## The demultiplexer (V415) -/

theorem test_demux_not_ready : respOf (.normal 0) (exec .demux fresh) = some ⟨7#4, 0#32, 0#32⟩ := by decide
/-- Bits 0 and 3 of bank 0 and bit 8 of bank 1 are pending; the mask of bank 0 is not looked at. -/
theorem test_demux_events : walkEvents { live with kind := live.kind.set 3 .levelLow } 0 refBankTable
    = [.read .demux 0x14 9#32, .dispatch 0 .none, .dispatch 3 .level, .read .demux 0x30 0x100#32, .dispatch 40 .none] := by decide
theorem test_consumer_returns : (match step { served with inputs := [.consumerDone] } with
    | .next t    => some (t.dmx, t.walkCount)
    | .fault _   => none
    | .refused _ => none) = some (.scan 0 9#32 1, 1) := by decide

/-- A pin stands on the dispatch port as a 16-bit number (30_encoding.md R97). -/
theorem test_dispatch_pin : (live.dispatch 40).trace = [.dispatch 0x0028#16 .none] := by decide

/-! ## Requesters of the normal context (20_memory.md R70 to R72, 60_exceptions.md R292) -/

/-- Requester 0 has released the lock of SETTYPE 40, edge-rising, and has not bound the kind yet. -/
def binding : State := { live with normals := [{ blank with todo := [.bind 40 .edgeRising, answerOk] }] }

/-- Another requester's SETTYPE 40, edge-falling, falls in between: it runs to its end, and the first requester's binding is still to come. -/
theorem test_requesters_interleave : (match step { binding with inputs := [.issue (.normal 1) 0x20020028#32] } with
    | .next t    => some (t.kind[40]?, (t.ctx (.normal 1)).resp, (t.ctx (.normal 0)).todo)
    | .fault _   => none
    | .refused _ => none) = some (some .edgeFalling, ⟨0#4, 0#32, 0#32⟩, [.bind 40 .edgeRising, answerOk]) := by decide
/-- Another requester's locked section waits while requester 0 holds the lock: nothing but its port has changed. -/
theorem test_requester_waits_for_the_lock : (match step { locked with inputs := [.issue (.normal 1) 0x11010021#32] } with
    | .next t    => some (t.lock, t.trace, (t.ctx (.normal 1)).todo.head?)
    | .fault _   => none
    | .refused _ => none) = some (.held (.normal 0), [], some .acquire) := by decide
/-- A second INIT waits for the one in progress: the block goes on with that one, and the command stays in the queue. -/
theorem test_second_init_waits : (match step { fresh with
      normals := [{ blank with todo := [.setReady, answerOk] }], inputs := [.issue (.normal 1) 0x30000000#32] } with
    | .next t    => some (t.ready, t.inputs)
    | .fault _   => none
    | .refused _ => none) = some (true, [.issue (.normal 1) 0x30000000#32]) := by decide

/-! ## The environment (20_memory.md R68, 43_irq_control.md R199) -/

/-- Bank 1 with chosen type0 and type1, its pins sampled low, in matched surroundings. -/
def watched (t0 t1 : Word) : State :=
  { live with
    platform := { refPlatform with status := .matched }
    samples  := List.replicate 3 { level := 0#32, edges := 0#32, holds := 0#32 }
    banks    := (refBanks 0#32 0#32 0#32 0#32 0#32 0#32 0#32).modify 1 fun k => (k.put .type0 t0).put .type1 t1 }

/-- A rise under edge-rising sets once, and not again after the bit is cleared. -/
theorem test_edge_sets_once :
    let s := ((watched 0xFFFFFFFF#32 0#32).pinChange 1 0x80000000#32).statusSet 1 0xFFFFFFFF#32
    s.reg 1 .istat = some 0x80000000#32 ∧ ((s.putReg 1 .istat 0#32).statusSet 1 0xFFFFFFFF#32).reg 1 .istat = some 0#32 := by decide
/-- A rise under edge-falling is none for the edge-rising that comes later; a rise under edge-rising stays one. -/
theorem test_edge_is_matched_at_the_sample :
    ((((watched 0#32 0#32).pinChange 1 1#32).putReg 1 .type0 0xFFFFFFFF#32).statusSet 1 0xFFFFFFFF#32).reg 1 .istat = some 0#32
      ∧ ((((watched 0xFFFFFFFF#32 0#32).pinChange 1 1#32).putReg 1 .type0 0#32).statusSet 1 0xFFFFFFFF#32).reg 1 .istat = some 1#32 := by
  decide
/-- A level sets again while it lasts, and no longer. -/
theorem test_level_sets_again :
    let s := ((watched 0xFFFFFFFF#32 0xFFFFFFFF#32).pinChange 1 1#32).statusSet 1 0xFFFFFFFF#32
    s.reg 1 .istat = some 1#32 ∧ ((s.putReg 1 .istat 0#32).statusSet 1 0xFFFFFFFF#32).reg 1 .istat = some 1#32
      ∧ (((s.putReg 1 .istat 0#32).pinChange 1 0#32).statusSet 1 0xFFFFFFFF#32).reg 1 .istat = some 0#32 := by decide

/-! ## The initializer (V416, V417) -/

theorem test_init : respOf (.normal 0) (exec (.init 0) fresh) = some ⟨0#4, 0x000B0141#32, 0#32⟩ := by decide
theorem test_init_events : (traceOf (exec (.init 0) fresh)).length = 14
    ∧ (traceOf (exec (.init 0) fresh)).head? = some (.write (.op (.normal 0)) 0x50 0#32) := by decide
theorem test_divisor : [(24000000, 0), (25000000, 1000000), (24999999, 1000000), (2000000, 1000000), (0, 1000000),
      (131072000, 1000), (131074000, 1000), (4294967295, 1), (4294967295, 4294967295)].map (fun x => divisor x.1 x.2)
    = [11, 12, 11, 1, 1, 65535, 65535, 65535, 1] := by decide
theorem test_frame_bytes : [1, 15, 31, 32, 80, 159, 160, 176, 192].map frameBytes = [1, 1, 1, 2, 5, 9, 10, 10, 10] := by decide

/-! ## Check order (V418) -/

theorem test_order_not_ready : [0x00000000#32, 0x10000050#32, 0x24000000#32, 0x03000023#32, 0x30010000#32, 0x30030000#32].map (answered fresh)
    = [some (2#4, 0#32), some (7#4, 0#32), some (7#4, 0#32), some (0#4, 0#32), some (3#4, 0#32), some (2#4, 0#32)] := by decide
theorem test_order_ready : [0xFFFFFFFF#32, 0x11010050#32, 0x12000050#32, 0x2007FFFF#32, 0x20070046#32, 0x20070006#32, 0x30010000#32].map
      (answered live)
    = [some (2#4, 0#32), some (2#4, 0#32), some (2#4, 0#32), some (2#4, 0#32), some (1#4, 0#32), some (2#4, 0#32), some (2#4, 0#32)] := by decide

/-! ## Bytes and reset -/

/-- Bits 7:0 of a register stand at its lowest address (20_memory.md R52). -/
theorem test_bytes : [0x54, 0x55, 0x56, 0x57, 0x58].map live.byteAt
    = [some 0x41#8, some 0x01#8, some 0x0B#8, some 0x00#8, none] := by decide
/-- From reset, whatever the unknown words, INIT makes the controller ready. -/
theorem test_init_from_reset : (match step (State.reset.withFetchWord 32 0x30000000) with
    | .next t    => t.ready
    | .fault _   => false
    | .refused _ => false) = true := by decide

/-! ## The states meet the premises -/

theorem live_shaped : live.Shaped where
  cfg     := by decide
  banks   := by decide
  irq     := by
    intro b k h
    match b, h with
    | 0, h => cases h; rfl
    | 1, h => cases h; rfl
    | 2, h => cases h; rfl
    | b + 3, h => simp [live, refBanks] at h
  kinds   := by decide
  samples := by decide

/-- The shape depends on the configuration, the registers, the types and the samples alone. -/
theorem shaped_of {s : State} (hc : s.cfg = live.cfg) (hb : s.banks = live.banks) (hk : s.kind.length = 80)
    (hs : s.samples.length = 3) : s.Shaped where
  cfg     := hc ▸ live_shaped.cfg
  banks   := hb ▸ hc ▸ live_shaped.banks
  irq     := hb ▸ hc ▸ live_shaped.irq
  kinds   := hc ▸ hk
  samples := hc ▸ hs

theorem live_quiet : live.Quiet := ⟨rfl, rfl⟩

theorem untyped_of {s : State} (hc : s.cfg = live.cfg) (h : s.kind = live.kind ∨ s.kind = live.kind.set 0 .edgeRising) :
    s.UntypedWithoutIrq := by
  intro p k hk hb
  have : ∀ (p : Nat) (k : Kind), live.kind[p]? = some k → k = Kind.unset := by
    intro p k h
    exact List.eq_of_mem_replicate (List.mem_of_getElem? h)
  rcases h with h | h
  · rw [h] at hk; exact this p k hk
  · rw [h] at hk
    match p, hk with
    | 0, _ => rw [hc] at hb; exact absurd hb (by decide)
    | p + 1, hk => exact this (p + 1) k (by simpa using hk)

/-- Of the requesters of the normal context, one is listed; the others have nothing in progress. -/
theorem todo_of {s : State} {x : Context} (hn : s.normals = [x]) (hi : s.interrupt = blank) {c : Ctx} (h : (s.ctx c).todo ≠ []) :
    c = .normal 0 ∧ s.ctx c = x := by
  match c with
  | .normal 0       => exact ⟨rfl, by simp [State.ctx, requester, hn]⟩
  | .normal (k + 1) => exact absurd (by simp [State.ctx, requester, hn, Context.unspecified]) h
  | .interrupt      => exact absurd (by simp [State.ctx, hi, blank]) h

/-- A context with nothing in progress that does not hold the lock does what the invariant asks for. -/
theorem idle_progress {s : State} {c : Ctx} (h : (s.ctx c).todo = []) (hl : s.lock ≠ .held c) : s.InProgress c := by
  unfold State.InProgress
  rw [h]
  exact ⟨by simp, .inr ⟨none, by simpa [Disciplined] using hl, nofun⟩⟩

theorem live_idle (c : Ctx) : (live.ctx c).todo = [] := by
  by_contra h
  obtain ⟨-, e⟩ := todo_of (x := blank) rfl rfl h
  exact h (by rw [e]; rfl)

/-- An initialised controller with nothing in progress meets the invariant. -/
theorem live_inv : live.Inv where
  shaped  := live_shaped
  untyped := untyped_of rfl (.inl rfl)
  place   := trivial
  owner   := ⟨fun c h => absurd ((live_idle c).symm.trans h) nofun, fun _ h => absurd rfl h, fun _ => rfl⟩
  before  := nofun
  after   := fun _ c => idle_progress (live_idle c) nofun

theorem walking_shaped (d : Dmx) : (walking d).Shaped :=
  shaped_of rfl rfl (by simp [walking, live, State.powerOn, refCfg]) (by rfl)

/-- A controller in the middle of an invocation meets the invariant. -/
theorem walking_inv {d : Dmx} (hd : d ≠ .idle) (hp : (walking d).WalkPlace) : (walking d).Inv where
  shaped  := walking_shaped d
  untyped := untyped_of rfl (.inr rfl)
  place   := hp
  owner   := ⟨fun c h => ⟨hd, ((todo_of rfl rfl (by rw [h]; nofun)).1).symm⟩, fun k _ h => by cases h; rfl, fun _ => rfl⟩
  before  := nofun
  after   := fun _ c => by
    by_cases h : ((walking d).ctx c).todo = []
    · exact idle_progress h nofun
    · obtain ⟨rfl, -⟩ := todo_of rfl rfl h
      exact ⟨by simp [walking, State.ctx, requester, Micro.Legal], .inl ⟨rfl, nofun⟩⟩

theorem served_inv : served.Inv := walking_inv (d := .wait 0 0x9#32 0) nofun ⟨by decide, by decide, by decide⟩

/-- A controller between the read half and the write half of SET 35, 1. -/
def updating : State :=
  { live with
    lock    := .held (.normal 0)
    normals := [{ blank with tmp := 1#32, todo := [.writeBit 0x74 0x1C (maskOf 35) true, .release, answerOk] }] }

theorem updating_inv : updating.Inv where
  shaped  := shaped_of rfl rfl (by decide) (by decide)
  untyped := untyped_of rfl (.inl rfl)
  place   := trivial
  owner   := ⟨fun c h => by obtain ⟨rfl, -⟩ := todo_of rfl rfl (c := c) (s := updating) (by rw [h]; nofun); exact absurd h (by decide),
    fun _ h => absurd rfl h, fun _ => rfl⟩
  before  := nofun
  after   := fun _ c => by
    by_cases h : (updating.ctx c).todo = []
    · exact idle_progress h (by rintro e; cases e; exact absurd h nofun)
    · obtain ⟨rfl, -⟩ := todo_of rfl rfl h
      refine ⟨?_, .inr ⟨some 0x74, ⟨by decide, rfl, by decide, rfl, rfl⟩, ?_⟩⟩
      · intro m hm
        have hm : m ∈ [.writeBit 0x74 0x1C (maskOf 35) true, .release, answerOk] := hm
        simp only [List.mem_cons, List.not_mem_nil, or_false] at hm
        rcases hm with rfl | rfl | rfl
        · exact ⟨35, by decide, rfl, .inl ⟨by decide, by decide, by decide⟩⟩
        · trivial
        · trivial
      · intro a w h _ hw
        cases h
        have : updating.wordAt 0x74 = some 1#32 := by decide
        rw [this] at hw; cases hw; rfl

/-- The queue of inputs is no part of the invariant. -/
theorem inv_inputs {s : State} (h : s.Inv) (l : List Input) : ({ s with inputs := l } : State).Inv :=
  h.congr rfl rfl rfl rfl rfl rfl rfl rfl rfl (fun c => by cases c <;> rfl) (fun c => by cases c <;> rfl)

/-- A controller with an ill-formed configuration. -/
def defective : State := { live with cfg := { refCfg with ngpio := 97 } }

/-! ## Witnesses: the premises of each obligation hold together

Where an obligation has clauses over a pin, the pins stand at the ends of the clause's range. -/

theorem witness_DecodeInvertsEncode :
    [Instr.locate 65535 255, .locatep 65535 255, .incap 65535, .outcap 65535, .valid 65535, .get 65535, .set 65535 true, .dirin 65535,
      .dirout 65535 true, .dirq 65535, .tol 65535 true, .settype 65535 255, .mask 65535, .unmask 65535, .ack 65535, .demux, .init 3].all
      Instr.wf = true := by decide

theorem witness_IgnoredBitsNeverMatter :
    decode 0x10AB0005#32 = .ok (.get 5) ∧ (0x10AB0005#32 ^^^ 0x10000005#32) &&& (Instr.get 5).readBits = 0#32 := by decide

theorem witness_UnassignedOpEndsWithInvalidArgument :
    cfgWf live.cfg = true ∧ ({ live with inputs := [.issue (.normal 0) 0x06000000#32] } : State).mayIssue (.normal 0) 0x06000000#32 = true
      ∧ ({ served with inputs := [.issue .interrupt 0xFFFFFFFF#32] } : State).mayIssue .interrupt 0xFFFFFFFF#32 = true
      ∧ decode 0x06000000#32 = .error (.unassignedOp 6) ∧ decode 0xFFFFFFFF#32 = .error (.unassignedOp 255) := by decide

theorem witness_StepRunsDecodedOperation :
    cfgWf live.cfg = true ∧ ({ live with inputs := [.issue (.normal 0) 0x10000005#32] } : State).mayIssue (.normal 0) 0x10000005#32 = true
      ∧ ({ served with inputs := [.issue .interrupt 0x23000000#32] } : State).mayIssue .interrupt 0x23000000#32 = true
      ∧ decode 0x10000005#32 = .ok (.get 5) ∧ decode 0x23000000#32 = .ok (.ack 0)
      ∧ live.mayIssue (.normal 0) 0x10000005#32 = true ∧ live.mayIssue (.normal 7) 0x10000005#32 = true
      ∧ fresh.mayIssue (.normal 0) 0x30000000#32 = true ∧ decode 0x30000000#32 = .ok (.init 0) := by decide

theorem witness_IllFormedConfigurationIsRefused : cfgWf defective.cfg = false ∧ cfgWf refCfg = true := by decide

theorem witness_LocatorIsInjective :
    live.Shaped ∧ locate live.cfg 1 (roleCode .istat) = .ok 0x30 ∧ locate live.cfg 2 (roleCode .val) = .ok 0x38
      ∧ (∃ t, live.memWrite .demux (live.cfg.regBase + 0x30) 1#32 = .ok t)
      ∧ ∃ t, live.memWrite .demux (live.cfg.regBase + 0x38) 1#32 = .ok t :=
  ⟨live_shaped, by decide, by decide, ⟨_, rfl⟩, ⟨_, rfl⟩⟩

theorem witness_LocateAnswersOffset :
    live.Idle ∧ nbanks live.cfg ≤ 3
      ∧ (∃ d, live.cfg.bankTable[2]? = some d ∧ d.irq = false ∧ isIrqRole .istat = true ∧ isIrqRole .tol = false ∧ 8 ≤ 8)
      ∧ ∃ d, live.cfg.bankTable[0]? = some d ∧ (isIrqRole .istat = true → d.irq = true) ∧ roleCode .istat = 6 :=
  ⟨rfl, by decide, ⟨_, rfl, by decide⟩, ⟨_, rfl, by decide⟩⟩

theorem witness_LocatepAnswersOffsetAndMask :
    live.Idle ∧ cfgWf live.cfg = true ∧ live.cfg.ngpio ≤ 80 ∧ 79 < live.cfg.ngpio
      ∧ (∃ d, live.cfg.bankTable[79 / 32]? = some d ∧ d.irq = false ∧ isIrqRole .ien = true ∧ isIrqRole .val = false)
      ∧ ∃ d, live.cfg.bankTable[63 / 32]? = some d ∧ (isIrqRole .ien = true → d.irq = true) ∧ roleCode .ien = 2 :=
  ⟨rfl, by decide, by decide, by decide, ⟨_, rfl, by decide⟩, ⟨_, rfl, by decide⟩⟩

theorem witness_AbsentBankIsFullyCapable :
    (∀ e ∈ refCfg.capTable.takeWhile (fun e => !isSentinel e), e.bank ≠ 0 / 32)
      ∧ ∀ e ∈ refCfg.capTable.takeWhile (fun e => !isSentinel e), e.bank ≠ 31 / 32 := by decide

theorem witness_PresentBankHasExactlyItsMasks :
    ∃ before after e, refCfg.capTable = before ++ e :: after ∧ (∀ x ∈ before, isSentinel x = false ∧ x.bank ≠ 79 / 32)
      ∧ isSentinel e = false ∧ e.bank = 79 / 32 :=
  ⟨[⟨1, 0xFFFF0000#32, 0x0000FFFF#32⟩], [⟨0, 0#32, 0#32⟩], ⟨2, 0x0000007F#32, 0x00007F00#32⟩, rfl, by decide, by decide, by decide⟩

theorem witness_CapabilityOperationsAnswer : live.Idle ∧ 79 < live.cfg.ngpio ∧ live.cfg.ngpio ≤ 80 := ⟨rfl, by decide, by decide⟩

theorem witness_GetOnOutputPinReadsLatch :
    live.Shaped ∧ live.Idle ∧ live.ready = true ∧ 0 < live.cfg.ngpio ∧ 78 < live.cfg.ngpio
      ∧ outputCapable live.cfg 0 = true ∧ outputCapable live.cfg 78 = true :=
  ⟨live_shaped, rfl, rfl, by decide, by decide, by decide, by decide⟩

theorem witness_GetOnOtherPinReadsDraw :
    live.Shaped ∧ live.Idle ∧ live.ready = true ∧ 48 < live.cfg.ngpio ∧ 79 < live.cfg.ngpio
      ∧ outputCapable live.cfg 48 = false ∧ outputCapable live.cfg 79 = false :=
  ⟨live_shaped, rfl, rfl, by decide, by decide, by decide, by decide⟩

theorem witness_SetWritesCombinedWord :
    live.Shaped ∧ live.Quiet ∧ live.ready = true ∧ 31 < live.cfg.ngpio ∧ 78 < live.cfg.ngpio
      ∧ outputCapable live.cfg 31 = true ∧ outputCapable live.cfg 78 = true :=
  ⟨live_shaped, live_quiet, rfl, by decide, by decide, by decide, by decide⟩

theorem witness_SetOnOtherPinDoesNothing :
    live.Idle ∧ live.ready = true ∧ 48 < live.cfg.ngpio ∧ 79 < live.cfg.ngpio
      ∧ outputCapable live.cfg 48 = false ∧ outputCapable live.cfg 79 = false :=
  ⟨rfl, rfl, by decide, by decide, by decide, by decide⟩

theorem witness_GetReturnsWhatWasSet :
    live.Shaped ∧ live.Quiet ∧ live.ready = true ∧ 47 < live.cfg.ngpio ∧ outputCapable live.cfg 47 = true :=
  ⟨live_shaped, live_quiet, rfl, by decide, by decide⟩

theorem witness_DirectionFailsExactlyWithoutCapability :
    live.Shaped ∧ live.Idle ∧ live.lock = .free ∧ live.ready = true ∧ 79 < live.cfg.ngpio
      ∧ inputCapable live.cfg 70 = true ∧ outputCapable live.cfg 70 = false
      ∧ inputCapable live.cfg 72 = false ∧ outputCapable live.cfg 72 = true
      ∧ inputCapable live.cfg 79 = false ∧ outputCapable live.cfg 79 = false
      ∧ inputCapable live.cfg 0 = true ∧ outputCapable live.cfg 0 = true :=
  ⟨live_shaped, rfl, rfl, rfl, by decide⟩

theorem witness_DirectionQueryPrefersOutput :
    live.Idle ∧ live.ready = true ∧ 79 < live.cfg.ngpio ∧ outputCapable live.cfg 0 = true
      ∧ outputCapable live.cfg 70 = false ∧ inputCapable live.cfg 70 = true
      ∧ outputCapable live.cfg 79 = false ∧ inputCapable live.cfg 79 = false :=
  ⟨rfl, rfl, by decide⟩

theorem witness_TolChangesOneBit : live.Shaped ∧ live.Quiet ∧ live.ready = true ∧ 0 < live.cfg.ngpio ∧ 79 < live.cfg.ngpio :=
  ⟨live_shaped, live_quiet, rfl, by decide, by decide⟩

theorem witness_SettypeWritesPatternAndBinds :
    live.Shaped ∧ live.Quiet ∧ live.ready = true ∧ 63 < live.cfg.ngpio ∧ bankIrq live.cfg (0 / 32) = true
      ∧ bankIrq live.cfg (63 / 32) = true
      ∧ kindOfCode 1 = some .edgeRising ∧ typeBitsOf .edgeRising = some ⟨true, false, false⟩
      ∧ kindOfCode 8 = some .levelLow ∧ typeBitsOf .levelLow = some ⟨false, true, false⟩ :=
  ⟨live_shaped, live_quiet, rfl, by decide⟩

theorem witness_SettypeRejections :
    live.Idle ∧ live.ready = true ∧ 79 < live.cfg.ngpio ∧ bankIrq live.cfg (64 / 32) = false ∧ bankIrq live.cfg (79 / 32) = false
      ∧ bankIrq live.cfg (63 / 32) = true ∧ 0 ∉ [1, 2, 3, 4, 8] ∧ 7 ∉ [1, 2, 3, 4, 8] ∧ 255 ∉ [1, 2, 3, 4, 8] :=
  ⟨rfl, rfl, by decide⟩

theorem witness_MaskAndUnmaskChangeOneBit :
    live.Shaped ∧ live.Quiet ∧ live.ready = true ∧ 63 < live.cfg.ngpio ∧ bankIrq live.cfg (0 / 32) = true
      ∧ bankIrq live.cfg (63 / 32) = true :=
  ⟨live_shaped, live_quiet, rfl, by decide⟩

theorem witness_MaskWithoutInterruptsDoesNothing :
    live.Idle ∧ live.ready = true ∧ 79 < live.cfg.ngpio ∧ bankIrq live.cfg (64 / 32) = false ∧ bankIrq live.cfg (79 / 32) = false :=
  ⟨rfl, rfl, by decide⟩

theorem witness_AckClearsOneStatusBit :
    live.Shaped ∧ live.Quiet ∧ live.ready = true ∧ 79 < live.cfg.ngpio ∧ bankIrq live.cfg (63 / 32) = true
      ∧ bankIrq live.cfg (64 / 32) = false :=
  ⟨live_shaped, live_quiet, rfl, by decide⟩

theorem witness_DemuxStartsWalkOrWaits :
    live.ready = true ∧ live.dmx = .idle ∧ live.deliveryMasked = false ∧ served.ready = true ∧ served.dmx ≠ .idle
      ∧ locked.ready = true ∧ locked.deliveryMasked = true := by decide

theorem witness_WalkVisitsInterruptBanks :
    (walking (.nextBank 0)).Shaped ∧ (walking (.nextBank 2)).Shaped
      ∧ (∃ d, live.cfg.bankTable[0]? = some d ∧ d.irq = true) ∧ ∃ d, live.cfg.bankTable[2]? = some d ∧ d.irq = false :=
  ⟨walking_shaped _, walking_shaped _,
    ⟨_, rfl, rfl⟩, ⟨_, rfl, rfl⟩⟩

/-- A full scan, a clear last bit, a set last bit of a pin in range, and the first pin beyond the range. -/
theorem witness_WalkScansBitsInOrder :
    (∀ d, (walking d).deliveryMasked = false) ∧ (0x7FFFFFFF#32).getLsbD 31 = false ∧ (0x80000000#32).getLsbD 31 = true
      ∧ 1 * 32 + 31 < live.cfg.ngpio ∧ (walking (.scan 1 0x80000000#32 31)).kind[1 * 32 + 31]? = some .unset
      ∧ live.cfg.ngpio ≤ 2 * 32 + 16 ∧ (0x10000#32).getLsbD 16 = true :=
  ⟨fun _ => rfl, by decide⟩

theorem witness_WalkReturnsAndFinishes :
    cfgWf served.cfg = true ∧ served.dmx = .wait 0 9#32 0 ∧ served.interrupt.todo = []
      ∧ (walking (.nextBank 3)).dmx = .nextBank (nbanks live.cfg) := by decide

theorem witness_DemuxServesEveryPendingBit :
    live.Shaped ∧ live.ready = true ∧ live.dmx = .idle ∧ live.lock = .free ∧ (∀ c, (live.ctx c).todo = [])
      ∧ decode 0x24000000#32 = .ok .demux
      ∧ ((walkEvents live 0 live.cfg.bankTable).filter isDispatch).length = [Input.consumerDone, .consumerDone, .consumerDone].length :=
  ⟨live_shaped, rfl, rfl, rfl, live_idle, by decide⟩

/-- A dispatch of the bit at which the scan stands, and a return. -/
theorem witness_DispatchesAscend :
    (walking (.scan 0 9#32 3)).Inv ∧ (∃ t, step (walking (.scan 0 9#32 3)) = .next t ∧ walkPin t.dmx = some 4)
      ∧ walkPin (Dmx.scan 0 9#32 3) = some 3 ∧ ({ served with inputs := [.consumerDone] } : State).Inv
      ∧ ∃ t, step { served with inputs := [.consumerDone] } = .next t ∧ walkPin t.dmx = some 1 :=
  ⟨walking_inv (d := .scan 0 9#32 3) nofun ⟨by decide, by decide⟩, ⟨_, rfl, rfl⟩, rfl, inv_inputs served_inv _,
    ⟨_, rfl, rfl⟩⟩

theorem witness_LineStartsInvocationUnlessMasked :
    (live.ready = true ∧ live.lineAsserted = true ∧ live.dmx = .idle ∧ live.deliveryMasked = false)
      ∧ (fresh.ready = false ∧ ({ live with line := false } : State).lineAsserted = false ∧ served.dmx ≠ .idle)
      ∧ (locked.platform.shares 0 = true ∧ locked.lock = .held (.normal 0)
          ∧ ({ locked with dmx := .scan 0 9#32 3 } : State).dmx = .scan 0 9#32 3 ∧ (9#32).getLsbD 3 = true)
      ∧ (refPlatform.shares 79 = true ∧ ({ refPlatform with sharedUnit := .only [1] } : Platform).shares 1 = true
          ∧ ({ refPlatform with sharedUnit := .only [1] } : Platform).shares 0 = false)
      ∧ ({ locked with platform := { refPlatform with sharedUnit := .only [1] } } : State).deliveryMasked = false
      ∧ live.platform.line = .free
      ∧ ({ live with platform := { refPlatform with line := .enabledPending } } : State).platform.line = .enabledPending := by decide

theorem fresh_shaped : fresh.Shaped := shaped_of rfl rfl (by decide) (by decide)

theorem witness_InitProgramsRegisters : fresh.Shaped ∧ fresh.Idle ∧ fresh.ready = false := ⟨fresh_shaped, rfl, rfl⟩

theorem witness_InitRefusals : live.Idle ∧ live.ready = true ∧ fresh.Idle ∧ fresh.ready = false := ⟨rfl, rfl, rfl, rfl⟩

theorem witness_DivisorIsRoundedAndClamped :
    (0 < 1000000 ∧ 2 * 1000000 * 13 ≤ 25000000 + 1000000 ∧ 25000000 + 1000000 < 2 * 1000000 * (13 + 1))
      ∧ 0 < 4294967295 ∧ 2 * 4294967295 * 1 ≤ 4294967295 + 4294967295 ∧ 4294967295 + 4294967295 < 2 * 4294967295 * (1 + 1) := by decide

theorem witness_ControlWordHoldsItsFields : cfgWf refCfg = true ∧ 65535 ≤ 65535 ∧ 10 ≤ 10 ∧ 31 < 32 := by decide

theorem witness_NothingRunsBeforeInit : fresh.Idle ∧ fresh.ready = false ∧ pinOperation (.ack 80) 80 :=
  ⟨rfl, rfl, by simp [pinOperation]⟩

theorem witness_PinOutOfRangeIsRefused : live.Idle ∧ live.cfg.ngpio ≤ 80 ∧ live.ready = true ∧ pinOperation (.settype 80 7) 80 :=
  ⟨rfl, by decide, rfl, by simp [pinOperation]⟩

theorem witness_FailedOperationHasNoEffect :
    live.Idle ∧ (∃ t, exec (.dirin 79) live = .next t ∧ (t.ctx live.active).todo = [] ∧ (t.ctx live.active).resp.status ≠ statusCode .ok)
      ∧ ∃ t, exec (.ack 3) live = .next t ∧ (t.ctx live.active).todo = [] :=
  ⟨rfl, ⟨_, rfl, by decide, by decide⟩, ⟨_, rfl, by decide⟩⟩

theorem witness_OperationFrame :
    live.Shaped ∧ (∃ t, exec (.settype 40 3) live = .next t) ∧ (∃ t, exec (.set 35 true) live = .next t)
      ∧ fresh.Shaped ∧ ∃ t, exec (.init 0) fresh = .next t :=
  ⟨live_shaped, ⟨_, rfl⟩, ⟨_, rfl⟩, fresh_shaped, ⟨_, rfl⟩⟩

theorem witness_LockedSectionWaits :
    locked.Shaped ∧ locked.ready = true ∧ 79 < locked.cfg.ngpio ∧ locked.lock = .held (.normal 0) ∧ outputCapable locked.cfg 78 = true
      ∧ bankIrq locked.cfg (63 / 32) = true ∧ 8 ∈ [1, 2, 3, 4, 8] :=
  ⟨shaped_of rfl rfl (by decide) (by decide), by decide⟩

theorem witness_RegistersBehaveByClass :
    live.Shaped ∧ busAddr live.cfg 2 .tol = .ok 0x50 ∧ busAddr live.cfg 1 .type2 = .ok 0x2C ∧ busAddr live.cfg 2 .val = .ok 0x38
      ∧ busAddr live.cfg 0 .istat = .ok 0x14 ∧ busAddr live.cfg 0 .latch = .ok 0x70 ∧ ctrlAddr live.cfg = 0x54 :=
  ⟨live_shaped, by decide⟩

theorem not_mapped : 0x58 ∉ ((regMap live.cfg).map fun e => (live.cfg.regBase + e.1, e.2)).map Prod.fst := by decide

theorem witness_BusRefusesOtherAccesses :
    2 % 4 ≠ 0 ∧ 0x58 % 4 = 0 ∧ ∀ g, (0x58, g) ∉ (regMap live.cfg).map (fun e => (live.cfg.regBase + e.1, e.2)) :=
  ⟨by decide, by decide, fun _ h => absurd (List.mem_map_of_mem (f := Prod.fst) h) not_mapped⟩

/-- Both surroundings, and a second StatusSet of an edge pin whose match has been used. -/
theorem witness_StatusSetFollowsTriggerTable :
    (∃ k g x, live.banks[1]? = some k ∧ k.irq = some g ∧ live.samples[1]? = some x ∧ 31 < 32 ∧ live.platform.status = .free)
      ∧ ∃ k g x, (watched 0xFFFFFFFF#32 0#32).banks[1]? = some k ∧ k.irq = some g ∧ (watched 0xFFFFFFFF#32 0#32).samples[1]? = some x
        ∧ (watched 0xFFFFFFFF#32 0#32).platform.status = .matched ∧ (0x80000000#32).getLsbD 31 = true
        ∧ ((watched 0xFFFFFFFF#32 0#32).statusSet 1 0x80000000#32).banks[1]? = some k
        ∧ g.kindAt 31 ∈ [some Kind.edgeRising, some .edgeFalling, some .edgeBoth] :=
  ⟨⟨_, _, _, rfl, rfl, rfl, by decide⟩, ⟨_, _, _, rfl, rfl, rfl, rfl, rfl, rfl, by decide⟩⟩

theorem witness_OutsideStepsWriteOperandsLineAndSamples :
    cfgWf live.cfg = true ∧ ({ live with inputs := [.writeOp0 (.normal 0) 1#32] } : State).inputs = [.writeOp0 (.normal 0) 1#32]
      ∧ ({ live with inputs := [.writeOp1 .interrupt 1#32] } : State).inputs = [.writeOp1 .interrupt 1#32]
      ∧ ({ live with inputs := [.setLine false] } : State).inputs = [.setLine false]
      ∧ (∃ x k g, live.samples[1]? = some x ∧ live.banks[1]? = some k ∧ k.irq = some g)
      ∧ ∃ x k, live.samples[2]? = some x ∧ live.banks[2]? = some k ∧ k.irq = none :=
  ⟨by decide, rfl, rfl, rfl, ⟨_, _, _, rfl, rfl, rfl⟩, ⟨_, _, rfl, rfl, rfl⟩⟩

theorem witness_BlockResetKeepsRegisterFile :
    cfgWf served.cfg = true ∧ ({ served with inputs := [.blockReset] } : State).inputs = [.blockReset] := by decide

theorem witness_PowerOnMeetsInvariant : cfgWf refCfg = true := by decide

theorem witness_StepKeepsInvariant : served.Inv ∧ ({ served with inputs := [.consumerDone] } : State).Inv
    ∧ ∃ t, step { served with inputs := [.consumerDone] } = .next t :=
  ⟨served_inv, inv_inputs served_inv _, ⟨_, rfl⟩⟩

theorem witness_OnlyContractViolationStops :
    live.Inv ∧ ({ live with inputs := [.issue (.normal 0) 0x01020002#32] } : State).Inv
      ∧ step { live with inputs := [.issue (.normal 0) 0x01020002#32] } = .fault .contractViolation :=
  ⟨live_inv, inv_inputs live_inv _, rfl⟩

theorem witness_LockedSectionsExclude :
    updating.Inv ∧ updating.ready = true ∧ (updating.ctx (.normal 0)).todo = [.writeBit 0x74 0x1C (maskOf 35) true, .release, answerOk] :=
  ⟨updating_inv, rfl, rfl⟩

theorem witness_NoUpdateIsLost :
    updating.Inv ∧ updating.ready = true ∧ (updating.ctx (.normal 0)).todo = [.writeBit 0x74 0x1C (maskOf 35) true, .release, answerOk] :=
  ⟨updating_inv, rfl, rfl⟩

/-- The write half of SET 35 goes to the bank of pin 48, which is input-capable only. -/
theorem witness_LatchBitOfOtherPinsNeverChanges :
    ({ updating with inputs := [.bus (.normal 0)] } : State).Inv ∧ outputCapable updating.cfg 48 = false
      ∧ updating.reg (48 / 32) .latch = some 1#32
      ∧ ∃ t, step { updating with inputs := [.bus (.normal 0)] } = .next t ∧ t.reg (48 / 32) .latch = some 9#32 :=
  ⟨inv_inputs updating_inv _, by decide, by decide, ⟨_, rfl, by decide⟩⟩

theorem witness_BlockNeverSetsStatus :
    (∃ t, step { live with inputs := [.issue (.normal 0) 0x23000003#32] } = .next t ∧ t.reg 0 .istat = some 1#32)
      ∧ (∀ b x l, [Input.issue (.normal 0) 0x23000003#32] ≠ .statusSet b x :: l) ∧ live.reg 0 .istat = some 9#32 :=
  ⟨⟨_, rfl, by decide⟩, nofun, by decide⟩

theorem witness_RegistersChangeOnlyByWrites :
    (∃ t, step { live with inputs := [.issue (.normal 0) 0x10000005#32] } = .next t)
      ∧ ∀ b x l, [Input.issue (.normal 0) 0x10000005#32] ≠ .statusSet b x :: l :=
  ⟨⟨_, rfl⟩, nofun⟩

theorem witness_AtomicRunIsUninterruptedMoves :
    (live.ctx (.normal 0)).todo = [] ∧ ∃ t, live.issue (.normal 0) 0x11010023#32 = .next t := ⟨rfl, ⟨_, rfl⟩⟩

end Sys2Proof.Tests
end

section
/-! PROOFS. The statements of 10_state.md: issued commands, the outside inputs that run no operation, and the state after reset. -/

namespace Sys2Proof.Machine

/-! ## An input that happens -/

/-- When the next input can happen, the step is that input and nothing else. -/
theorem step_of_enabled {s : State} {e : Input} {l : List Input} (h : cfgWf s.cfg = true) (hi : s.inputs = e :: l)
    (he : e.enabled s = true) : step s = e.perform { s with inputs := l } := by
  simp [step, h, hi, he]

/-! ## Issued commands -/

theorem State.issue_of_decode {s : State} {c : Ctx} {w : Word} {i : Instr} (h : decode w = .ok i) :
    s.issue c w = exec i (s.accept c w) := by
  simp [State.issue, h]

/-- Whether a requester may issue a word depends on the lines left and on the demultiplexer alone. -/
theorem State.mayIssue_congr {s t : State} (htodo : ∀ d, (t.ctx d).todo = (s.ctx d).todo) (hd : t.dispatching = s.dispatching)
    (c : Ctx) (w : Word) : t.mayIssue c w = s.mayIssue c w := by
  simp only [State.mayIssue, htodo, State.initialising_congr htodo, hd]

/-- In a context with nothing in progress, clearing what is in progress changes no context's lines left. -/
theorem State.setTodo_nil_todo {s : State} {c : Ctx} (h : (s.ctx c).todo = []) (d : Ctx) :
    ((s.setTodo c []).ctx d).todo = (s.ctx d).todo := by
  by_cases hd : d = c
  · rw [hd, State.setTodo_ctx_todo, h]
  · rw [State.setTodo_ctx_ne s hd]

/-- A command accepted in a context with nothing in progress leaves no trace of whether its lines were cleared before. -/
theorem State.accept_setTodo_nil {s : State} {c : Ctx} (h : (s.ctx c).todo = []) (w : Word) :
    (s.setTodo c []).accept c w = s.accept c w := by
  simp [State.accept, State.setTodo, ← h]

theorem State.withFetchWord_inputs (s : State) (w : Word) :
    (s.withFetchWord 32 w.toNat).inputs = .issue (.normal 0) w :: s.inputs := by
  simp [State.withFetchWord, Nat.mod_eq_of_lt w.isLt]

/-- The queue has no part in whether a requester may issue a word. -/
theorem State.mayIssue_inputs (s : State) (l : List Input) (c : Ctx) (w : Word) :
    ({ s with inputs := l } : State).mayIssue c w = s.mayIssue c w := rfl

theorem State.withFetchWord_mayIssue {s : State} (h : (s.ctx (.normal 0)).todo = []) (w : Word) :
    (s.withFetchWord 32 w.toNat).mayIssue (.normal 0) w = s.mayIssue (.normal 0) w :=
  (State.mayIssue_inputs (s.setTodo (.normal 0) []) ..).trans
    (State.mayIssue_congr (State.setTodo_nil_todo h) (State.setTodo_dispatching ..) _ _)

/-- With its input taken off the queue again, the state of `withFetchWord` is the state with requester 0's lines cleared. -/
theorem State.withFetchWord_tail (s : State) (n w : Nat) :
    ({ s.withFetchWord n w with inputs := s.inputs } : State) = s.setTodo (.normal 0) [] := rfl

/-- An issued word that decodes to `i` runs `i` (10_state.md R21). -/
theorem step_issue {s : State} {c : Ctx} {w : Word} {l : List Input} {i : Instr} (h : cfgWf s.cfg = true)
    (hi : s.inputs = .issue c w :: l) (hm : s.mayIssue c w = true) (hd : decode w = .ok i) :
    step s = exec i (({ s with inputs := l } : State).accept c w) :=
  (step_of_enabled h hi hm).trans (State.issue_of_decode hd)

/-- Settles O5: the queue's head is performed, and clearing requester 0's lines changes nothing when it may issue. -/
theorem stepRunsDecodedOperation : Obligations.StepRunsDecodedOperation := by
  refine ⟨fun s c w l i h hi hm hd => step_issue h hi hm hd, fun s w i h hm hd => ?_⟩
  obtain ⟨hidle, -, -⟩ := State.mayIssue_cases hm
  have hcfg : cfgWf (s.withFetchWord 32 w.toNat).cfg = true := by simpa [State.withFetchWord] using h
  have hm' := (State.withFetchWord_mayIssue hidle w).trans hm
  rw [step_issue hcfg (s.withFetchWord_inputs w) hm' hd, State.withFetchWord_tail, State.accept_setTodo_nil hidle]

/-! ## Samples -/

/-- The edge rows of the table are what `edgeSeen` says of the pin's kind (43_irq_control.md R199). -/
theorem getLsbD_edgeMatch_eq_edgeSeen (g : IrqRegs) (old new : Word) {j : Nat} (hj : j < 32) :
    (edgeMatch g old new).getLsbD j = edgeSeen (g.kindAt j) (old.getLsbD j) (new.getLsbD j) := by
  rw [getLsbD_edgeMatch g old new hj]
  generalize old.getLsbD j = o, new.getLsbD j = n
  cases g.kindAt j with
  | none => simp [edgeSeen]
  | some k => cases k <;> revert o n <;> decide

/-- The level rows and the undefined patterns are what `levelHolds` says of the pin's kind (43_irq_control.md R199). -/
theorem getLsbD_holdMatch_eq_levelHolds (g : IrqRegs) (level : Word) {j : Nat} (hj : j < 32) :
    (holdMatch g level).getLsbD j = levelHolds (g.kindAt j) (level.getLsbD j) := by
  rw [getLsbD_holdMatch g level hj]
  generalize level.getLsbD j = v
  cases g.kindAt j with
  | none => rfl
  | some k => cases k <;> revert v <;> decide

theorem Sample.take_none (x : Sample) (w : Word) : x.take none w = { level := w, edges := x.edges, holds := 0#32 } := rfl

/-- A sample of a bank with interrupts, read bit by bit: an edge seen is added, a lasting match is found anew. -/
theorem Sample.take_some_getLsbD (x : Sample) (g : IrqRegs) (w : Word) {j : Nat} (hj : j < 32) :
    (x.take (some g) w).edges.getLsbD j
        = (x.edges.getLsbD j || edgeSeen (g.kindAt j) (x.level.getLsbD j) (w.getLsbD j))
      ∧ (x.take (some g) w).holds.getLsbD j = levelHolds (g.kindAt j) (w.getLsbD j) := by
  simp only [Sample.take, BitVec.getLsbD_or, getLsbD_edgeMatch_eq_edgeSeen g _ _ hj, getLsbD_holdMatch_eq_levelHolds g _ hj,
    and_self]

/-- A PinChange of a bank that exists replaces that bank's sample. -/
theorem State.pinChange_eq {s : State} {b : Nat} {x : Sample} (h : s.samples[b]? = some x) (w : Word) :
    s.pinChange b w = { s with samples := s.samples.set b (x.take (s.irqOf b) w) } := by
  simp [State.pinChange, State.resample, List.modify_eq_set_getElem?, h]

/-- Settles O49: the head of the queue is performed, and a PinChange's sample is read bit by bit. -/
theorem outsideStepsWriteOperandsLineAndSamples : Obligations.OutsideStepsWriteOperandsLineAndSamples := by
  intro s l h
  refine ⟨fun c w hi => ?_, fun c w hi => ?_, fun v hi => ?_, fun b w x hi hx => ?_⟩
  · rw [step_of_enabled h hi rfl]; cases c <;> rfl
  · rw [step_of_enabled h hi rfl]; cases c <;> rfl
  · exact step_of_enabled h hi rfl
  · refine ⟨x.take (s.irqOf b) w, ?_, x.take_level _ w, fun k hk => ⟨fun g j hg hj => ?_, fun hn => ?_⟩⟩
    · rw [step_of_enabled h hi rfl]
      exact congrArg _ (State.pinChange_eq (s := { s with inputs := l }) hx w)
    · rw [State.irqOf_of hk, hg]; exact x.take_some_getLsbD g w hj
    · rw [State.irqOf_of hk, hn, x.take_none]; exact ⟨rfl, rfl⟩

/-! ## After power-on -/

/-- Settles O50: power-on writes these values into the state, and one `unset` for each pin. -/
theorem resetLeavesBlockUninitialised : Obligations.ResetLeavesBlockUninitialised :=
  ⟨rfl, fun _ _ => ⟨List.length_replicate, fun _ => List.eq_of_mem_replicate, rfl, rfl, rfl, rfl⟩⟩

theorem unspecifiedBanks_length (n : Nat) (ds : List BankDesc) : (unspecifiedBanks n ds).length = ds.length := by
  induction ds generalizing n with
  | nil => rfl
  | cons d ds ih => exact congrArg (· + 1) (ih (n + 1))

theorem unspecifiedSamples_length (n : Nat) (ds : List BankDesc) : (unspecifiedSamples n ds).length = ds.length := by
  induction ds generalizing n with
  | nil => rfl
  | cons d ds ih => exact congrArg (· + 1) (ih (n + 1))

/-- The register file of power-on holds a bank of unknown words for each descriptor, in the descriptors' order. -/
theorem unspecifiedBanks_getElem? (n : Nat) (ds : List BankDesc) (b : Nat) :
    (unspecifiedBanks n ds)[b]? = ds[b]?.map fun d => BankRegs.unspecified (n + b) d.irq := by
  induction ds generalizing n b with
  | nil => rfl
  | cons d ds ih =>
    cases b with
    | zero => rfl
    | succ b => simpa [unspecifiedBanks, Nat.add_assoc, Nat.add_comm 1] using ih (n + 1) b

theorem BankRegs.unspecified_irq_isSome (b : Nat) (irq : Bool) : (BankRegs.unspecified b irq).irq.isSome = irq := by
  cases irq <;> rfl

/-- Power-on gives the register file and the tables the shape the configuration asks for. -/
theorem State.powerOn_shaped {c : Cfg} (h : cfgWf c = true) (p : Platform) : (State.powerOn c p).Shaped where
  cfg     := h
  banks   := unspecifiedBanks_length 0 c.bankTable
  irq     := fun b k hk => by
    obtain ⟨d, hd, rfl⟩ := Option.map_eq_some_iff.mp ((unspecifiedBanks_getElem? 0 c.bankTable b).symm.trans hk)
    exact (BankRegs.unspecified_irq_isSome _ _).trans (bankIrq_of hd).symm
  kinds   := List.length_replicate
  samples := unspecifiedSamples_length 0 c.bankTable

/-- Power-on stands before INIT with nothing in progress in any context. -/
theorem State.powerOn_uninitialised (c : Cfg) (p : Platform) : (State.powerOn c p).Uninitialised where
  lock      := rfl
  dmx       := rfl
  interrupt := rfl
  tail      := fun d => .ended (State.powerOn_todo c p d)
  once      := fun d _ hd => by simp [InitLines] at hd

/-- Nothing waits for a walk after power-on. -/
theorem State.powerOn_walkOwner (c : Cfg) (p : Platform) : (State.powerOn c p).WalkOwner where
  waits   := fun d hd => by simp at hd
  normal  := fun _ hd => absurd rfl hd
  between := fun _ => rfl

theorem State.powerOn_inv {c : Cfg} (h : cfgWf c = true) (p : Platform) : (State.powerOn c p).Inv where
  shaped  := State.powerOn_shaped h p
  untyped := fun _ _ hk _ => List.eq_of_mem_replicate (List.mem_of_getElem? hk)
  place   := trivial
  owner   := State.powerOn_walkOwner c p
  before  := fun _ => State.powerOn_uninitialised c p
  after   := nofun

/-- Settles O52: power-on meets each part of the invariant, and the fixture `REF` is well formed. -/
theorem powerOnMeetsInvariant : Obligations.PowerOnMeetsInvariant :=
  ⟨State.powerOn_inv (by decide) refPlatform, fun _ p h => State.powerOn_inv h p⟩

end Sys2Proof.Machine
end

section
/-! PROOFS. The statements of 20_memory.md, safety: in a state that meets the invariant no agent's move is refused, and only the plan of a LOCATE or LOCATEP command can be a fault. -/

namespace Sys2Proof.Machine

/-! ## Moves that neither fault nor are refused -/

/-- The agent makes its move, or has none to make. -/
def Move.Goes (m : Move) : Prop := (∃ t, m = .made t) ∨ m = .blocked

theorem Move.Goes.outcome {m : Move} (h : m.Goes) (s : State) : ∃ t, m.outcome s = .next t := by
  obtain ⟨t, rfl⟩ | rfl := h
  · exact ⟨t, rfl⟩
  · exact ⟨s, rfl⟩

theorem Move.Goes.orElse {m n : Move} (hm : m.Goes) (hn : n.Goes) : (m.orElse n).Goes := by
  obtain ⟨t, rfl⟩ | rfl := hm
  · exact .inl ⟨t, rfl⟩
  · exact hn

/-- A context's next line is legal, so it is done or waits. -/
theorem State.Inv.moveContext_goes {s : State} (h : s.Inv) (c : Ctx) : (s.moveContext c).Goes := by
  have hl := h.legal c
  unfold State.moveContext
  cases htodo : (s.ctx c).todo with
  | nil => exact .inr rfl
  | cons m l =>
    rw [htodo] at hl
    rcases Micro.run_goes h.shaped (hl m List.mem_cons_self) c with ⟨t, ht⟩ | ⟨hb, -⟩
    · exact .inl ⟨t.setTodo c l, by simp only [ht]⟩
    · exact .inr (by simp only [hb])

theorem State.Inv.moveNormal_goes {s : State} (h : s.Inv) : s.moveNormal.Goes := by
  unfold State.moveNormal
  induction List.range s.normals.length with
  | nil => exact .inr rfl
  | cons k l ih => exact (h.moveContext_goes (.normal k)).orElse ih

theorem State.startWalk_goes (s : State) (c : Ctx) : (s.startWalk c).Goes := by
  unfold State.startWalk; split
  · exact .inl ⟨_, rfl⟩
  · exact .inr rfl

theorem State.takeLine_goes (s : State) : s.takeLine.Goes := by
  unfold State.takeLine; split
  · exact s.startWalk_goes .interrupt
  · exact .inr rfl

/-- The walk reads no register but the status registers of banks that have one. -/
theorem State.Shaped.walkBank_goes {s : State} (h : s.Shaped) {b : Nat} {d : BankDesc} (hd : s.cfg.bankTable[b]? = some d) :
    (s.walkBank b d).Goes := by
  unfold State.walkBank; split
  · obtain ⟨a, w, ha, -, hr⟩ := State.walk_read h hd ‹d.irq = true›
    simp only [ha, hr]
    exact .inl ⟨_, rfl⟩
  · exact .inl ⟨_, rfl⟩

theorem State.walkBit_goes (s : State) (b : Nat) (w : Word) (i : Nat) : (s.walkBit b w i).Goes := by
  unfold State.walkBit; split
  · exact .inl ⟨_, rfl⟩
  · split
    · split
      · exact .inr rfl
      · exact .inl ⟨_, rfl⟩
    · exact .inl ⟨_, rfl⟩

theorem State.Shaped.walk_goes {s : State} (h : s.Shaped) : s.walk.Goes := by
  unfold State.walk; split
  · exact .inr rfl
  · split
    · exact h.walkBank_goes ‹_›
    · exact .inl ⟨_, rfl⟩
  · exact s.walkBit_goes _ _ _
  · exact .inr rfl

/-- The move the block makes by itself is made by an agent that goes, whichever it is. -/
theorem State.Inv.advance_goes {s : State} (h : s.Inv) : ∃ t, s.advance = .next t :=
  ((((h.moveContext_goes .interrupt).orElse h.shaped.walk_goes).orElse h.moveNormal_goes).orElse s.takeLine_goes).outcome s

/-! ## Commands -/

/-- A plan has legal lines only, or is the contract violation of a LOCATE or LOCATEP (40_locator.md R124). -/
theorem planOf_legal_or_violation {s : State} (hc : cfgWf s.cfg = true) (i : Instr) :
    (∃ l, planOf i s = .ok l ∧ ∀ m ∈ l, m.Legal s.cfg)
      ∨ (planOf i s = .error .contractViolation ∧ ∃ n code, i = .locate n code ∨ i = .locatep n code) := by
  cases hp : planOf i s with
  | ok l => exact .inl ⟨l, rfl, (planOf_form hp).legal hc⟩
  | error f =>
    obtain ⟨rfl, hi⟩ := planOf_error hc hp
    exact .inr ⟨rfl, hi⟩

/-- What a command word can end in: a next state, or the contract violation of a LOCATE or LOCATEP. -/
def EndsOrViolates (r : Result State) (w : Word) : Prop :=
  (∃ t, r = .next t)
    ∨ (r = .fault .contractViolation ∧ ∃ n code, decode w = .ok (.locate n code) ∨ decode w = .ok (.locatep n code))

theorem State.Shaped.issue_endsOrViolates {s : State} (h : s.Shaped) (c : Ctx) (w : Word) : EndsOrViolates (s.issue c w) w := by
  unfold State.issue
  cases hd : decode w with
  | error e => exact .inl ⟨_, rfl⟩
  | ok i =>
    simp only [exec_eq_runPlan]
    rcases planOf_legal_or_violation (h.accept c w).cfg i with ⟨l, hp, hl⟩ | ⟨hp, n, code, hi⟩ <;> rw [hp]
    · exact .inl (runLines_goes (h.accept c w) hl)
    · exact .inr ⟨rfl, n, code, by rw [hd]; exact hi.imp (congrArg _) (congrArg _)⟩

theorem State.Shaped.start_endsOrViolates {s : State} (h : s.Shaped) (c : Ctx) (w : Word) : EndsOrViolates (s.start c w) w := by
  unfold State.start
  cases hd : decode w with
  | error e => exact .inl ⟨_, rfl⟩
  | ok i =>
    simp only
    rcases planOf_legal_or_violation (h.accept c w).cfg i with ⟨l, hp, -⟩ | ⟨hp, n, code, hi⟩ <;> rw [hp]
    · exact .inl ⟨_, rfl⟩
    · exact .inr ⟨rfl, n, code, by rw [hd]; exact hi.imp (congrArg _) (congrArg _)⟩

/-! ## Steps -/

/-- The queue has no part in the invariant. -/
theorem State.Inv.setInputs {s : State} (h : s.Inv) (l : List Input) : ({ s with inputs := l } : State).Inv :=
  h.congr rfl rfl rfl rfl rfl rfl rfl rfl rfl (fun c => by cases c <;> rfl) (fun c => by cases c <;> rfl)

/-- An input that happens gives a next state, or is a command that violates the contract. -/
theorem State.Inv.perform_goes {s : State} (h : s.Inv) (e : Input) :
    (∃ t, e.perform s = .next t) ∨ ∃ c w, (e = .issue c w ∨ e = .start c w) ∧ EndsOrViolates (e.perform s) w := by
  cases e with
  | issue c w => exact .inr ⟨c, w, .inl rfl, h.shaped.issue_endsOrViolates c w⟩
  | start c w => exact .inr ⟨c, w, .inr rfl, h.shaped.start_endsOrViolates c w⟩
  | bus c => exact .inl ((h.moveContext_goes c).outcome s)
  | walk => exact .inl (h.shaped.walk_goes.outcome s)
  | takeLine => exact .inl (s.takeLine_goes.outcome s)
  | writeOp0 | writeOp1 | consumerDone | setLine | pinChange | statusSet | blockReset => exact .inl ⟨_, rfl⟩

/-- Settles O54: the block's own move always goes, and so does every input but a command, whose plan decides. -/
theorem onlyContractViolationStops : Obligations.OnlyContractViolationStops := by
  intro s h
  unfold step
  rw [if_pos h.shaped.cfg]
  cases hi : s.inputs with
  | nil => exact .inl h.advance_goes
  | cons e l =>
    by_cases he : e.enabled s = true
    · simp only [he, if_true]
      rcases (h.setInputs l).perform_goes e with hgo | ⟨c, w, hcmd, hgo | ⟨hf, n, code, hd⟩⟩
      · exact .inl hgo
      · exact .inl hgo
      · exact .inr ⟨hf, c, w, l, n, code, by simpa using hcmd, hd⟩
    · simp only [he]
      exact .inl h.advance_goes

end Sys2Proof.Machine
end

section
/-! PROOFS. The statements of 20_memory.md, the lock: a locked section waits while the lock is held, and no two contexts stand before a write. -/

namespace Sys2Proof.Machine

/-! ## Plans with a locked section -/

/-- SET and DIROUT of an output-capable pin begin with the lock (42_pin_io.md R162). -/
theorem setLines_acquires {s : State} (h : s.Shaped) {p : Nat} (hp : p < s.cfg.ngpio) (v : Bool) :
    ∃ l, setLines p v s = .ok (.acquire :: l) := by
  obtain ⟨src, hsrc, -⟩ := h.reg_of_pin hp (r := .latch) nofun
  obtain ⟨dst, hdst, -⟩ := h.reg_of_pin hp (r := .val) nofun
  simp only [setLines, hsrc, hdst]
  exact ⟨_, rfl⟩

/-- MASK and UNMASK in a bank with interrupts begin with the lock (43_irq_control.md R195, R201). -/
theorem ienPlan_acquires {s : State} (h : s.Shaped) (hr : s.ready = true) {p : Nat} (hp : p < s.cfg.ngpio)
    (hi : bankIrq s.cfg (bankOf p) = true) (v : Bool) : ∃ l, ienPlan p v s = .ok (.acquire :: l) := by
  obtain ⟨a, ha, -⟩ := h.reg_of_pin hp (r := .ien) fun _ => hi
  simp only [ienPlan, prologue_ready hr hp, hi, if_true, ha]
  exact ⟨_, rfl⟩

theorem settypeLines_acquires {s : State} (h : s.Shaped) {p : Nat} (hp : p < s.cfg.ngpio)
    (hi : bankIrq s.cfg (bankOf p) = true) (k : Kind) (x : TypeBits) : ∃ l, settypeLines p k x s = .ok (.acquire :: l) := by
  obtain ⟨a0, h0, -⟩ := h.reg_of_pin hp (r := .type0) fun _ => hi
  obtain ⟨a1, h1, -⟩ := h.reg_of_pin hp (r := .type1) fun _ => hi
  obtain ⟨a2, h2, -⟩ := h.reg_of_pin hp (r := .type2) fun _ => hi
  simp only [settypeLines, h0, h1, h2]
  exact ⟨_, rfl⟩

/-- The recognised kind codes are those of the trigger-type table (30_encoding.md R94, 43_irq_control.md R190). -/
theorem kindOfCode_typeBits {code : Nat} (h : code ∈ [1, 2, 3, 4, 8]) : ∃ k x, kindOfCode code = some k ∧ typeBitsOf k = some x := by
  simp only [List.mem_cons, List.not_mem_nil, or_false] at h
  rcases h with rfl | rfl | rfl | rfl | rfl <;> exact ⟨_, _, rfl, rfl⟩

/-- The operations whose plan has a locked section, on the pins for which it has (20_memory.md R70). -/
def LockedOperation (c : Cfg) (p : Nat) (i : Instr) : Prop :=
  ((∃ v, i = .set p v ∨ i = .dirout p v) ∧ outputCapable c p = true) ∨ (∃ v, i = .tol p v)
    ∨ ((i = .mask p ∨ i = .unmask p ∨ i = .ack p ∨ ∃ code ∈ [1, 2, 3, 4, 8], i = .settype p code) ∧ bankIrq c (bankOf p) = true)

/-- The first line of such a plan is the acquiring of the lock. -/
theorem planOf_acquires {s : State} (h : s.Shaped) (hr : s.ready = true) {p : Nat} (hp : p < s.cfg.ngpio) {i : Instr}
    (hi : LockedOperation s.cfg p i) : ∃ l, planOf i s = .ok (.acquire :: l) := by
  rcases hi with ⟨⟨v, rfl | rfl⟩, hc⟩ | ⟨v, rfl⟩ | ⟨rfl | rfl | rfl | ⟨code, hk, rfl⟩, hb⟩ <;> simp only [planOf]
  · simpa only [planSet, prologue_ready hr hp, hc, if_true] using setLines_acquires h hp v
  · simpa only [planDirout, prologue_ready hr hp, hc, if_true] using setLines_acquires h hp v
  · obtain ⟨a, ha, -⟩ := h.reg_of_pin hp (r := .tol) nofun
    simp only [planTol, prologue_ready hr hp, ha]
    exact ⟨_, rfl⟩
  · exact ienPlan_acquires h hr hp hb false
  · exact ienPlan_acquires h hr hp hb true
  · obtain ⟨a, ha, -⟩ := h.reg_of_pin hp (r := .istat) fun _ => hb
    simp only [planAck, prologue_ready hr hp, hb, if_true, ha]
    exact ⟨_, rfl⟩
  · obtain ⟨k, x, hkind, hx⟩ := kindOfCode_typeBits hk
    simpa only [planSettype, prologue_ready hr hp, hb, if_true, hkind, hx] using settypeLines_acquires h hp hb k x

/-- Settles O45: the first line of the plan is the acquiring of the lock, and it must wait. -/
theorem lockedSectionWaits : Obligations.LockedSectionWaits := by
  intro s p i c h hr hp hlock hi
  obtain ⟨l, hl⟩ := planOf_acquires h hr hp hi
  refine ⟨.acquire :: l, nofun, hl, ?_⟩
  rw [exec_eq_runPlan, hl]
  exact runLines_acquire_held hlock _ _

/-! ## Exclusion -/

/-- The line is a register write: the write half of a bit update, or a write by itself. -/
def Micro.Writes (m : Micro) : Prop := (∃ src a x v, m = .writeBit src a x v) ∨ ∃ a w, m = .write a w

/-- A context whose next line is a register write holds the lock (20_memory.md R71). -/
theorem State.Inv.holds_of_writes {s : State} (h : s.Inv) (hr : s.ready = true) {c : Ctx} {m : Micro} {l : List Micro}
    (htodo : (s.ctx c).todo = m :: l) (hm : m.Writes) : s.lock = .held c := by
  have hna : m ≠ .awaitWalk := by rintro rfl; simp [Micro.Writes] at hm
  obtain ⟨x, hdisc, -⟩ := (h.after hr c).disc htodo hna
  rcases hm with ⟨src, a, y, v, rfl⟩ | ⟨a, w, rfl⟩ <;> exact of_decide_eq_true hdisc.1

/-- Settles O55: each of the two contexts holds the lock, and the lock names one holder. -/
theorem lockedSectionsExclude : Obligations.LockedSectionsExclude := by
  intro s c d m m' l l' h hr hc hd hm hm'
  have hheld := h.holds_of_writes hr hc hm
  exact ⟨Lock.held.inj (hheld.symm.trans (h.holds_of_writes hr hd hm')), hheld⟩

end Sys2Proof.Machine
end

section
/-! PROOFS. The statements of 20_memory.md, the bus: what each class of register does at a read and at a write, and which accesses are refused. -/

namespace Sys2Proof.Machine

/-! ## Refusals -/

theorem State.memRead_misaligned {a : Nat} (h : a % 4 ≠ 0) (s : State) (who : Master) :
    s.memRead who a = .error .busMisaligned := by simp [State.memRead, h]

theorem State.memWrite_misaligned {a : Nat} (h : a % 4 ≠ 0) (s : State) (who : Master) (v : Word) :
    s.memWrite who a v = .error .busMisaligned := by simp [State.memWrite, h]

theorem State.memRead_unmapped {s : State} {a : Nat} (h : a % 4 = 0) (hg : regAt s.cfg a = none) (who : Master) :
    s.memRead who a = .error .busUnmapped := by simp [State.memRead, h, hg]

theorem State.memWrite_unmapped {s : State} {a : Nat} (h : a % 4 = 0) (hg : regAt s.cfg a = none) (who : Master) (v : Word) :
    s.memWrite who a v = .error .busUnmapped := by simp [State.memWrite, h, hg]

theorem State.memWrite_latch {s : State} (h : s.Shaped) {a b : Nat} (hg : regAt s.cfg a = some (.bank b .latch)) (who : Master)
    (v : Word) : s.memWrite who a v = .error .busLatchWrite := by
  simp [State.memWrite, regAt_aligned h.cfg hg, hg]

/-- An address that the register map does not hold is the address of no register. -/
theorem regAt_eq_none {c : Cfg} {a : Nat} (h : ∀ g, (a, g) ∉ (regMap c).map (fun e => (c.regBase + e.1, e.2))) : regAt c a = none := by
  rw [Option.eq_none_iff_forall_ne_some]
  intro g hg
  obtain ⟨k, hm, rfl⟩ := regAt_some hg
  exact h g (List.mem_map.mpr ⟨_, hm, rfl⟩)

/-- Settles O47: the primitives test the alignment first and then look the register up. -/
theorem busRefusesOtherAccesses : Obligations.BusRefusesOtherAccesses := by
  intro s who a v
  refine ⟨fun h => ⟨s.memRead_misaligned h who, s.memWrite_misaligned h who v⟩, fun h hg => ?_⟩
  have hnone := regAt_eq_none hg
  exact ⟨State.memRead_unmapped h hnone who, State.memWrite_unmapped h hnone who v⟩

/-! ## Reads and writes at a register's address -/

/-- Every address the locator gives is that of a register that exists, which holds a word unless it is `VAL`. -/
theorem State.Shaped.reg_of_busAddr {s : State} (h : s.Shaped) {b a : Nat} {r : Role} (ha : busAddr s.cfg b r = .ok a) (hv : r ≠ .val) :
    ∃ w, s.reg b r = some w := by
  obtain ⟨d, hd, hr, -⟩ := regAt_bank (regAt_busAddr h.cfg ha)
  exact h.reg_some hd hr hv

/-- A read at a register's address is answered, and changes no register (20_memory.md R58). -/
theorem State.Shaped.memRead_busAddr {s : State} (h : s.Shaped) {b a : Nat} {r : Role} (ha : busAddr s.cfg b r = .ok a) (who : Master) :
    ∃ w t, s.memRead who a = .ok (w, t) ∧ t.banks = s.banks ∧ t.ctrl = s.ctrl ∧ (r ≠ .val → s.reg b r = some w) := by
  have hg := regAt_busAddr h.cfg ha
  by_cases hv : r = .val
  · subst hv
    exact ⟨_, _, State.memRead_val h hg who, rfl, rfl, absurd rfl⟩
  · obtain ⟨w, hw⟩ := h.reg_of_busAddr ha hv
    exact ⟨w, _, State.memRead_word h hg ((State.wordAt_bank hg).trans hw) who, rfl, rfl, fun _ => hw⟩

/-- A write at a register's address, that of a write-latch apart, leaves the word its class says in the register its role says (20_memory.md R63 to R69). -/
theorem State.Shaped.memWrite_busAddr {s : State} (h : s.Shaped) {b a : Nat} {r : Role} (ha : busAddr s.cfg b r = .ok a) (hl : r ≠ .latch)
    (who : Master) (v : Word) :
    ∃ t old, s.memWrite who a v = .ok t ∧ t.cfg = s.cfg ∧ t.Shaped ∧ s.reg b (writtenRole r) = some old
      ∧ t.reg b (writtenRole r) = some (writtenWord r old v) := by
  have hg := regAt_busAddr h.cfg ha
  obtain ⟨d, hd, hr, -⟩ := regAt_bank hg
  have hr' : isIrqRole (writtenRole r) = true → d.irq = true := by cases r <;> exact hr
  obtain ⟨old, hold⟩ := h.reg_some hd hr' (by cases r <;> nofun)
  exact ⟨_, old, State.memWrite_ok h hg (by rintro b' ⟨⟩; exact hl rfl) who v, by simp, (h.writeReg _ _).log _, hold,
    by simpa using State.writeReg_reg_self hold v⟩

/-- A storage register reads back what was written (20_memory.md R61). -/
theorem State.Shaped.storage_readBack {s : State} (h : s.Shaped) {b a : Nat} {r : Role} (ha : busAddr s.cfg b r = .ok a)
    (hr : r ∈ [Role.tol, .ien, .type0, .type1, .type2]) (who : Master) (v : Word) :
    ∃ t, s.memWrite who a v = .ok t ∧ t.reg b r = some v ∧ ∃ u, t.memRead who a = .ok (v, u) := by
  have hstores : r ≠ .val ∧ r ≠ .latch ∧ writtenRole r = r ∧ ∀ old, writtenWord r old v = v := by
    simp only [List.mem_cons, List.not_mem_nil, or_false] at hr
    rcases hr with rfl | rfl | rfl | rfl | rfl <;> exact ⟨nofun, nofun, rfl, fun _ => rfl⟩
  obtain ⟨hv, hl, hrole, hword⟩ := hstores
  obtain ⟨t, old, ht, hcfg, htsh, -, htreg⟩ := h.memWrite_busAddr ha hl who v
  rw [hrole, hword] at htreg
  obtain ⟨w, u, hread, -, -, hw⟩ := htsh.memRead_busAddr (hcfg ▸ ha) who
  obtain rfl : v = w := Option.some.inj (htreg.symm.trans (hw hv))
  exact ⟨t, ht, htreg, u, hread⟩

/-- The control register is read and written as a storage register, and no bank changes with it (20_memory.md R69). -/
theorem State.Shaped.ctrl_readBack {s : State} (h : s.Shaped) (who : Master) (v : Word) :
    (∃ t, s.memRead who (ctrlAddr s.cfg) = .ok (s.ctrl, t) ∧ t.banks = s.banks ∧ t.ctrl = s.ctrl)
      ∧ ∃ t, s.memWrite who (ctrlAddr s.cfg) v = .ok t ∧ t.ctrl = v ∧ t.banks = s.banks
        ∧ ∃ u, t.memRead who (ctrlAddr s.cfg) = .ok (v, u) := by
  have hg := regAt_ctrl h.cfg
  refine ⟨⟨_, State.memRead_word h hg (State.wordAt_ctrl hg) who, rfl, rfl⟩,
    _, State.memWrite_ok h hg nofun who v, rfl, rfl, ?_⟩
  exact ⟨_, State.memRead_word ((h.writeReg .ctrl v).log _) hg (State.wordAt_ctrl hg) who⟩

/-- Settles O46: a read changes no register, and a write does what the register's class says, class by class. -/
theorem registersBehaveByClass : Obligations.RegistersBehaveByClass := by
  refine ⟨fun s who b a r v h ha => ⟨h.memRead_busAddr ha who, fun hr => h.storage_readBack ha hr who v, ?_, ?_, ?_⟩,
    fun s who v h => h.ctrl_readBack who v⟩
  · rintro rfl
    obtain ⟨t, old, ht, -, -, -, hreg⟩ := h.memWrite_busAddr ha nofun who v
    exact ⟨t, ht, hreg⟩
  · rintro rfl
    obtain ⟨t, old, ht, -, -, hold, hreg⟩ := h.memWrite_busAddr ha nofun who v
    exact ⟨t, old, ht, hold, hreg⟩
  · rintro rfl
    exact State.memWrite_latch h (regAt_busAddr h.cfg ha) who v

end Sys2Proof.Machine
end

section
/-! PROOFS. The statements of 20_memory.md, what the block does to the registers: everything between two states is a run of bus events, recorded as they happen, and only a write changes a register. -/

namespace Sys2Proof.Machine

/-! ## The effects of the block -/

/-- Everything the block does to its registers and its record: nothing, an event that is no write, a bus write, and these one after the other (20_memory.md R61, R74). -/
inductive State.Effects : State → State → Prop where
  | quiet {s t : State} (banks : t.banks = s.banks) (ctrl : t.ctrl = s.ctrl) (trace : t.trace = s.trace) : State.Effects s t
  | event {s t : State} (e : Event) (banks : t.banks = s.banks) (ctrl : t.ctrl = s.ctrl) (trace : t.trace = e :: s.trace) : State.Effects s t
  | write {s t : State} (g : Reg) (who : Master) (a : Nat) (v : Word) (banks : t.banks = (s.writeReg g v).banks)
      (ctrl : t.ctrl = (s.writeReg g v).ctrl) (trace : t.trace = .write who a v :: s.trace) : State.Effects s t
  | trans {s t u : State} (first : State.Effects s t) (rest : State.Effects t u) : State.Effects s u

theorem State.memRead_effects {s t : State} {who : Master} {a : Nat} {w : Word} (h : s.memRead who a = .ok (w, t)) : s.Effects t := by
  obtain ⟨g, -, ⟨b, -, -, rfl⟩ | ⟨-, -, rfl⟩⟩ := State.memRead_cases h <;> exact .event _ rfl rfl rfl

theorem State.memWrite_effects {s t : State} {who : Master} {a : Nat} {v : Word} (h : s.memWrite who a v = .ok t) : s.Effects t := by
  obtain ⟨g, -, -, rfl⟩ := State.memWrite_cases h
  exact .write g who a v rfl rfl (by simp)

theorem State.setTodo_effects (s : State) (c : Ctx) (l : List Micro) : s.Effects (s.setTodo c l) := .quiet (by simp) (by simp) (by simp)
theorem State.setTmp_effects (s : State) (c : Ctx) (w : Word) : s.Effects (s.setTmp c w) := .quiet (by simp) (by simp) (by simp)
theorem State.setCtx_effects (s : State) (c : Ctx) (x : Context) : s.Effects (s.setCtx c x) := .quiet (by simp) (by simp) (by simp)
theorem State.accept_effects (s : State) (c : Ctx) (w : Word) : s.Effects (s.accept c w) := .quiet (by simp) (by simp) (by simp)

theorem Micro.run_effects {c : Ctx} {m : Micro} {s t : State} (h : m.run c s = .made t) : s.Effects t := by
  cases m with
  | acquire => obtain ⟨-, rfl⟩ := State.acquireLock_cases h; exact .quiet rfl rfl rfl
  | read a =>
    simp only [Micro.run] at h; split at h <;> cases h
    exact (State.memRead_effects ‹_›).trans (State.setTmp_effects _ c _)
  | writeBit src a m v => simp only [Micro.run] at h; split at h <;> cases h; exact State.memWrite_effects ‹_›
  | write a w => simp only [Micro.run] at h; split at h <;> cases h; exact State.memWrite_effects ‹_›
  | startWalk => obtain ⟨-, -, rfl⟩ := State.startWalk_cases h; exact .quiet rfl rfl rfl
  | awaitWalk => cases h
  | answer st d m => cases h; exact State.setCtx_effects _ _ _
  | answerBit i => cases h; exact State.setCtx_effects _ _ _
  | release | bind | setReady => cases h; exact .quiet rfl rfl rfl

theorem State.moveContext_effects {s t : State} {c : Ctx} (h : s.moveContext c = .made t) : s.Effects t := by
  obtain ⟨m, l, u, -, hm, rfl⟩ := State.moveContext_cases h
  exact (Micro.run_effects hm).trans (State.setTodo_effects u c l)

theorem State.walk_effects {s t : State} (h : s.walk = .made t) : s.Effects t := by
  rcases State.walk_cases h with ⟨b, d, -, -, -, rfl⟩ | ⟨b, d, a, w, -, -, -, u, hu, rfl⟩ | ⟨b, -, -, rfl⟩ | ⟨b, w, i, -, -, rfl⟩
    | ⟨b, w, i, -, -, -, -, rfl⟩ | ⟨b, w, i, -, -, -, rfl⟩
  · exact .quiet rfl rfl rfl
  · exact (State.memRead_effects hu).trans (.quiet rfl rfl rfl)
  · exact .quiet (by simp [State.walkFinish]) (by simp [State.walkFinish]) (by simp [State.walkFinish])
  · exact .quiet rfl rfl rfl
  · exact .event _ rfl rfl rfl
  · exact .quiet rfl rfl rfl

theorem State.Moved.effects {s t : State} (h : s.Moved t) : s.Effects t := by
  cases h with
  | context c h => exact State.moveContext_effects h
  | walk h => exact State.walk_effects h
  | line h =>
    obtain ⟨-, -, h⟩ := State.takeLine_cases h
    obtain ⟨-, -, rfl⟩ := State.startWalk_cases h
    exact .quiet rfl rfl rfl
  | none h => subst h; exact .quiet rfl rfl rfl

theorem State.issue_effects {s t : State} {c : Ctx} {w : Word} (h : s.issue c w = .next t) : s.Effects t := by
  refine (s.accept_effects c w).trans ?_
  rcases State.issue_cases h with rfl | ⟨i, l, -, -, h⟩
  · exact State.setCtx_effects _ _ _
  · exact runLines_induct h (State.setTodo_effects _ c l) fun u v hu hv => hu.trans (State.moveContext_effects hv)

theorem State.start_effects {s t : State} {c : Ctx} {w : Word} (h : s.start c w = .next t) : s.Effects t := by
  refine (s.accept_effects c w).trans ?_
  rcases State.start_cases h with rfl | ⟨i, l, -, -, rfl⟩
  · exact State.setCtx_effects _ _ _
  · exact State.setTodo_effects _ c l

theorem State.dispatchReturn_effects (s : State) : s.Effects s.dispatchReturn := by
  unfold State.dispatchReturn; split <;> exact .quiet rfl rfl rfl

/-- What a tried move leads to is one move of its agent or nothing. -/
theorem Move.outcome_effects {m : Move} {s t : State} (h : m.outcome s = .next t) (made : ∀ {u}, m = .made u → s.Effects u) : s.Effects t := by
  rcases Move.outcome_cases h with h | rfl
  · exact made h
  · exact .quiet rfl rfl rfl

/-- Every input but a StatusSet has the block's effects only. -/
theorem Input.perform_effects {e : Input} {s t : State} (h : e.perform s = .next t) :
    (∃ b w, e = .statusSet b w ∧ t = s.statusSet b w) ∨ s.Effects t := by
  cases e with
  | statusSet b w => cases h; exact .inl ⟨b, w, rfl, rfl⟩
  | issue c w => exact .inr (State.issue_effects h)
  | start c w => exact .inr (State.start_effects h)
  | bus c => exact .inr (Move.outcome_effects h State.moveContext_effects)
  | walk => exact .inr (Move.outcome_effects h State.walk_effects)
  | takeLine => exact .inr (Move.outcome_effects h fun h => (State.Moved.line h).effects)
  | writeOp0 c w => cases h; exact .inr (State.setCtx_effects _ _ _)
  | writeOp1 c w => cases h; exact .inr (State.setCtx_effects _ _ _)
  | consumerDone => cases h; exact .inr s.dispatchReturn_effects
  | setLine | pinChange | blockReset => cases h; exact .inr (.quiet rfl rfl rfl)

/-- A step is a StatusSet, or has the block's effects only. -/
theorem step_effects {s t : State} (h : step s = .next t) :
    (∃ b x l, s.inputs = .statusSet b x :: l ∧ t = ({ s with inputs := l } : State).statusSet b x) ∨ s.Effects t := by
  obtain ⟨-, h | ⟨e, l, hi, -, h⟩⟩ := step_cases h
  · exact .inr h.effects
  · rcases Input.perform_effects h with ⟨b, x, rfl, ht⟩ | h
    · exact .inl ⟨b, x, l, hi, ht⟩
    · exact .inr (.trans (t := { s with inputs := l }) (.quiet rfl rfl rfl) h)

/-! ## Registers and the record -/

/-- The record only grows, and without a write among the new events no register changes. -/
theorem State.Effects.recorded {s t : State} (h : s.Effects t) :
    ∃ new, t.trace = new ++ s.trace ∧ ((∀ e ∈ new, isWrite e = false) → t.banks = s.banks ∧ t.ctrl = s.ctrl) := by
  induction h with
  | quiet banks ctrl trace => exact ⟨[], trace, fun _ => ⟨banks, ctrl⟩⟩
  | event e banks ctrl trace => exact ⟨[e], trace, fun _ => ⟨banks, ctrl⟩⟩
  | write g who a v _ _ trace => exact ⟨[.write who a v], trace, fun h => nomatch h _ List.mem_cons_self⟩
  | trans _ _ ih ih' =>
    obtain ⟨new, htrace, hsame⟩ := ih
    obtain ⟨new', htrace', hsame'⟩ := ih'
    refine ⟨new' ++ new, by rw [htrace', htrace, List.append_assoc], fun h => ?_⟩
    obtain ⟨hb, hc⟩ := hsame fun e he => h e (List.mem_append_right _ he)
    obtain ⟨hb', hc'⟩ := hsame' fun e he => h e (List.mem_append_left _ he)
    exact ⟨hb'.trans hb, hc'.trans hc⟩

/-- Settles O59: what is no StatusSet has the block's effects only, which record their writes. -/
theorem registersChangeOnlyByWrites : Obligations.RegistersChangeOnlyByWrites := by
  intro s t h hno
  rcases step_effects h with ⟨b, x, l, hi, -⟩ | h
  · exact absurd hi (hno b x l)
  · exact h.recorded

/-! ## Status bits -/

/-- Bank `b`'s status register, if it has one in `s`, is there in `t` too, and no bit of it has gone from 0 to 1. -/
def State.StatusKeptClear (b : Nat) (s t : State) : Prop :=
  ∀ w, s.reg b .istat = some w → ∃ w', t.reg b .istat = some w' ∧ w' &&& ~~~w = 0#32

theorem State.StatusKeptClear.of_reg_eq {b : Nat} {s t : State} (h : t.reg b .istat = s.reg b .istat) : State.StatusKeptClear b s t :=
  fun w hw => ⟨w, h.trans hw, by simp⟩

theorem State.reg_of_banks_eq {s t : State} (h : t.banks = s.banks) (b : Nat) (r : Role) : t.reg b r = s.reg b r := by
  simp only [State.reg, h]

/-- If no bit is set from `u` to `v` and none from `v` to `w`, none is set from `u` to `w`. -/
theorem and_not_trans {u v w : Word} (h : v &&& ~~~u = 0#32) (h' : w &&& ~~~v = 0#32) : w &&& ~~~u = 0#32 := by
  refine BitVec.eq_of_getLsbD_eq fun j hj => ?_
  have hu := congrArg (·.getLsbD j) h
  have hv := congrArg (·.getLsbD j) h'
  simp only [BitVec.getLsbD_and, BitVec.getLsbD_not, BitVec.getLsbD_zero, hj, decide_true, Bool.true_and] at hu hv ⊢
  cases hw : w.getLsbD j
  · rfl
  · rw [hw, Bool.true_and, Bool.not_eq_false'] at hv
    rwa [hv] at hu

theorem State.StatusKeptClear.trans {b : Nat} {s t u : State} (h : State.StatusKeptClear b s t) (h' : State.StatusKeptClear b t u) :
    State.StatusKeptClear b s u := by
  intro w hw
  obtain ⟨w', hw', hz⟩ := h w hw
  obtain ⟨w'', hw'', hz'⟩ := h' w' hw'
  exact ⟨w'', hw'', and_not_trans hz hz'⟩

/-- Only a write to the status register changes it. -/
theorem writtenRole_eq_istat {r : Role} : writtenRole r = .istat ↔ r = .istat := by cases r <;> decide

/-- A bus write sets no status bit: the status register is write-one-to-clear (20_memory.md R67). -/
theorem State.writeReg_statusKeptClear (s : State) (b : Nat) (g : Reg) (v : Word) : State.StatusKeptClear b s (s.writeReg g v) := by
  cases g with
  | ctrl => exact .of_reg_eq rfl
  | bank b' r =>
    by_cases hg : b = b' ∧ writtenRole r = .istat
    · obtain ⟨rfl, hr⟩ := hg
      intro w hw
      obtain rfl := writtenRole_eq_istat.mp hr
      exact ⟨w &&& ~~~v, State.writeReg_reg_self (r := .istat) hw v, by rw [BitVec.and_assoc, BitVec.and_comm (~~~v), ← BitVec.and_assoc]; simp⟩
    · exact .of_reg_eq (State.writeReg_reg_ne s ((not_and_or.mp hg).imp_right Ne.symm) v)

/-- The block's effects set no status bit. -/
theorem State.Effects.statusKeptClear {s t : State} (h : s.Effects t) (b : Nat) : State.StatusKeptClear b s t := by
  induction h with
  | quiet banks => exact .of_reg_eq (State.reg_of_banks_eq banks b .istat)
  | event e banks => exact .of_reg_eq (State.reg_of_banks_eq banks b .istat)
  | write g who a v banks =>
    exact (State.writeReg_statusKeptClear _ b g v).trans (.of_reg_eq (State.reg_of_banks_eq banks b .istat))
  | trans _ _ ih ih' => exact ih.trans ih'

/-- A StatusSet changes no register but the status register of its own bank (20_memory.md R62). -/
theorem State.statusSet_reg_ne (s : State) {b b' : Nat} {q : Role} (h : b' ≠ b ∨ q ≠ .istat) (w : Word) :
    (s.statusSet b w).reg b' q = s.reg b' q := by
  rcases s.statusSet_cases b w with e | ⟨g, m, -, -, e⟩ <;> rw [e]
  rw [State.resample_reg, State.reg_putReg_ne s h]

/-- Settles O58: a StatusSet of another bank leaves this bank's status alone, and the block only clears status bits. -/
theorem blockNeverSetsStatus : Obligations.BlockNeverSetsStatus := by
  intro s t b w h hno hw
  rcases step_effects h with ⟨b', x, l, hi, rfl⟩ | h
  · have hb : b ≠ b' := by rintro rfl; exact hno x l hi
    exact State.StatusKeptClear.of_reg_eq (s := { s with inputs := l }) (State.statusSet_reg_ne _ (.inl hb) x) w hw
  · exact h.statusKeptClear b w hw

end Sys2Proof.Machine
end

section
/-! PROOFS. The statements of 20_memory.md, the two ways to run a command: whole, or started and then moved line by line with nothing in between. -/

namespace Sys2Proof.Machine

theorem State.Moves.snoc {c : Ctx} {s t u : State} (h : State.Moves c s t) (hm : t.moveContext c = .made u) : State.Moves c s u := by
  induction h with
  | refl t => exact .step hm (.refl u)
  | step h _ ih => exact .step h (ih hm)

/-- A context with nothing in progress has no move to make. -/
theorem State.moveContext_nil {s : State} {c : Ctx} (h : (s.ctx c).todo = []) : s.moveContext c = .blocked := by
  simp [State.moveContext, h]

/-- A context whose next line must wait has no move to make. -/
theorem State.moveContext_blocked {s : State} {c : Ctx} {m : Micro} (h : m.run c s = .blocked) (l : List Micro) :
    (s.setTodo c (m :: l)).moveContext c = .blocked := by
  simp only [State.moveContext, State.setTodo_ctx_todo, Micro.run_setTodo, h, Move.setTodo]

/-- A run of lines goes on until its context has ended or must wait. -/
theorem runLines_blocked {c : Ctx} {l : List Micro} {s t : State} (h : runLines c l s = .next t) : t.moveContext c = .blocked := by
  induction l generalizing s with
  | nil => cases h; exact State.moveContext_nil (State.setTodo_ctx_todo ..)
  | cons m l ih =>
    rcases runLines_cases h with ⟨u, -, hu⟩ | ⟨hb, rfl⟩
    · exact ih hu
    · exact State.moveContext_blocked hb l

/-- A run of lines is the moves its context makes when these lines are what it has left to do. -/
theorem runLines_moves {c : Ctx} {l : List Micro} {s t : State} (h : runLines c l s = .next t) : State.Moves c (s.setTodo c l) t :=
  runLines_induct h (.refl _) fun _ _ hu hv => hu.snoc hv

/-- Starting a command fixes the plan that issuing it runs. -/
theorem State.start_of_plan {s : State} {c : Ctx} {w : Word} {i : Instr} {l : List Micro} (hd : decode w = .ok i)
    (hp : planOf i (s.accept c w) = .ok l) : s.start c w = .next ((s.accept c w).setTodo c l) := by
  simp only [State.start, hd, hp]

/-- Settles O60: both ways make the same moves, and a word that requests no operation ends at once in both. -/
theorem atomicRunIsUninterruptedMoves : Obligations.AtomicRunIsUninterruptedMoves := by
  intro s t c w hidle h
  cases hd : decode w with
  | error e =>
    simp only [State.issue, hd] at h
    cases h
    exact ⟨_, by simp only [State.start, hd], .refl _, State.moveContext_nil (by simpa using hidle)⟩
  | ok i =>
    rw [State.issue_of_decode hd, exec_eq_runPlan] at h
    cases hp : planOf i (s.accept c w) with
    | error f => rw [hp] at h; cases h
    | ok l =>
      rw [hp, State.runPlan, State.accept_active] at h
      exact ⟨_, State.start_of_plan hd hp, runLines_moves h, runLines_blocked h⟩

end Sys2Proof.Machine
end

section
/-! PROOFS. The statements of 20_memory.md, StatusSet: which status bits it sets and which matches it uses. -/

namespace Sys2Proof.Machine

/-! ## Which bits a StatusSet sets -/

/-- What a StatusSet leaves in the status register and in the sample of its bank. -/
theorem State.statusSet_self {s : State} {b : Nat} {k : BankRegs} {g : IrqRegs} {x : Sample} (hk : s.banks[b]? = some k)
    (hg : k.irq = some g) (hx : s.samples[b]? = some x) (w : Word) :
    (s.statusSet b w).reg b .istat = some (g.istat ||| (w &&& s.statusAllowed b g))
      ∧ (s.statusSet b w).samples[b]? = some (x.use (w &&& s.statusAllowed b g)) := by
  have hreg : s.reg b .istat = some g.istat := by rw [State.reg_of_bank hk]; simp [BankRegs.get, hg]
  rw [State.statusSet_of (by rw [State.irqOf_of hk, hg])]
  exact ⟨by rw [State.resample_reg, State.reg_putReg_self hreg], State.resample_self (by simpa using hx) _⟩

/-- The bits a StatusSet may set in matched surroundings: an unused match at a sample, or a level that lasts or an undefined pattern (43_irq_control.md R199). -/
theorem State.statusAllowed_matched_getLsbD {s : State} (h : s.platform.status = .matched) {b : Nat} {x : Sample}
    (hx : s.samples[b]? = some x) (g : IrqRegs) {j : Nat} (hj : j < 32) :
    (s.statusAllowed b g).getLsbD j = (x.edges.getLsbD j || x.holds.getLsbD j || levelHolds (g.kindAt j) (x.level.getLsbD j)) := by
  rw [State.statusAllowed_matched h hx, BitVec.getLsbD_or, BitVec.getLsbD_or, getLsbD_holdMatch_eq_levelHolds g _ hj]

theorem State.statusAllowed_free_getLsbD {s : State} (h : s.platform.status = .free) (b : Nat) (g : IrqRegs) {j : Nat} (hj : j < 32) :
    (s.statusAllowed b g).getLsbD j = true := by
  rw [State.statusAllowed_free h, show (0xFFFFFFFF#32) = BitVec.allOnes 32 from rfl, BitVec.getLsbD_allOnes, decide_eq_true hj]

/-- A StatusSet uses exactly the matches of the bits it asks for: a match may always set, so no match it asks for is left. -/
theorem State.use_allowed_getLsbD {s : State} {b : Nat} {x : Sample} (hx : s.samples[b]? = some x) (g : IrqRegs) (w : Word) {j : Nat}
    (hj : j < 32) :
    (x.use (w &&& s.statusAllowed b g)).edges.getLsbD j = (x.edges.getLsbD j && !w.getLsbD j)
      ∧ (x.use (w &&& s.statusAllowed b g)).holds.getLsbD j = (x.holds.getLsbD j && !w.getLsbD j) := by
  have hused := State.statusAllowed_used hx g hj
  simp only [Sample.use_edges, Sample.use_holds, BitVec.getLsbD_and, BitVec.getLsbD_not, hj, decide_true, Bool.true_and]
  constructor
  · cases he : x.edges.getLsbD j
    · rfl
    · rw [hused (.inl he), Bool.and_true]
  · cases hh : x.holds.getLsbD j
    · rfl
    · rw [hused (.inr hh), Bool.and_true]

/-- A level sets no bit of a pin whose type bits ask for an edge. -/
theorem levelHolds_edge {k : Option Kind} (h : k ∈ [some Kind.edgeRising, some .edgeFalling, some .edgeBoth]) (v : Bool) :
    levelHolds k v = false := by
  simp only [List.mem_cons, List.not_mem_nil, or_false] at h
  rcases h with rfl | rfl | rfl <;> rfl

/-- In matched surroundings a StatusSet does not set a bit of an edge kind whose matches have been used (20_memory.md R68). -/
theorem State.statusSet_edge_used {u : State} {b : Nat} {k : BankRegs} {g : IrqRegs} {y : Sample} {j : Nat} (hj : j < 32)
    (hp : u.platform.status = .matched) (hy : u.samples[b]? = some y) (he : y.edges.getLsbD j = false) (hh : y.holds.getLsbD j = false)
    (hk : u.banks[b]? = some k) (hg : k.irq = some g)
    (hkind : g.kindAt j ∈ [some Kind.edgeRising, some .edgeFalling, some .edgeBoth]) (w : Word) :
    ∃ w', (u.statusSet b w).reg b .istat = some w' ∧ w'.getLsbD j = g.istat.getLsbD j := by
  obtain ⟨hreg, -⟩ := State.statusSet_self hk hg hy w
  refine ⟨_, hreg, ?_⟩
  rw [BitVec.getLsbD_or, BitVec.getLsbD_and, State.statusAllowed_matched_getLsbD hp hy g hj, he, hh, levelHolds_edge hkind]
  simp

/-! ## What a StatusSet leaves alone -/

/-- A StatusSet changes nothing of the block but registers, and samples of no other bank. -/
theorem State.statusSet_frame (s : State) (b : Nat) (w : Word) :
    (s.statusSet b w).ctrl = s.ctrl ∧ (s.statusSet b w).kind = s.kind ∧ (s.statusSet b w).ready = s.ready
      ∧ (s.statusSet b w).lock = s.lock ∧ (s.statusSet b w).dmx = s.dmx ∧ (s.statusSet b w).normals = s.normals
      ∧ (s.statusSet b w).interrupt = s.interrupt ∧ (s.statusSet b w).trace = s.trace
      ∧ ∀ b', b' ≠ b → (s.statusSet b w).samples[b']? = s.samples[b']? := by
  rcases s.statusSet_cases b w with e | ⟨g, m, -, -, e⟩ <;> rw [e]
  · exact ⟨rfl, rfl, rfl, rfl, rfl, rfl, rfl, rfl, fun _ _ => rfl⟩
  · exact ⟨rfl, rfl, rfl, rfl, rfl, rfl, rfl, rfl, fun b' h => State.resample_ne _ h _⟩

/-- Settles O48: the bits set and the matches used are read off the one status register and the one sample it changes. -/
theorem statusSetFollowsTriggerTable : Obligations.StatusSetFollowsTriggerTable := by
  rintro s t b k g x m j hk hg hx hj rfl
  obtain ⟨hctrl, hkind, hready, hlock, hdmx, hnormals, hinterrupt, htrace, hsamples⟩ := s.statusSet_frame b m
  obtain ⟨hreg, hsample⟩ := State.statusSet_self hk hg hx m
  obtain ⟨hedges, hholds⟩ := State.use_allowed_getLsbD hx g m hj
  refine ⟨fun b' q h => State.statusSet_reg_ne s h m, hctrl, hkind, hready, hlock, hdmx, hnormals, hinterrupt, htrace, hsamples,
    ⟨_, _, hreg, hsample, rfl, hedges, hholds, fun hp => ?_, fun hp => ?_⟩, fun hm u k' g' m' hp hu hk' hg' hedge => ?_⟩
  · rw [BitVec.getLsbD_or, BitVec.getLsbD_and, State.statusAllowed_free_getLsbD hp b g hj, Bool.and_true]
  · rw [BitVec.getLsbD_or, BitVec.getLsbD_and, State.statusAllowed_matched_getLsbD hp hx g hj]
  · rw [hm, Bool.not_true, Bool.and_false] at hedges hholds
    exact State.statusSet_edge_used hj hp (hu.trans hsample) hedges hholds hk' hg' hedge m'

end Sys2Proof.Machine
end

section
/-! PROOFS. The statements of 20_memory.md, frames: what an operation leaves alone follows from the lines its plan may have and from what one line of a kind can change. -/

namespace Sys2Proof.Machine

/-! ## Which lines an operation may have -/

/-- The lines of operation `i` accepted in state `s`: it stores to its own registers only, and binds a type, sets `READY`, starts the walk or reads a current value only if it is the operation that does so. -/
def Micro.OfOperation (i : Instr) (s : State) : Micro → Prop
  | .writeBit src _ _ _ => src ∈ storedAddrs i s
  | .write a _          => a ∈ storedAddrs i s
  | .bind p _           => ∃ code, i = .settype p code
  | .setReady           => ∃ cs, i = .init cs
  | .startWalk          => i = .demux
  | .read a             => ∀ b, regAt s.cfg a = some (.bank b .val) → ∃ p, i = .get p ∧ outputCapable s.cfg p = false
  | .acquire | .release | .awaitWalk | .answer _ _ _ | .answerBit _ => True

theorem mem_addrs {c : Cfg} {b a : Nat} {r : Role} (h : busAddr c b r = .ok a) : a ∈ addrs c b r := by simp [addrs, h]

/-- INIT stores to the tolerance and interrupt registers of every bank it passes. -/
theorem mem_initAddrs {c : Cfg} {b j : Nat} {ds : List BankDesc} {d : BankDesc} {r : Role} (hj : ds[j]? = some d)
    (hd : c.bankTable[b + j]? = some d) (hi : isIrqRole r = true → d.irq = true)
    (hr : r ∈ [Role.tol, .ien, .istat, .type0, .type1, .type2]) : c.regBase + roleOffset c d r ∈ initAddrs c b ds := by
  induction ds generalizing b j with
  | nil => cases hj
  | cons e ds ih =>
    rw [initAddrs, List.mem_append]
    cases j with
    | zero =>
      have ha := mem_addrs (busAddr_ok hd hi)
      simp only [List.mem_cons, List.not_mem_nil, or_false] at hr
      left
      rcases hr with rfl | rfl | rfl | rfl | rfl | rfl <;> simp only [List.mem_append] <;> tauto
    | succ j => exact .inr (ih hj (by rwa [Nat.add_assoc, Nat.add_comm 1 j]))

/-- A read at the address of a register other than `VAL` is no read of a current value. -/
theorem Micro.ofOperation_read {s : State} (hc : cfgWf s.cfg = true) {b a : Nat} {r : Role} (h : busAddr s.cfg b r = .ok a)
    (hr : r ≠ .val) (i : Instr) : (Micro.read a).OfOperation i s := by
  intro b' hg
  rw [regAt_busAddr hc h] at hg
  cases hg
  exact absurd rfl hr

/-- TOL, MASK and UNMASK store to the register they update one bit of, which is not `VAL`. -/
theorem RmwOperation.stores {s : State} {p a : Nat} {i : Instr} {r : Role} {v : Bool} (h : RmwOperation s.cfg p i r v)
    (ha : busAddr s.cfg (bankOf p) r = .ok a) : a ∈ storedAddrs i s ∧ r ≠ .val := by
  rcases h with ⟨rfl, rfl⟩ | ⟨rfl, rfl, -⟩ | ⟨rfl, rfl, -⟩ <;> exact ⟨mem_addrs ha, nofun⟩

/-- Every line of an operation's plan is one the operation may have. -/
theorem PlanForm.ofOperation {s : State} (hc : cfgWf s.cfg = true) {i : Instr} {l : List Micro} (h : PlanForm s i l) :
    ∀ m ∈ l, m.OfOperation i s := by
  cases h with
  | answer => simp [Micro.OfOperation]
  | get p a _ _ addr =>
    simp only [List.forall_mem_cons, List.not_mem_nil, false_implies, implies_true, and_true]
    refine ⟨?_, trivial⟩
    cases hcap : outputCapable s.cfg p
    · exact fun _ _ => ⟨p, rfl, hcap⟩
    · rw [hcap] at addr; exact Micro.ofOperation_read hc addr nofun _
  | output i p v src dst _ _ op _ hs hd =>
    have hstored : src ∈ storedAddrs i s := by rcases op with rfl | rfl <;> exact mem_addrs hs
    simp only [updateLines, List.forall_mem_cons, List.not_mem_nil, false_implies, implies_true, and_true]
    exact ⟨trivial, Micro.ofOperation_read hc hs nofun i, hstored, trivial, trivial⟩
  | rmw i p r v a _ _ op addr =>
    obtain ⟨hstored, hv⟩ := op.stores addr
    simp only [updateLines, List.forall_mem_cons, List.not_mem_nil, false_implies, implies_true, and_true]
    exact ⟨trivial, Micro.ofOperation_read hc addr hv i, hstored, trivial, trivial⟩
  | settype p code k x a0 a1 a2 _ _ _ _ _ h0 h1 h2 =>
    simp only [List.forall_mem_cons, List.not_mem_nil, false_implies, implies_true, and_true]
    have hstored : ∀ a, a = a0 ∨ a = a1 ∨ a = a2 → a ∈ storedAddrs (.settype p code) s := by
      simp only [storedAddrs, List.mem_append]
      rintro a (rfl | rfl | rfl)
      exacts [.inl (.inl (mem_addrs h0)), .inl (.inr (mem_addrs h1)), .inr (mem_addrs h2)]
    exact ⟨trivial, Micro.ofOperation_read hc h0 nofun _, hstored _ (.inl rfl), Micro.ofOperation_read hc h1 nofun _,
      hstored _ (.inr (.inl rfl)), Micro.ofOperation_read hc h2 nofun _, hstored _ (.inr (.inr rfl)), trivial, ⟨code, rfl⟩, trivial⟩
  | ack p a _ _ _ addr =>
    simp only [List.forall_mem_cons, List.not_mem_nil, false_implies, implies_true, and_true]
    exact ⟨trivial, mem_addrs addr, trivial, trivial⟩
  | demux => simp [Micro.OfOperation]
  | init cs cw l _ banks =>
    rw [initBanks_all] at banks; cases banks
    simp only [List.cons_append, List.forall_mem_cons, List.forall_mem_append, List.not_mem_nil, false_implies, implies_true, and_true]
    refine ⟨List.mem_cons_self, fun m hm => ?_, ⟨cs, rfl⟩, trivial⟩
    obtain ⟨j, d, r, w, hj, rfl, hi, hr⟩ := mem_initLines hm
    exact List.mem_cons_of_mem _ (mem_initAddrs hj (by rwa [Nat.zero_add]) hi hr)

/-! ## The frame of the lines -/

/-- What the operation `i`, run in context `c` from `s`, leaves alone, the lock apart. -/
structure State.Framed (i : Instr) (c : Ctx) (s t : State) : Prop where
  cfg      : t.cfg = s.cfg
  platform : t.platform = s.platform
  active   : t.active = s.active
  samples  : t.samples = s.samples
  line     : t.line = s.line
  inputs   : t.inputs = s.inputs
  others   : ∀ d, d ≠ c → t.ctx d = s.ctx d
  cmd      : (t.ctx c).cmd = (s.ctx c).cmd
  op0      : (t.ctx c).op0 = (s.ctx c).op0
  op1      : (t.ctx c).op1 = (s.ctx c).op1
  words    : ∀ a, a ∉ storedAddrs i s → t.wordAt a = s.wordAt a
  kind     : ∀ q, (∀ p code, i = .settype p code → q ≠ p) → t.kind[q]? = s.kind[q]?
  ready    : (∀ cs, i ≠ .init cs) → t.ready = s.ready
  walk     : i ≠ .demux → t.dmx = s.dmx ∧ t.walkCount = s.walkCount ∧ t.walkFor = s.walkFor
  draws    : (∀ p, i = .get p → outputCapable s.cfg p = true) → t.draws = s.draws

theorem State.Framed.refl (i : Instr) (c : Ctx) (s : State) : State.Framed i c s s := by
  constructor <;> intros <;> simp

theorem State.Framed.setTodo {i : Instr} {c : Ctx} {s t : State} (h : State.Framed i c s t) (l : List Micro) :
    State.Framed i c s (t.setTodo c l) := by
  constructor
  case others => intro d hd; rw [State.setTodo_ctx_ne _ hd, h.others d hd]
  all_goals simp only [State.setTodo_cfg, State.setTodo_platform, State.setTodo_active, State.setTodo_samples, State.setTodo_line,
    State.setTodo_inputs, State.setTodo_ctx_cmd, State.setTodo_ctx_op0, State.setTodo_ctx_op1, State.setTodo_wordAt,
    State.setTodo_kind, State.setTodo_ready, State.setTodo_dmx, State.setTodo_walkCount, State.setTodo_walkFor, State.setTodo_draws]
  exacts [h.cfg, h.platform, h.active, h.samples, h.line, h.inputs, h.cmd, h.op0, h.op1, h.words, h.kind, h.ready, h.walk, h.draws]

/-- A line changes the type of no pin but the one it binds. -/
theorem Micro.run_kind {c : Ctx} {m : Micro} {s t : State} (h : m.run c s = .made t) {q : Nat} (hq : ∀ p k, m = .bind p k → q ≠ p) :
    t.kind[q]? = s.kind[q]? := by
  by_cases hb : ∃ p k, m = .bind p k
  · obtain ⟨p, k, rfl⟩ := hb
    cases h
    simp [(hq p k rfl).symm]
  · rw [(Micro.run_block h).1 fun p k e => hb ⟨p, k, e⟩]

/-- A legal line that the operation may have keeps the operation's frame. -/
theorem State.Framed.line_made {i : Instr} {c : Ctx} {s u v : State} (h : State.Framed i c s u) {m : Micro} (hl : m.Legal s.cfg)
    (hm : m.OfOperation i s) (hr : m.run c u = .made v) : State.Framed i c s v := by
  obtain ⟨cfg, platform, active, samples, line, inputs, others, -, cmd, op0, op1⟩ := Micro.run_outer hr
  obtain ⟨-, ready, walk, -, draws⟩ := Micro.run_block hr
  exact {
    cfg      := cfg.trans h.cfg
    platform := platform.trans h.platform
    active   := active.trans h.active
    samples  := samples.trans h.samples
    line     := line.trans h.line
    inputs   := inputs.trans h.inputs
    others   := fun d hd => (others d hd).trans (h.others d hd)
    cmd      := cmd.trans h.cmd
    op0      := op0.trans h.op0
    op1      := op1.trans h.op1
    words    := fun a ha => by
      refine (Micro.run_wordAt (h.cfg ▸ hl) hr fun ht => ha ?_).trans (h.words a ha)
      cases m <;> cases ht <;> exact hm
    kind     := fun q hq => by
      refine (Micro.run_kind hr fun p k e => ?_).trans (h.kind q hq)
      subst e
      obtain ⟨code, hi⟩ := hm
      exact hq p code hi
    ready    := fun hi => by
      refine (ready ?_).trans (h.ready hi)
      rintro rfl
      obtain ⟨cs, e⟩ := hm
      exact hi cs e
    walk     := fun hi => by
      have hne : m ≠ .startWalk := by rintro rfl; exact hi hm
      obtain ⟨hdmx, hcount, hfor⟩ := walk hne
      obtain ⟨hdmx', hcount', hfor'⟩ := h.walk hi
      exact ⟨hdmx.trans hdmx', hcount.trans hcount', hfor.trans hfor'⟩
    draws    := fun hi => by
      refine (draws ?_).trans (h.draws hi)
      rintro a b rfl hg
      rw [h.cfg] at hg
      obtain ⟨p, e, hcap⟩ := hm b hg
      rw [hi p e] at hcap
      cases hcap }

theorem runLines_framed {i : Instr} {c : Ctx} {l : List Micro} {s t : State} (hl : ∀ m ∈ l, m.Legal s.cfg)
    (hm : ∀ m ∈ l, m.OfOperation i s) (hr : runLines c l s = .next t) : State.Framed i c s t :=
  runLines_keeps hr (.refl i c s) (fun m hmem _ _ h => h.line_made (hl m hmem) (hm m hmem)) fun _ l h => h.setTodo l

/-- The bytes of a register the operation does not store to read as before (20_memory.md R52). -/
theorem State.Framed.byteAt {i : Instr} {c : Ctx} {s t : State} (h : State.Framed i c s t) {n : Nat}
    (hn : ∀ a ∈ storedAddrs i s, ¬(a ≤ n ∧ n < a + 4)) : t.byteAt n = s.byteAt n := by
  unfold State.byteAt
  rw [h.words _ fun hmem => hn _ hmem ⟨by omega, by omega⟩]

/-! ## The lock -/

/-- Only the lock, the walk's start and the walk's answer are waited for. -/
theorem Micro.run_blocked {c : Ctx} {m : Micro} {s : State} (h : m.run c s = .blocked) : m = .acquire ∨ m = .startWalk ∨ m = .awaitWalk := by
  cases m with
  | acquire => exact .inl rfl
  | startWalk => exact .inr (.inl rfl)
  | awaitWalk => exact .inr (.inr rfl)
  | read | writeBit | write => simp only [Micro.run] at h; split at h <;> cases h
  | release | bind | setReady | answer | answerBit => cases h

/-- After a line that is neither about the lock nor starts the walk, the rest is disciplined with the lock as it was. -/
theorem Disciplined.tail {C : Cfg} {held : Bool} {x : Option Nat} {m : Micro} {l : List Micro} (h : Disciplined C held x (m :: l))
    (ha : m ≠ .acquire) (hr : m ≠ .release) (hs : m ≠ .startWalk) : ∃ y, Disciplined C held y l := by
  cases m with
  | acquire => exact absurd rfl ha
  | release => exact absurd rfl hr
  | startWalk => exact absurd rfl hs
  | setReady | awaitWalk => exact h.elim
  | read a => exact ⟨_, h⟩
  | writeBit => exact ⟨_, h.2.2⟩
  | write => exact ⟨_, h.2.2⟩
  | bind => exact ⟨_, h.2⟩
  | answer | answerBit => obtain ⟨rfl, rfl⟩ := h; exact ⟨none, rfl⟩

/-- Disciplined lines that run leave the lock free if they began inside a locked section, and as it was if they began outside (20_memory.md R70). -/
theorem runLines_disciplined_lock {C : Cfg} {c : Ctx} {l : List Micro} {held : Bool} {x : Option Nat} {s t : State}
    (hd : Disciplined C held x l) (hr : runLines c l s = .next t) : t.lock = if held then .free else s.lock := by
  induction l generalizing held x s with
  | nil =>
    obtain rfl : held = false := hd
    cases hr
    simp
  | cons m l ih =>
    rcases runLines_cases hr with ⟨u, hm, hu⟩ | ⟨hb, rfl⟩
    · obtain ⟨acquired, released, kept⟩ := Micro.run_lock hm
      by_cases ha : m = .acquire
      · obtain ⟨hfree, -⟩ := acquired ha
        subst ha
        obtain ⟨rfl, hd⟩ := hd
        exact (ih hd hu).trans hfree.symm
      by_cases hrel : m = .release
      · have hfree := released hrel
        subst hrel
        obtain ⟨rfl, hd⟩ := hd
        exact (ih hd hu).trans hfree
      by_cases hs : m = .startWalk
      · subst hs
        obtain ⟨rfl, rfl⟩ := hd
        cases hu
        simpa using kept ha hrel
      · obtain ⟨y, hd⟩ := hd.tail ha hrel hs
        rw [ih hd hu, kept ha hrel]
    · rcases Micro.run_blocked hb with rfl | rfl | rfl
      · obtain ⟨rfl, -⟩ := hd
        simp
      · obtain ⟨rfl, -⟩ := hd
        simp
      · exact hd.elim

theorem InitLines.no_lock {c : Cfg} {l : List Micro} (h : InitLines c l) : ∀ m ∈ l, m ≠ .acquire ∧ m ≠ .release := by
  induction l with
  | nil => simp
  | cons m l ih =>
    rcases h.cases with ⟨a, w, rfl, -, h⟩ | ⟨rfl, st, d, msk, rfl⟩
    · exact List.forall_mem_cons.mpr ⟨⟨nofun, nofun⟩, ih h⟩
    · simp

theorem runLines_lock_of_no_lock {c : Ctx} {l : List Micro} {s t : State} (h : ∀ m ∈ l, m ≠ .acquire ∧ m ≠ .release)
    (hr : runLines c l s = .next t) : t.lock = s.lock :=
  runLines_keeps (P := fun u => u.lock = s.lock) hr rfl
    (fun m hm _ _ hu hv => ((Micro.run_lock hv).2.2 (h m hm).1 (h m hm).2).trans hu) fun _ _ hu => by simpa using hu

/-- An operation that has run leaves the lock as it found it (20_memory.md R70). -/
theorem PlanForm.lock {s t : State} (hc : cfgWf s.cfg = true) {i : Instr} {l : List Micro} (h : PlanForm s i l) {c : Ctx}
    (hr : runLines c l s = .next t) : t.lock = s.lock := by
  cases hready : s.ready
  · rcases h.initTail hc hready with ⟨st, d, m, rfl⟩ | ⟨-, hinit⟩
    · exact runLines_lock_of_no_lock (by simp) hr
    · exact runLines_lock_of_no_lock hinit.no_lock hr
  · exact runLines_disciplined_lock (h.disciplined hc hready) hr

/-- Settles O44: the lines of the operation's plan keep its frame one by one, and locked sections that are entered are left. -/
theorem operationFrame : Obligations.OperationFrame := by
  intro i s t h hexec
  rw [exec_eq_runPlan] at hexec
  cases hp : planOf i s with
  | error f => rw [hp] at hexec; cases hexec
  | ok l =>
    rw [hp, State.runPlan] at hexec
    have form := planOf_form hp
    have framed := runLines_framed (form.legal h.cfg) (form.ofOperation h.cfg) hexec
    exact ⟨fun n hn => framed.byteAt hn, framed.kind, framed.ready, framed.walk, framed.draws, form.lock h.cfg hexec, framed.cfg,
      framed.platform, framed.active, framed.samples, framed.line, framed.inputs, framed.others, framed.cmd, framed.op0, framed.op1⟩

end Sys2Proof.Machine
end

section
/-! PROOFS. The statements of 30_encoding.md, command words: a word requests an operation exactly when the bits that operation reads are the operation's own. -/

namespace Sys2Proof

/-! ## The part of each field an operation reads -/

/-- How many bits of the field `arg` an operation reads, from bit 0 of the field up (30_encoding.md R91). -/
def Instr.argWidth : Instr → Nat
  | .locate _ _ | .locatep _ _ | .settype _ _ => 8
  | .set _ _ | .dirout _ _ | .tol _ _ => 1
  | .init _ => 2
  | .incap _ | .outcap _ | .valid _ | .get _ | .dirin _ | .dirq _
  | .mask _ | .unmask _ | .ack _ | .demux => 0

/-- How many bits of the field `idx` an operation reads: all or none (30_encoding.md R91). -/
def Instr.idxWidth : Instr → Nat
  | .demux | .init _ => 0
  | .locate _ _ | .locatep _ _ | .incap _ | .outcap _ | .valid _ | .get _ | .set _ _
  | .dirin _ | .dirout _ _ | .dirq _ | .tol _ _ | .settype _ _
  | .mask _ | .unmask _ | .ack _ => 16

theorem Instr.argWidth_le (i : Instr) : i.argWidth ≤ 8 := by cases i <;> simp [argWidth]
theorem Instr.idxWidth_le (i : Instr) : i.idxWidth ≤ 16 := by cases i <;> simp [idxWidth]

/-- An operation is well formed when its operands fit the bits it reads. -/
theorem Instr.wf_iff (i : Instr) : i.wf = true ↔ i.arg < 2 ^ i.argWidth ∧ i.idx < 2 ^ i.idxWidth := by
  cases i <;> simp [wf, idxFits, argFits, statusFits, arg, idx, argWidth, idxWidth, Bool.toNat_le, and_comm]

/-! ## Decoding -/

theorem bitField_eq_iff (w : Word) (v : Bool) : bitField w = v ↔ argField w % 2 = v.toNat := by
  cases v <;> simp [bitField]

/-- A word requests an operation exactly when its `op` is the operation's and so are the bits of `arg` and `idx` the operation reads (30_encoding.md R91, R100). -/
theorem decode_eq_ok_iff (w : Word) (i : Instr) : decode w = .ok i ↔
    opField w = i.op ∧ argField w % 2 ^ i.argWidth = i.arg ∧ idxField w % 2 ^ i.idxWidth = i.idx := by
  have harg : argField w % 256 = argField w := Nat.mod_eq_of_lt (argField_lt w)
  have hidx : idxField w % 65536 = idxField w := Nat.mod_eq_of_lt (idxField_lt w)
  by_cases hop : opField w = i.op
  · cases i <;> simp [decode, hop, Instr.op, Instr.arg, Instr.idx, Instr.argWidth, Instr.idxWidth, bitField_eq_iff,
      statusField, harg, hidx, Nat.mod_one, and_comm]
  · exact iff_of_false (fun h => hop (op_of_decode h)) fun h => hop h.1

/-- Settles O1: encoding puts `op`, `arg` and `idx` in their fields, and a well-formed operand loses nothing to the bits read. -/
theorem decodeInvertsEncode : Obligations.DecodeInvertsEncode := by
  intro i hwf
  obtain ⟨hop, harg, hidx⟩ := Laws.Fields.statement i hwf
  obtain ⟨hargFits, hidxFits⟩ := i.wf_iff.mp hwf
  rw [decode_eq_ok_iff, hop, harg, hidx]
  exact ⟨rfl, Nat.mod_eq_of_lt hargFits, Nat.mod_eq_of_lt hidxFits⟩

/-! ## The bits read -/

/-- The `n` bits of a word from bit `a` up. -/
def fieldMask (a n : Nat) : Word := (BitVec.allOnes n).setWidth 32 <<< a

theorem getLsbD_fieldMask {a n j : Nat} (hj : j < 32) :
    (fieldMask a n).getLsbD j = true ↔ a ≤ j ∧ j < a + n := by
  simp [fieldMask, hj]; omega

/-- Two words agree on the bits of a field exactly when they hold the same number in it. -/
theorem agree_fieldMask_iff {w w' : Word} {a n : Nat} (h : a + n ≤ 32) :
    (w ^^^ w') &&& fieldMask a n = 0#32 ↔ (w.extractLsb' a n).toNat = (w'.extractLsb' a n).toNat := by
  rw [agree_iff, extract_congr]
  constructor
  · intro hagree j hj
    exact hagree (a + j) (by omega) ((getLsbD_fieldMask (by omega)).mpr (by omega))
  · intro hfield j hj hmask
    obtain ⟨hlow, hhigh⟩ := (getLsbD_fieldMask hj).mp hmask
    simpa [Nat.add_sub_cancel' hlow] using hfield (j - a) (by omega)

theorem and_or_eq_zero_iff (x m m' : Word) : x &&& (m ||| m') = 0#32 ↔ x &&& m = 0#32 ∧ x &&& m' = 0#32 := by
  rw [BitVec.and_or_distrib_left, BitVec.or_eq_zero_iff]

/-- The bits an operation reads are `op` and its parts of `arg` and `idx` (30_encoding.md R91). -/
theorem Instr.readBits_eq (i : Instr) :
    i.readBits = fieldMask 24 8 ||| (fieldMask 16 i.argWidth ||| fieldMask 0 i.idxWidth) := by
  cases i <;> simp only [readBits, argWidth, idxWidth] <;> decide

theorem toNat_extract_arg (w : Word) {n : Nat} (hn : n ≤ 8) : (w.extractLsb' 16 n).toNat = argField w % 2 ^ n := by
  rw [BitVec.extractLsb'_toNat, Nat.shiftRight_eq_div_pow, argField, Nat.mod_mod_of_dvd _ (Nat.pow_dvd_pow 2 hn)]

theorem toNat_extract_idx (w : Word) {n : Nat} (hn : n ≤ 16) : (w.extractLsb' 0 n).toNat = idxField w % 2 ^ n := by
  rw [BitVec.extractLsb'_toNat, Nat.shiftRight_zero, idxField, Nat.mod_mod_of_dvd _ (Nat.pow_dvd_pow 2 hn)]

/-- Two words agree on the bits an operation reads exactly when they hold the same `op` and the same of what it reads of the other fields. -/
theorem agree_readBits_iff (w w' : Word) (i : Instr) : (w ^^^ w') &&& i.readBits = 0#32 ↔
    opField w = opField w' ∧ argField w % 2 ^ i.argWidth = argField w' % 2 ^ i.argWidth
      ∧ idxField w % 2 ^ i.idxWidth = idxField w' % 2 ^ i.idxWidth := by
  have hargWidth := i.argWidth_le
  have hidxWidth := i.idxWidth_le
  rw [i.readBits_eq, and_or_eq_zero_iff, and_or_eq_zero_iff, agree_fieldMask_iff (by omega), agree_fieldMask_iff (by omega),
    agree_fieldMask_iff (by omega), ← opField_eq, ← opField_eq]
  simp only [toNat_extract_arg _ hargWidth, toNat_extract_idx _ hidxWidth]

/-- Once one word requests an operation, the words that request it are those that agree with that word on the bits read (30_encoding.md R91). -/
theorem decode_eq_ok_iff_agree {w : Word} {i : Instr} (h : decode w = .ok i) (w' : Word) :
    decode w' = .ok i ↔ (w ^^^ w') &&& i.readBits = 0#32 := by
  obtain ⟨hop, harg, hidx⟩ := (decode_eq_ok_iff w i).mp h
  rw [agree_readBits_iff, decode_eq_ok_iff, hop, harg, hidx, eq_comm, eq_comm (a := i.arg), eq_comm (a := i.idx)]

theorem wf_of_decode {w : Word} {i : Instr} (h : decode w = .ok i) : i.wf = true := by
  obtain ⟨-, harg, hidx⟩ := (decode_eq_ok_iff w i).mp h
  rw [i.wf_iff, ← harg, ← hidx]
  exact ⟨Nat.mod_lt _ (by positivity), Nat.mod_lt _ (by positivity)⟩

/-- Settles O2: the words that request `i`, its own encoding among them, are those that agree on the bits `i` reads. -/
theorem ignoredBitsNeverMatter : Obligations.IgnoredBitsNeverMatter := by
  intro w i h
  have hwf := wf_of_decode h
  exact ⟨hwf, (decode_eq_ok_iff_agree h _).mp (decodeInvertsEncode i hwf), fun w' => (decode_eq_ok_iff_agree h w').mpr⟩

/-! ## Unassigned values of `op` -/

/-- The `op` values R100 gives to no operation (30_encoding.md R100). -/
def UnassignedOp (op : Nat) : Prop :=
  op = 0 ∨ (0x06 ≤ op ∧ op ≤ 0x0F) ∨ (0x16 ≤ op ∧ op ≤ 0x1F) ∨ (0x25 ≤ op ∧ op ≤ 0x2F) ∨ 0x31 ≤ op

theorem Instr.op_not_unassigned (i : Instr) : ¬ UnassignedOp i.op := by cases i <;> simp [UnassignedOp, op]

/-- Decoding fails only by naming an `op` that R100 gives to no operation (30_encoding.md R101). -/
theorem unassignedOp_of_decode_error {w : Word} {e : DecodeError} (h : decode w = .error e) : UnassignedOp (opField w) := by
  unfold decode at h
  split at h
  case h_18 => simp only [imp_false] at *; unfold UnassignedOp; omega
  all_goals cases h

theorem decode_error_iff (w : Word) : (∃ e, decode w = .error e) ↔ UnassignedOp (opField w) := by
  constructor
  · rintro ⟨e, h⟩
    exact unassignedOp_of_decode_error h
  · intro hop
    cases h : decode w with
    | error e => exact ⟨e, rfl⟩
    | ok i => exact absurd (op_of_decode h ▸ hop) i.op_not_unassigned

/-! ## Written words -/

/-- Settles O4: each word is decoded by evaluation. -/
theorem writtenWordsDecode : Obligations.WrittenWordsDecode := by
  unfold Obligations.WrittenWordsDecode
  decide

end Sys2Proof

namespace Sys2Proof.Machine

theorem State.issue_of_decode_error {s : State} {c : Ctx} {w : Word} {e : DecodeError} (h : decode w = .error e) :
    s.issue c w = .next ((s.accept c w).raise c .invalidArgument) := by
  simp [State.issue, h]

/-- Settles O3: `decode` fails on the unassigned values of `op` alone, and an issued word that it fails on raises InvalidArgument. -/
theorem unassignedOpEndsWithInvalidArgument : Obligations.UnassignedOpEndsWithInvalidArgument :=
  ⟨decode_error_iff, fun _ _ _ _ _ hcfg hinputs hmay hdecode =>
    (step_of_enabled hcfg hinputs hmay).trans (State.issue_of_decode_error hdecode)⟩

end Sys2Proof.Machine
end

section
/-! PROOFS. The statements of 30_encoding.md, the control word: no field of a layout that fits runs into another. -/

namespace Sys2Proof.Machine

/-- What a layout that fits says of its fields (00_scope.md R10). -/
theorem ctrlLayoutFits_iff (c : Cfg) : ctrlLayoutFits c = true ↔
    (16 ≤ c.ctrl.divW ∧ 4 ≤ c.ctrl.fbW)
      ∧ (c.ctrl.divLsb + c.ctrl.divW ≤ c.ctrl.fbLsb ∨ c.ctrl.fbLsb + c.ctrl.fbW ≤ c.ctrl.divLsb)
      ∧ (c.ctrl.divLsb + c.ctrl.divW ≤ c.ctrl.enBit ∨ c.ctrl.enBit + 1 ≤ c.ctrl.divLsb)
      ∧ (c.ctrl.fbLsb + c.ctrl.fbW ≤ c.ctrl.enBit ∨ c.ctrl.enBit + 1 ≤ c.ctrl.fbLsb)
      ∧ c.ctrl.divLsb + c.ctrl.divW ≤ 32 ∧ c.ctrl.fbLsb + c.ctrl.fbW ≤ 32 ∧ c.ctrl.enBit < 32 := by
  simp only [ctrlLayoutFits, disjointFields, Bool.and_eq_true, Bool.or_eq_true, decide_eq_true_eq, and_assoc]

/-- A number put at `lsb` shows its bits inside a field wide enough for it, and 0 outside the field. -/
theorem getLsbD_ofNat_shiftLeft {v lsb width j : Nat} (hv : v < 2 ^ width) (hj : j < 32) :
    (BitVec.ofNat 32 v <<< lsb).getLsbD j
      = if lsb ≤ j ∧ j < lsb + width then v.testBit (j - lsb) else false := by
  have hsub : j - lsb < 32 := by omega
  rw [BitVec.getLsbD_shiftLeft, BitVec.getLsbD_ofNat]
  by_cases hlow : lsb ≤ j
  · by_cases hhigh : j < lsb + width
    · simp [*]
    · have : v.testBit (j - lsb) = false :=
        Nat.testBit_eq_false_of_lt (hv.trans_le (Nat.pow_le_pow_right (by decide) (by omega)))
      simp [*]
  · simp [hlow, Nat.lt_of_not_le hlow]

theorem getLsbD_one_shiftLeft {e j : Nat} (hj : j < 32) : (1#32 <<< e).getLsbD j = decide (j = e) := by
  rw [BitVec.getLsbD_shiftLeft, Bool.eq_iff_iff]
  simp [hj]
  omega

/-- In fields wide enough for them, the divisor and the byte count are cut off nowhere (30_encoding.md R99). -/
theorem getLsbD_ctrlWord {l : CtrlLayout} {d fb j : Nat} (hd : d < 2 ^ l.divW) (hfb : fb < 2 ^ l.fbW) (hj : j < 32) :
    (ctrlWord l d fb).getLsbD j =
      ((if l.divLsb ≤ j ∧ j < l.divLsb + l.divW then d.testBit (j - l.divLsb) else false)
        || (if l.fbLsb ≤ j ∧ j < l.fbLsb + l.fbW then fb.testBit (j - l.fbLsb) else false)
        || decide (j = l.enBit)) := by
  rw [ctrlWord, BitVec.getLsbD_or, BitVec.getLsbD_or, getLsbD_ofNat_shiftLeft hd hj, getLsbD_ofNat_shiftLeft hfb hj,
    getLsbD_one_shiftLeft hj]

/-- Settles O40: the three parts of the word are read bit by bit, and at each bit at most one of the fields stands. -/
theorem controlWordHoldsItsFields : Obligations.ControlWordHoldsItsFields := by
  intro c d fb j hwf hd hfb hj
  obtain ⟨-, -, -, hfits⟩ := cfgWf_parts hwf
  obtain ⟨⟨hdivW, hfbW⟩, hdivFb, hdivEn, hfbEn, -, -, -⟩ := (ctrlLayoutFits_iff c).mp hfits
  have hdiv : d < 2 ^ c.ctrl.divW := (Nat.lt_of_le_of_lt hd (by decide)).trans_le (Nat.pow_le_pow_right (by decide) hdivW)
  have hcount : fb < 2 ^ c.ctrl.fbW := (Nat.lt_of_le_of_lt hfb (by decide)).trans_le (Nat.pow_le_pow_right (by decide) hfbW)
  rw [getLsbD_ctrlWord hdiv hcount hj]
  by_cases inDiv : c.ctrl.divLsb ≤ j ∧ j < c.ctrl.divLsb + c.ctrl.divW
  · have notFb : ¬(c.ctrl.fbLsb ≤ j ∧ j < c.ctrl.fbLsb + c.ctrl.fbW) := by omega
    have notEn : j ≠ c.ctrl.enBit := by omega
    simp [inDiv, notFb, notEn]
  · by_cases inFb : c.ctrl.fbLsb ≤ j ∧ j < c.ctrl.fbLsb + c.ctrl.fbW
    · have notEn : j ≠ c.ctrl.enBit := by omega
      simp [inDiv, inFb, notEn]
    · simp [inDiv, inFb]

end Sys2Proof.Machine
end

section
/-! PROOFS. The statements of 40_locator.md: what the locator answers case by case, that the register map lists its successes and no register has two of them, and what LOCATE and LOCATEP make of its answer. -/

namespace Sys2Proof.Machine

/-! ## The answers of the locator -/

theorem roleCode_lt (r : Role) : roleCode r < 8 := by cases r <;> decide

/-- Codes from 8 up are reserved (30_encoding.md R102). -/
theorem roleOfCode_reserved {code : Nat} (h : 8 ≤ code) : roleOfCode code = none := by
  rw [Option.eq_none_iff_forall_ne_some]
  intro r hr
  have hlt := roleCode_lt r
  rw [roleCode_of_roleOfCode hr] at hlt
  omega

theorem locate_badBank {c : Cfg} {b : Nat} (h : nbanks c ≤ b) (code : Nat) : locate c b code = .error .badBank := by
  simp only [locate, List.getElem?_eq_none h]

section
variable {c : Cfg} {b : Nat} {d : BankDesc} (hd : c.bankTable[b]? = some d)
include hd

theorem locate_badRole {code : Nat} (h : 8 ≤ code) : locate c b code = .error .badRole := by
  simp only [locate, hd, roleOfCode_reserved h]

theorem locate_ok {r : Role} (h : isIrqRole r = true → d.irq = true) : locate c b (roleCode r) = .ok (roleOffset c d r) := by
  simpa [locate, hd] using h

theorem locate_noInterrupts {r : Role} (hr : isIrqRole r = true) (h : d.irq = false) :
    locate c b (roleCode r) = .error .noInterrupts := by
  simp [locate, hd, hr, h]

end

/-! ## Successful lookups -/

theorem mem_regMap_bank {c : Cfg} {b : Nat} {d : BankDesc} (hd : c.bankTable[b]? = some d) {off : Nat} {r : Role} :
    (off, Reg.bank b r) ∈ regMap c ↔ (isIrqRole r = true → d.irq = true) ∧ off = roleOffset c d r := by
  simp [mem_regMap, hd, mem_rolesOf]

/-- The register map lists exactly the successful lookups besides the control register (40_locator.md R129, 20_memory.md R51). -/
theorem locate_eq_ok_iff_mem_regMap {c : Cfg} {b off : Nat} {r : Role} :
    locate c b (roleCode r) = .ok off ↔ (off, Reg.bank b r) ∈ regMap c := by
  cases hd : c.bankTable[b]? with
  | none => simp [mem_regMap, locate, hd]
  | some d =>
    rw [mem_regMap_bank hd]
    by_cases hr : isIrqRole r = true → d.irq = true
    · rw [locate_ok hd hr, Except.ok.injEq, eq_comm, and_iff_right hr]
    · obtain ⟨hrole, hirq⟩ := Classical.not_imp.mp hr
      rw [locate_noInterrupts hd hrole (Bool.eq_false_iff.mpr hirq)]
      exact iff_of_false nofun fun h => hr h.1

theorem rolesOf_length (d : BankDesc) : (rolesOf d).length = if d.irq then 8 else 3 := by
  unfold rolesOf; split <;> rfl

theorem banksMap_length (c : Cfg) (b : Nat) (ds : List BankDesc) :
    (banksMap c b ds).length = 3 * ds.length + 5 * (ds.filter (·.irq)).length := by
  induction ds generalizing b with
  | nil => rfl
  | cons d ds ih =>
    simp only [banksMap, bankMap, List.length_append, List.length_map, rolesOf_length, ih, List.filter_cons]
    split <;> simp only [List.length_cons] <;> omega

/-- Settles O8: the map is counted bank by bank, and it lists what the locator gives. -/
theorem successfulLookupsAreCounted : Obligations.SuccessfulLookupsAreCounted := fun c =>
  ⟨by simp [regMap, banksMap_length, nbanks], fun _ _ _ => locate_eq_ok_iff_mem_regMap⟩

/-! ## One register for each successful lookup -/

/-- The register at a located offset is that of the bank and role looked up. -/
theorem regAt_of_locate {c : Cfg} (h : cfgWf c = true) {b off : Nat} {r : Role} (hl : locate c b (roleCode r) = .ok off) :
    regAt c (c.regBase + off) = some (.bank b r) :=
  regAt_busAddr h (by simp only [busAddr, hl])

theorem locate_inj {c : Cfg} (h : cfgWf c = true) {b b' off : Nat} {r r' : Role} (hl : locate c b (roleCode r) = .ok off)
    (hl' : locate c b' (roleCode r') = .ok off) : b = b' ∧ r = r' :=
  Reg.bank.inj (Option.some.inj ((regAt_of_locate h hl).symm.trans (regAt_of_locate h hl')))

/-- A write to a role changes the register of that role, or, for `val`, the write-latch (20_memory.md R63). -/
theorem writtenRole_cases (r : Role) : writtenRole r = r ∨ (r = .val ∧ writtenRole r = .latch) := by
  cases r <;> simp [writtenRole]

/-- A bus write leaves every register but the written one, and the control register, as it was. -/
theorem State.memWrite_bank_frame {s t : State} {who : Master} {a b : Nat} {r : Role} {v : Word} (hg : regAt s.cfg a = some (.bank b r))
    (hw : s.memWrite who a v = .ok t) : (∀ b' q, b' ≠ b ∨ q ≠ writtenRole r → t.reg b' q = s.reg b' q) ∧ t.ctrl = s.ctrl := by
  obtain ⟨g, hg', -, rfl⟩ := State.memWrite_cases hw
  obtain rfl : Reg.bank b r = g := Option.some.inj (hg.symm.trans hg')
  exact ⟨fun b' q hne => s.writeReg_reg_ne hne v, s.writeReg_bank_ctrl b r v⟩

/-- Settles O7: the address of a located offset is that of one register, and a write there reaches no other but the coupled latch. -/
theorem locatorIsInjective : Obligations.LocatorIsInjective := by
  refine ⟨fun c b b' r r' off h hl hl' => locate_inj h hl hl', fun s t who b r off v h hl hw => ?_⟩
  obtain ⟨hreg, hctrl⟩ := State.memWrite_bank_frame (regAt_of_locate h.cfg hl) hw
  refine ⟨fun b' q hother huncoupled => hreg b' q ?_, hctrl⟩
  rcases writtenRole_cases r with hrole | ⟨hval, hrole⟩ <;> rw [hrole]
  · exact hother
  · exact not_and_or.mp fun ⟨hb, hlatch⟩ => huncoupled ⟨hval, hb, hlatch⟩

/-! ## LOCATE and LOCATEP -/

/-- What LOCATE and LOCATEP make of the locator's answer: LOCATE with the mask 0, LOCATEP with the pin's mask (40_locator.md R121, R126). -/
def locatorPlan (m : Word) : Except LocateError Nat → Plan
  | .ok off              => .ok [.answer (statusCode .ok) (BitVec.ofNat 32 off) m]
  | .error .badBank      => raisePlan .invalidArgument
  | .error .badRole      => raisePlan .invalidArgument
  | .error .noInterrupts => .error .contractViolation

theorem exec_locate (b code : Nat) (s : State) : exec (.locate b code) s = s.runPlan (locatorPlan 0#32 (locate s.cfg b code)) := by
  simp only [exec_eq_runPlan, planOf, planLocate]
  rcases locate s.cfg b code with (_ | _ | _) | off <;> rfl

theorem exec_locatep_out_of_range {s : State} {p : Nat} (hp : s.cfg.ngpio ≤ p) (code : Nat) :
    exec (.locatep p code) s = s.runPlan (raisePlan .invalidArgument) := by
  simp only [exec_eq_runPlan, planOf, planLocatep, Nat.not_lt.mpr hp, if_false]

theorem exec_locatep {s : State} {p : Nat} (hp : p < s.cfg.ngpio) (code : Nat) :
    exec (.locatep p code) s = s.runPlan (locatorPlan (maskOf p) (locate s.cfg (bankOf p) code)) := by
  simp only [exec_eq_runPlan, planOf, planLocatep, hp, if_true]
  rcases locate s.cfg (bankOf p) code with (_ | _ | _) | off <;> rfl

theorem runPlan_answer_masked {s : State} (h : s.Idle) (k : Status) (data mask : Word) :
    s.runPlan (.ok [.answer (statusCode k) data mask]) = .next (s.ended k data mask) := by
  simp only [State.runPlan, runLines_answer, runLines_nil, State.answer_ended h, State.ended]

/-- How the lookup of a role code in the bank of descriptor `d` ends, the mask of the answer being `m` (40_locator.md R121, R124). -/
def LookupEnds (s : State) (d : BankDesc) (code : Nat) (m : Word) (res : Result State) : Prop :=
  (8 ≤ code → res = .next (s.ended .invalidArgument 0#32 0#32))
    ∧ ∀ r, roleCode r = code →
      ((isIrqRole r = true → d.irq = true) → res = .next (s.ended .ok (BitVec.ofNat 32 (roleOffset s.cfg d r)) m))
        ∧ (isIrqRole r = true → d.irq = false → res = .fault .contractViolation)

theorem runPlan_locatorPlan_lookupEnds {s : State} (h : s.Idle) {b : Nat} {d : BankDesc} (hd : s.cfg.bankTable[b]? = some d) (code : Nat)
    (m : Word) : LookupEnds s d code m (s.runPlan (locatorPlan m (locate s.cfg b code))) := by
  refine ⟨fun hcode => ?_, ?_⟩
  · rw [locate_badRole hd hcode]
    exact runPlan_raise h _
  · rintro r rfl
    refine ⟨fun hirq => ?_, fun hrole hirq => ?_⟩
    · rw [locate_ok hd hirq]
      exact runPlan_answer_masked h _ _ _
    · rw [locate_noInterrupts hd hrole hirq]
      rfl

/-- Settles O9: outside the table the bank is refused, and inside it the lookup ends as the descriptor says. -/
theorem locateAnswersOffset : Obligations.LocateAnswersOffset := by
  intro s b code h
  rw [exec_locate]
  refine ⟨fun hb => ?_, fun d hd => runPlan_locatorPlan_lookupEnds h hd code 0#32⟩
  rw [locate_badBank hb]
  exact runPlan_raise h _

/-- Settles O10: a pin in range has a descriptor, and the lookup in its bank ends as LOCATE's does, with the pin's mask. -/
theorem locatepAnswersOffsetAndMask : Obligations.LocatepAnswersOffsetAndMask := by
  intro s p code h hwf
  refine ⟨fun hp => ?_, fun hp => ?_⟩
  · rw [exec_locatep_out_of_range hp]
    exact runPlan_raise h _
  · obtain ⟨d, hd⟩ := bank_of_pin hwf hp
    rw [exec_locatep hp]
    exact ⟨d, hd, runPlan_locatorPlan_lookupEnds h hd code (maskOf p)⟩

end Sys2Proof.Machine
end

section
/-! PROOFS. The statements of 41_capability.md: what the scan of the override table finds, the capabilities of a pin whose bank has an entry and of one whose bank has none, and the answers of INCAP, OUTCAP and VALID. -/

namespace Sys2Proof.Machine

/-! ## The scan -/

theorem capEntry_sentinel {e : CapEntry} (h : isSentinel e = true) (es : List CapEntry) (b : Nat) : capEntry (e :: es) b = none := by
  simp only [capEntry, h, if_true]

theorem capEntry_found {e : CapEntry} (h : isSentinel e = false) (es : List CapEntry) : capEntry (e :: es) e.bank = some e := by
  simp [capEntry, h]

theorem capEntry_skip {e : CapEntry} {b : Nat} (h : isSentinel e = false) (hb : e.bank ≠ b) (es : List CapEntry) :
    capEntry (e :: es) b = capEntry es b := by simp [capEntry, h, hb]

/-- Settles O11, by induction on the table: a sentinel ends both scans, and before it both take the first entry of the bank. -/
theorem scanFindsFirstEntryBeforeSentinel : Obligations.ScanFindsFirstEntryBeforeSentinel := by
  intro l b
  induction l with
  | nil => rfl
  | cons e es ih =>
    cases hs : isSentinel e with
    | true => simp [capEntry_sentinel hs, hs]
    | false =>
      by_cases hb : e.bank = b
      · subst hb
        simp [capEntry_found hs, hs]
      · simp [capEntry_skip hs hb, hs, hb, ih]

theorem capEntry_eq_none_iff {l : List CapEntry} {b : Nat} :
    capEntry l b = none ↔ ∀ e ∈ l.takeWhile (fun e => !isSentinel e), e.bank ≠ b := by
  simp only [scanFindsFirstEntryBeforeSentinel l b, List.find?_eq_none, decide_eq_true_eq, ne_eq]

theorem capEntry_append {before : List CapEntry} {b : Nat} (h : ∀ x ∈ before, isSentinel x = false ∧ x.bank ≠ b) (l : List CapEntry) :
    capEntry (before ++ l) b = capEntry l b := by
  induction before with
  | nil => rfl
  | cons x xs ih =>
    rw [List.forall_mem_cons] at h
    obtain ⟨⟨hs, hb⟩, hxs⟩ := h
    exact (capEntry_skip hs hb _).trans (ih hxs)

/-! ## The capabilities of a pin -/

theorem capable_of_capEntry_none {c : Cfg} {p : Nat} (h : capEntry c.capTable (p / 32) = none) :
    inputCapable c p = true ∧ outputCapable c p = true := by
  simp only [inputCapable, outputCapable, bankOf, h, and_self]

theorem capable_of_capEntry_some {c : Cfg} {p : Nat} {e : CapEntry} (h : capEntry c.capTable (p / 32) = some e) :
    inputCapable c p = e.inMask.getLsbD (p % 32) ∧ outputCapable c p = e.outMask.getLsbD (p % 32) := by
  simp only [inputCapable, outputCapable, bankOf, h, pinBit, bitOf, and_self]

/-- Settles O12: the scan finds no entry, and the default is permissive. -/
theorem absentBankIsFullyCapable : Obligations.AbsentBankIsFullyCapable := fun _ _ habsent =>
  capable_of_capEntry_none (capEntry_eq_none_iff.mpr habsent)

/-- Settles O13: the scan passes over the entries before the bank's own and ends there. -/
theorem presentBankHasExactlyItsMasks : Obligations.PresentBankHasExactlyItsMasks := by
  intro c p before after e htable hbefore hs hb
  refine capable_of_capEntry_some ?_
  rw [htable, capEntry_append hbefore, ← hb]
  exact capEntry_found hs after

/-! ## INCAP, OUTCAP and VALID -/

theorem validPin_in_range {c : Cfg} {p : Nat} (hp : p < c.ngpio) : validPin c p = (inputCapable c p || outputCapable c p) := by
  simp only [validPin, hp, decide_true, Bool.true_and]

theorem validPin_out_of_range {c : Cfg} {p : Nat} (hp : c.ngpio ≤ p) : validPin c p = false := by
  simp only [validPin, Nat.not_lt.mpr hp, decide_false, Bool.false_and]

section
variable {s : State} {p : Nat} (h : s.Idle)
include h

theorem exec_incap (hp : p < s.cfg.ngpio) : exec (.incap p) s = .next (s.ended .ok (boolWord (inputCapable s.cfg p)) 0#32) := by
  simp only [exec_eq_runPlan, planOf, planIncap, hp, if_true, runPlan_answer h, State.ended]

theorem exec_incap_out_of_range (hp : s.cfg.ngpio ≤ p) : exec (.incap p) s = .next (s.ended .invalidArgument 0#32 0#32) := by
  simp only [exec_eq_runPlan, planOf, planIncap, Nat.not_lt.mpr hp, if_false, runPlan_raise h, State.ended]

theorem exec_outcap (hp : p < s.cfg.ngpio) : exec (.outcap p) s = .next (s.ended .ok (boolWord (outputCapable s.cfg p)) 0#32) := by
  simp only [exec_eq_runPlan, planOf, planOutcap, hp, if_true, runPlan_answer h, State.ended]

theorem exec_outcap_out_of_range (hp : s.cfg.ngpio ≤ p) : exec (.outcap p) s = .next (s.ended .invalidArgument 0#32 0#32) := by
  simp only [exec_eq_runPlan, planOf, planOutcap, Nat.not_lt.mpr hp, if_false, runPlan_raise h, State.ended]

theorem exec_valid (p : Nat) : exec (.valid p) s = .next (s.ended .ok (boolWord (validPin s.cfg p)) 0#32) := by
  simp only [exec_eq_runPlan, planOf, planValid, runPlan_answer h, State.ended]

theorem exec_valid_out_of_range (hp : s.cfg.ngpio ≤ p) : exec (.valid p) s = .next (s.ended .ok 0#32 0#32) := by
  rw [exec_valid h, validPin_out_of_range hp]
  rfl

end

/-- Settles O14: the three operations only answer, and VALID's predicate is the two capabilities in range and false out of it. -/
theorem capabilityOperationsAnswer : Obligations.CapabilityOperationsAnswer := by
  intro s p h
  refine ⟨fun hp => ⟨exec_incap h hp, exec_outcap h hp, ?_⟩,
    fun hp => ⟨exec_incap_out_of_range h hp, exec_outcap_out_of_range h hp, exec_valid_out_of_range h hp⟩⟩
  rw [exec_valid h, validPin_in_range hp]
  simp only [boolWord, Bool.or_eq_true]

end Sys2Proof.Machine
end

section
/-! PROOFS. The statements of 42_pin_io.md, the Pin I/O Engine: what GET, SET, DIRIN, DIROUT, DIRQ and TOL do in one run from a ready state. -/

namespace Sys2Proof.Machine

/-! ## A bit update as one change of the state -/

@[simp] theorem State.updated_cfg (s : State) (src a : Nat) (w n : Word) (b : Nat) (r : Role) :
    (s.updated src a w n b r).cfg = s.cfg := by simp [State.updated]
@[simp] theorem State.updated_active (s : State) (src a : Nat) (w n : Word) (b : Nat) (r : Role) :
    (s.updated src a w n b r).active = s.active := by simp [State.updated]
@[simp] theorem State.updated_ready (s : State) (src a : Nat) (w n : Word) (b : Nat) (r : Role) :
    (s.updated src a w n b r).ready = s.ready := by simp [State.updated]
@[simp] theorem State.updated_ctx_todo (s : State) (src a : Nat) (w n : Word) (b : Nat) (r : Role) :
    ((s.updated src a w n b r).ctx s.active).todo = (s.ctx s.active).todo := by simp [State.updated]

@[simp] theorem State.ended_cfg (s : State) (k : Status) (d m : Word) : (s.ended k d m).cfg = s.cfg := by simp [State.ended]
@[simp] theorem State.ended_active (s : State) (k : Status) (d m : Word) : (s.ended k d m).active = s.active := by simp [State.ended]
@[simp] theorem State.ended_ready (s : State) (k : Status) (d m : Word) : (s.ended k d m).ready = s.ready := by simp [State.ended]
@[simp] theorem State.ended_reg (s : State) (k : Status) (d m : Word) (b : Nat) (r : Role) : (s.ended k d m).reg b r = s.reg b r := by
  simp [State.ended]

theorem State.Idle.ended {s : State} (h : s.Idle) (k : Status) (d m : Word) : (s.ended k d m).Idle := by
  rw [State.Idle, State.ended_active, State.ended, State.answer_ctx_todo, h]

theorem State.Idle.updated {s : State} (h : s.Idle) (src a : Nat) (w n : Word) (b : Nat) (r : Role) : (s.updated src a w n b r).Idle := by
  rw [State.Idle, State.updated_active, State.updated_ctx_todo, h]

theorem State.Shaped.updated {s : State} (h : s.Shaped) (src a : Nat) (w n : Word) (b : Nat) (r : Role) :
    (s.updated src a w n b r).Shaped :=
  (((h.log _).setTmp _ _).putReg b r n).log _

/-- After a bit update the register holds the word written. -/
theorem State.updated_reg {s : State} {b : Nat} {r : Role} {old : Word} (h : s.reg b r = some old) (src a : Nat) (w n : Word) :
    (s.updated src a w n b r).reg b r = some n :=
  State.reg_putReg_self (by simpa using h) n

/-- A write to a role other than `ISTAT` puts its word into the role's register, that of the write-latch for `VAL` (20_memory.md R63). -/
theorem State.writeReg_bank_eq_putReg (s : State) (b : Nat) {r : Role} (h : r ≠ .istat) (v : Word) :
    s.writeReg (.bank b r) v = s.putReg b (writtenRole r) v := by
  cases r with
  | istat => exact absurd rfl h
  | _ => rfl

/-- With the lock free, the lines of a locked bit update read one word, write it back with the pin's bit replaced, and answer OK (20_memory.md R60, R70). -/
theorem State.Quiet.runPlan_updateLines {s : State} (hq : s.Quiet) (h : s.Shaped) {src a b : Nat} {r : Role} {g : Reg} {w : Word}
    (hs : regAt s.cfg src = some g) (hw : s.wordAt src = some w) (ha : regAt s.cfg a = some (.bank b r)) (hl : r ≠ .latch)
    (hi : r ≠ .istat) (p : Nat) (v : Bool) :
    s.runPlan (.ok (updateLines src a p v))
      = .next ((s.updated src a w (putBits w (maskOf p) v) b (writtenRole r)).ended .ok 0#32 0#32) := by
  have hnolatch : ∀ b', Reg.bank b r ≠ .bank b' .latch := by rintro b' ⟨⟩; exact hl rfl
  have hidle : ((s.updated src a w (putBits w (maskOf p) v) b (writtenRole r)).ctx s.active).todo = [] :=
    (State.updated_ctx_todo ..).trans hq.idle
  rw [State.runPlan, updateLines, runLines_locked_update h hq.lock hs hw ha hnolatch, State.writeReg_bank_eq_putReg _ _ hi, answerOk,
    runLines_answer, runLines_nil, State.ended, State.updated_active]
  exact congrArg _ (State.answer_ended hidle ..)

/-! ## The operations on a pin in range -/

section
variable {s : State} {p : Nat} (hr : s.ready = true) (hp : p < s.cfg.ngpio)
include hr hp

/-- SET of an output-capable pin runs SET's lines (42_pin_io.md R162). -/
theorem exec_set_capable (hc : outputCapable s.cfg p = true) (v : Bool) : exec (.set p v) s = s.runPlan (setLines p v s) := by
  simp only [exec_eq_runPlan, planOf, planSet, prologue_ready hr hp, hc, if_true]

/-- DIROUT of an output-capable pin runs SET's lines (42_pin_io.md R168). -/
theorem exec_dirout_capable (hc : outputCapable s.cfg p = true) (v : Bool) : exec (.dirout p v) s = s.runPlan (setLines p v s) := by
  simp only [exec_eq_runPlan, planOf, planDirout, prologue_ready hr hp, hc, if_true]

/-- GET reads one register, the latch or `VAL`, and answers the pin's bit of it (42_pin_io.md R160). -/
theorem exec_get {r : Role} (hrole : (if outputCapable s.cfg p then Role.latch else .val) = r) {a : Nat}
    (ha : busAddr s.cfg (bankOf p) r = .ok a) : exec (.get p) s = runLines s.active [.read a, .answerBit (bitOf p)] s := by
  simp only [exec_eq_runPlan, planOf, planGet, prologue_ready hr hp, hrole, ha, State.runPlan]

/-- TOL runs the lines of a bit update of the tolerance register (42_pin_io.md R170). -/
theorem exec_tol {a : Nat} (ha : busAddr s.cfg (bankOf p) .tol = .ok a) (v : Bool) :
    exec (.tol p v) s = s.runPlan (.ok (updateLines a a p v)) := by
  simp only [exec_eq_runPlan, planOf, planTol, prologue_ready hr hp, ha]
  rfl

variable (h : s.Idle)
include h

theorem exec_set_incapable (hc : outputCapable s.cfg p = false) (v : Bool) : exec (.set p v) s = .next (s.ended .ok 0#32 0#32) := by
  simp [exec_eq_runPlan, planOf, planSet, prologue_ready hr hp, hc, runPlan_answer h, State.ended]

theorem exec_dirout_incapable (hc : outputCapable s.cfg p = false) (v : Bool) :
    exec (.dirout p v) s = .next (s.ended .notSupported 0#32 0#32) := by
  simp [exec_eq_runPlan, planOf, planDirout, prologue_ready hr hp, hc, runPlan_raise h, State.ended]

theorem exec_dirin_capable (hc : inputCapable s.cfg p = true) : exec (.dirin p) s = .next (s.ended .ok 0#32 0#32) := by
  simp [exec_eq_runPlan, planOf, planDirin, prologue_ready hr hp, hc, runPlan_answer h, State.ended]

theorem exec_dirin_incapable (hc : inputCapable s.cfg p = false) : exec (.dirin p) s = .next (s.ended .notSupported 0#32 0#32) := by
  simp [exec_eq_runPlan, planOf, planDirin, prologue_ready hr hp, hc, runPlan_raise h, State.ended]

end

/-! ## SET and TOL -/

/-- With the lock free, SET of an output-capable pin reads the latch and writes it back with the pin's bit replaced, through `VAL` (42_pin_io.md R162). -/
theorem State.Quiet.runPlan_setLines {s : State} (hq : s.Quiet) (h : s.Shaped) {p : Nat} (hp : p < s.cfg.ngpio) (v : Bool) :
    ∃ src dst w, busAddr s.cfg (bankOf p) .latch = .ok src ∧ busAddr s.cfg (bankOf p) .val = .ok dst ∧ s.reg (bankOf p) .latch = some w
      ∧ s.runPlan (setLines p v s)
          = .next ((s.updated src dst w (putBits w (maskOf p) v) (bankOf p) .latch).ended .ok 0#32 0#32) := by
  obtain ⟨src, hsrc, hsreg, hword⟩ := h.reg_of_pin hp (r := .latch) nofun
  obtain ⟨dst, hdst, hdreg, -⟩ := h.reg_of_pin hp (r := .val) nofun
  obtain ⟨w, hw, hat⟩ := hword nofun
  refine ⟨src, dst, w, hsrc, hdst, hw, ?_⟩
  simp only [setLines, hsrc, hdst]
  exact hq.runPlan_updateLines h hsreg hat hdreg nofun nofun p v

/-- Settles O17: SET runs one locked bit update from the latch to `VAL`. -/
theorem setWritesCombinedWord : Obligations.SetWritesCombinedWord := by
  intro s p v h hq hr hp hc
  obtain ⟨src, dst, w, hsrc, hdst, hw, hrun⟩ := hq.runPlan_setLines h hp v
  exact ⟨src, dst, w, _, hsrc, hdst, hw, getLsbD_putBits_maskOf w p v, (exec_set_capable hr hp hc v).trans hrun⟩

/-- Settles O22: TOL runs one locked bit update of the tolerance register, whatever the pin's capabilities. -/
theorem tolChangesOneBit : Obligations.TolChangesOneBit := by
  intro s p v h hq hr hp
  obtain ⟨a, ha, hreg, hword⟩ := h.reg_of_pin hp (r := .tol) nofun
  obtain ⟨w, hw, hat⟩ := hword nofun
  exact ⟨a, w, _, ha, hw, getLsbD_putBits_maskOf w p v,
    (exec_tol hr hp ha v).trans (hq.runPlan_updateLines h hreg hat hreg nofun nofun p v)⟩

/-- Settles O18: the plan of SET on such a pin only answers. -/
theorem setOnOtherPinDoesNothing : Obligations.SetOnOtherPinDoesNothing :=
  fun _ _ v h hr hp hc => exec_set_incapable hr hp h hc v

/-! ## GET -/

/-- The last line of GET ends the operation with the bit of the word read. -/
theorem State.Idle.runLines_answerBit_last {s : State} (h : s.Idle) (w : Word) (i : Nat) :
    runLines s.active [.answerBit i] (s.setTmp s.active w) = .next ((s.setTmp s.active w).ended .ok (boolWord (w.getLsbD i)) 0#32) := by
  have hidle : ((s.setTmp s.active w).ctx s.active).todo = [] := (State.setTmp_ctx_todo ..).trans h
  simp only [runLines_answerBit, runLines_nil, State.setTmp_ctx_tmp, State.answer_ended hidle, State.ended,
    State.setTmp_active]

/-- Settles O15: GET reads the latch, which is a storage register, and needs no lock. -/
theorem getOnOutputPinReadsLatch : Obligations.GetOnOutputPinReadsLatch := by
  intro s p h hidle hr hp hc
  obtain ⟨a, ha, hreg, hword⟩ := h.reg_of_pin hp (r := .latch) nofun
  obtain ⟨w, hw, hat⟩ := hword nofun
  refine ⟨a, w, ha, hw, ?_⟩
  rw [exec_get hr hp (if_pos hc) ha, runLines_read h hreg hat]
  exact State.Idle.runLines_answerBit_last (s := s.log _) (by simpa [State.Idle] using hidle) w _

/-- Settles O16: GET reads `VAL`, and a read there is a draw. -/
theorem getOnOtherPinReadsDraw : Obligations.GetOnOtherPinReadsDraw := by
  intro s p h hidle hr hp hc
  obtain ⟨a, ha, hreg, -⟩ := h.reg_of_pin hp (r := .val) nofun
  refine ⟨a, _, ha, rfl, ?_⟩
  rw [exec_get hr hp (if_neg (by simp [hc])) ha, runLines_read_val h hreg]
  exact State.Idle.runLines_answerBit_last (s := s.countDraw.log _) (by simpa [State.Idle] using hidle) _ _

/-- Settles O19: the latch holds the word SET wrote, and GET reads it there. -/
theorem getReturnsWhatWasSet : Obligations.GetReturnsWhatWasSet := by
  intro s p v h hq hr hp hc
  obtain ⟨src, dst, w, -, -, hw, hrun⟩ := hq.runPlan_setLines h hp v
  obtain ⟨a, w', -, hw', hget⟩ := getOnOutputPinReadsLatch _ p ((h.updated ..).answer ..) ((State.Idle.updated hq.idle ..).ended ..)
    (by simpa using hr) (by simpa using hp) (by simpa using hc)
  obtain rfl := Option.some.inj ((State.updated_reg hw ..).symm.trans ((State.ended_reg ..).symm.trans hw'))
  refine ⟨_, _, (exec_set_capable hr hp hc v).trans hrun, hget, ?_⟩
  simp [State.ended, getLsbD_putBits_maskOf, statusCode]

/-! ## Directions -/

/-- Settles O20: DIRIN only answers, and DIROUT of an output-capable pin runs SET's lines. -/
theorem directionFailsExactlyWithoutCapability : Obligations.DirectionFailsExactlyWithoutCapability := by
  intro s p v h hidle hr hp
  refine ⟨exec_dirin_capable hr hp hidle, exec_dirin_incapable hr hp hidle, fun hc => ⟨?_, fun hlock => ?_⟩,
    fun hc => exec_dirout_incapable hr hp hidle hc v⟩
  · rw [exec_dirout_capable hr hp hc, exec_set_capable hr hp hc]
  · obtain ⟨src, dst, w, -, -, -, hrun⟩ := State.Quiet.runPlan_setLines ⟨hidle, hlock⟩ h hp v
    refine ⟨_, (exec_dirout_capable hr hp hc v).trans hrun, ?_⟩
    simp [State.ended, statusCode]

/-- Settles O21: output capability is tested first, then input capability. -/
theorem directionQueryPrefersOutput : Obligations.DirectionQueryPrefersOutput := by
  intro s p hidle hr hp
  simp only [exec_eq_runPlan, planOf, planDirq, prologue_ready hr hp]
  refine ⟨fun ho => ?_, fun ho hi => ?_, fun ho hi => ?_⟩
  · simp only [ho, if_true]; exact runPlan_answer hidle directionOutput
  · simp only [ho, hi, if_true]; exact runPlan_answer hidle directionInput
  · simp only [ho, hi]; exact runPlan_raise hidle .notSupported

end Sys2Proof.Machine
end

section
/-! PROOFS. The statements of 42_pin_io.md, bit updates in progress: the write half of a bit update writes the word that stands in the register with the pin's bit replaced, and so no step changes the latch bit of a pin that is not output-capable. -/

namespace Sys2Proof.Machine

/-! ## The write half of a bit update -/

/-- INIT has no bit updates, so where one is in progress INIT has ended. -/
theorem State.Inv.ready_of_writeBit {s : State} (h : s.Inv) {c : Ctx} {src a : Nat} {m : Word} {v : Bool} {l : List Micro}
    (htodo : (s.ctx c).todo = .writeBit src a m v :: l) : s.ready = true := by
  by_contra hr
  have htail := (h.before (by simpa using hr)).tail c
  rw [htodo] at htail
  rcases htail with hl | ⟨st, d, msk, hl⟩ | hl
  · cases hl
  · cases hl
  · rcases hl.cases with ⟨b, w, hline, -⟩ | ⟨hline, -⟩ <;> cases hline

/-- At the write half of a bit update the word read still stands in the source register (42_pin_io.md R165). -/
theorem State.Inv.tmp_of_writeBit {s : State} (h : s.Inv) {c : Ctx} {src a : Nat} {m : Word} {v : Bool} {l : List Micro}
    (htodo : (s.ctx c).todo = .writeBit src a m v :: l) {w : Word} (hw : s.wordAt src = some w) : (s.ctx c).tmp = w := by
  have hr := h.ready_of_writeBit htodo
  obtain ⟨x, ⟨-, hx, -⟩, hfresh⟩ := (h.after hr c).disc htodo nofun
  exact hfresh src w hx (h.holds_of_writes hr htodo (.inl ⟨src, a, m, v, rfl⟩)) hw

/-- The write half of a bit update is made, and puts the word that stands in the source register back with the mask's bits replaced. -/
theorem State.Inv.moveContext_writeBit {s : State} (h : s.Inv) {c : Ctx} {src a : Nat} {m : Word} {v : Bool} {l : List Micro}
    (htodo : (s.ctx c).todo = .writeBit src a m v :: l) :
    ∃ t w, s.moveContext c = .made t ∧ s.wordAt src = some w ∧ t.wordAt src = some (putBits w m v) := by
  obtain ⟨p, -, -, hupdate⟩ : (Micro.writeBit src a m v).Legal s.cfg := h.legal c _ (htodo ▸ List.mem_cons_self)
  obtain ⟨g, hg, hnolatch⟩ := hupdate.not_latch
  obtain ⟨r, ha, hsrc, hstat, -⟩ := hupdate.written
  obtain rfl : g = .bank (bankOf p) r := Option.some.inj (hg.symm.trans ha)
  obtain ⟨d, hd, hirq, -⟩ := regAt_bank hsrc
  obtain ⟨w, hw⟩ := h.shaped.reg_some hd hirq (by cases r <;> nofun)
  have hat : s.wordAt src = some w := (State.wordAt_bank hsrc).trans hw
  refine ⟨_, w, by simp only [State.moveContext, htodo, Micro.run, State.memWrite_ok h.shaped hg hnolatch]; rfl, hat, ?_⟩
  rw [h.tmp_of_writeBit htodo hat, State.setTodo_wordAt, State.log_wordAt, State.wordAt_bank (by simpa using hsrc),
    State.writeReg_reg_self hw, writtenWord, if_neg hstat]

/-- Settles O56: no other agent has written the source register since the read half, since the context holds the lock. -/
theorem noUpdateIsLost : Obligations.NoUpdateIsLost :=
  fun _ _ _ _ _ _ _ h _ htodo => h.moveContext_writeBit htodo

/-! ## An accepted command keeps the invariant -/

theorem State.accept_todo (s : State) (c d : Ctx) (w : Word) : ((s.accept c w).ctx d).todo = (s.ctx d).todo := by
  by_cases h : d = c
  · rw [h, State.accept_ctx_todo]
  · rw [State.accept_ctx_ne s h]

theorem State.accept_tmp (s : State) (c d : Ctx) (w : Word) : ((s.accept c w).ctx d).tmp = (s.ctx d).tmp := by
  by_cases h : d = c
  · rw [h, State.accept_ctx_tmp]
  · rw [State.accept_ctx_ne s h]

/-- Writing `CMD` has no part in the invariant. -/
theorem State.Inv.accept {s : State} (h : s.Inv) (c : Ctx) (w : Word) : (s.accept c w).Inv :=
  h.congr (by simp) (by simp) (by simp) (by simp) (by simp) (by simp) (by simp) (by simp) (by simp)
    (fun d => s.accept_todo c d w) (fun d => s.accept_tmp c d w)

/-- No plan is the wait for the walk's answer alone: that wait follows the walk's start. -/
theorem PlanForm.ne_awaitWalk {s : State} {i : Instr} {l : List Micro} (h : PlanForm s i l) : l ≠ [.awaitWalk] := by
  cases h <;> nofun

/-- A disciplined operation of a context that does not hold the lock begins in progress. -/
theorem State.InProgress.of_setTodo {s : State} {c : Ctx} {l : List Micro} (hlegal : ∀ m ∈ l, m.Legal s.cfg)
    (hdisc : Disciplined s.cfg false none l) (hlock : s.lock ≠ .held c) : (s.setTodo c l).InProgress c := by
  refine ⟨by simpa using hlegal, .inr ⟨none, ?_, nofun⟩⟩
  simpa [hlock] using hdisc

/-- Another context's list of lines has no part in an operation in progress. -/
theorem State.InProgress.setTodo_ne {s : State} {c d : Ctx} (h : s.InProgress d) (hd : d ≠ c) (l : List Micro) :
    (s.setTodo c l).InProgress d := by
  simpa only [State.InProgress, State.FreshRead, State.setTodo_ctx_ne s hd, State.setTodo_cfg, State.setTodo_lock,
    State.setTodo_wordAt] using h

section
variable {s : State} {c : Ctx} {i : Instr} {l : List Micro} (h : s.Inv) (hidle : (s.ctx c).todo = []) (hform : PlanForm s i l)
include h hidle hform

/-- A plan put in progress where nothing is leaves the walk's owner as it was. -/
theorem State.Inv.walkOwner_setTodo (hint : c = .interrupt → s.dispatching = true) : (s.setTodo c l).WalkOwner := by
  refine ⟨fun d hd => ?_, fun k hne hfor => ?_, fun hdisp => ?_⟩
  · by_cases hdc : d = c
    · subst hdc
      exact absurd ((State.setTodo_ctx_todo ..).symm.trans hd) hform.ne_awaitWalk
    · rw [State.setTodo_ctx_ne s hdc] at hd
      simpa using h.owner.waits d hd
  · have hwaits := h.owner.normal k (by simpa using hne) (by simpa using hfor)
    have hkc : .normal k ≠ c := by rintro rfl; rw [hidle] at hwaits; cases hwaits
    rwa [State.setTodo_ctx_ne s hkc]
  · have hci : .interrupt ≠ c := by
      rintro rfl
      rw [State.setTodo_dispatching, hint rfl] at hdisp
      cases hdisp
    have hsame : (s.setTodo c l).interrupt = s.interrupt := State.setTodo_ctx_ne s hci l
    rw [hsame]
    exact h.owner.between (by simpa using hdisp)

/-- Before INIT a plan put in progress is an answer, or INIT's lines where no INIT is in progress. -/
theorem State.Inv.uninitialised_setTodo (hr : s.ready = false) (honce : (∃ cs, i = .init cs) → ∀ d, Micro.setReady ∉ (s.ctx d).todo)
    (hint : c = .interrupt → s.dispatching = true) : (s.setTodo c l).Uninitialised := by
  have hbefore := h.before hr
  have hdisp : s.dispatching = false := by simp [State.dispatching, hbefore.dmx]
  have hplan := hform.initTail h.shaped.cfg hr
  refine ⟨by simpa using hbefore.lock, by simpa using hbefore.dmx,
    (h.walkOwner_setTodo hidle hform hint).between (by simpa using hdisp), fun d => ?_, fun d e hd he => ?_⟩
  · rw [State.setTodo_cfg]
    by_cases hdc : d = c
    · rw [hdc, State.setTodo_ctx_todo]
      rcases hplan with ⟨st, dat, msk, hl⟩ | ⟨-, hl⟩
      · exact .answering st dat msk hl
      · exact .init hl
    · rw [State.setTodo_ctx_ne s hdc]
      exact hbefore.tail d
  · have hcase : ∀ x, InitLines s.cfg ((s.setTodo c l).ctx x).todo → (x = c ∧ InitLines s.cfg l) ∨ InitLines s.cfg (s.ctx x).todo := by
      intro x hx
      by_cases hxc : x = c
      · subst hxc; exact .inl ⟨rfl, by simpa using hx⟩
      · rw [State.setTodo_ctx_ne s hxc] at hx; exact .inr hx
    have hone : ∀ x, InitLines s.cfg l → ¬InitLines s.cfg (s.ctx x).todo := by
      intro x hl hx
      rcases hplan with ⟨st, dat, msk, rfl⟩ | ⟨hinit, -⟩
      · cases hl
      · exact honce hinit x hx.setReady
    rw [State.setTodo_cfg] at hd he
    rcases hcase d hd with ⟨rfl, hl⟩ | hd' <;> rcases hcase e he with ⟨rfl, hl'⟩ | he'
    · rfl
    · exact absurd he' (hone e hl)
    · exact absurd hd' (hone d hl')
    · exact hbefore.once d e hd' he'

/-- A plan put in progress in a context that may issue it keeps the invariant. -/
theorem State.Inv.setTodo (honce : (∃ cs, i = .init cs) → ∀ d, Micro.setReady ∉ (s.ctx d).todo)
    (hint : c = .interrupt → s.dispatching = true) : (s.setTodo c l).Inv where
  shaped  := h.shaped.setTodo c l
  untyped := by simpa [State.UntypedWithoutIrq] using h.untyped
  place   := by simpa [State.WalkPlace] using h.place
  owner   := h.walkOwner_setTodo hidle hform hint
  before  := fun hr => h.uninitialised_setTodo hidle hform (by simpa using hr) honce hint
  after   := fun hr d => by
    have hr' : s.ready = true := by simpa using hr
    by_cases hdc : d = c
    · subst hdc
      exact .of_setTodo (hform.legal h.shaped.cfg) (hform.disciplined h.shaped.cfg hr') ((h.after hr' d).free (.inl hidle))
    · exact (h.after hr' d).setTodo_ne hdc l

end

theorem isInit_of_decode {w : Word} {cs : Nat} (h : decode w = .ok (.init cs)) : isInit w = true := by simp [isInit, h]

/-- A command that its requester may issue, accepted with its plan to do, keeps the invariant (10_state.md R21, R22). -/
theorem State.Inv.started {s : State} (h : s.Inv) {c : Ctx} {w : Word} (hmay : s.mayIssue c w = true) {i : Instr} {l : List Micro}
    (hd : decode w = .ok i) (hp : planOf i (s.accept c w) = .ok l) : ((s.accept c w).setTodo c l).Inv := by
  obtain ⟨hidle, honce, hint⟩ := State.mayIssue_cases hmay
  refine (h.accept c w).setTodo ((s.accept_todo c c w).trans hidle) (planOf_form hp) ?_ (by simpa using hint)
  rintro ⟨cs, rfl⟩ d
  rw [State.accept_todo]
  exact honce (isInit_of_decode hd) d

/-! ## Moves and commands: what they leave alone -/

/-- The demultiplexer's walk changes no register. -/
theorem State.walk_banks {s t : State} (h : s.walk = .made t) : t.banks = s.banks := by
  rcases State.walk_cases h with ⟨b, d, -, -, -, rfl⟩ | ⟨b, d, a, w, -, -, -, u, hu, rfl⟩ | ⟨b, -, -, rfl⟩ | ⟨b, w, i, -, -, rfl⟩
    | ⟨b, w, i, -, -, -, -, rfl⟩ | ⟨b, w, i, -, -, -, rfl⟩
  case inr.inl =>
    obtain ⟨g, -, ⟨b', -, -, rfl⟩ | ⟨-, -, rfl⟩⟩ := State.memRead_cases hu <;> rfl
  case inr.inr.inl => simp [State.walkFinish]
  all_goals rfl

theorem State.takeLine_banks {s t : State} (h : s.takeLine = .made t) : t.banks = s.banks := by
  obtain ⟨-, -, h⟩ := State.takeLine_cases h
  obtain ⟨-, -, rfl⟩ := State.startWalk_cases h
  rfl

theorem State.dispatchReturn_banks (s : State) : s.dispatchReturn.banks = s.banks := by
  unfold State.dispatchReturn; split <;> rfl

/-- What a tried move leads to is a move of its agent or none. -/
theorem State.Moved.of_outcome {m : Move} {s t : State} (h : m.outcome s = .next t) (made : ∀ {u}, m = .made u → s.Moved u) :
    s.Moved t := by
  rcases Move.outcome_cases h with h | h
  · exact made h
  · exact .none h

/-- Starting a command changes no register. -/
theorem State.start_banks {s t : State} {c : Ctx} {w : Word} (h : s.start c w = .next t) : t.banks = s.banks := by
  rcases State.start_cases h with rfl | ⟨i, l, -, -, rfl⟩ <;> simp

theorem State.moveContext_cfg {s t : State} {c : Ctx} (h : s.moveContext c = .made t) : t.cfg = s.cfg := by
  obtain ⟨m, l, u, -, hrun, rfl⟩ := State.moveContext_cases h
  exact (State.setTodo_cfg ..).trans (Micro.run_outer hrun).1

/-! ## The latch bits of other pins -/

/-- Bit `bit(p)` of the write-latch of `p`'s bank, if the latch is there in `s`, is there in `t` too and the same. -/
def State.LatchBitKept (p : Nat) (s t : State) : Prop :=
  ∀ w, s.reg (bankOf p) .latch = some w → ∃ w', t.reg (bankOf p) .latch = some w' ∧ pinBit w' p = pinBit w p

theorem State.LatchBitKept.of_reg_eq {p : Nat} {s t : State} (h : t.reg (bankOf p) .latch = s.reg (bankOf p) .latch) :
    State.LatchBitKept p s t :=
  fun w hw => ⟨w, h.trans hw, rfl⟩

theorem State.LatchBitKept.of_banks_eq {s t : State} (h : t.banks = s.banks) (p : Nat) : State.LatchBitKept p s t :=
  .of_reg_eq (State.reg_of_banks_eq h _ _)

theorem State.LatchBitKept.trans {p : Nat} {s t u : State} (h : State.LatchBitKept p s t) (h' : State.LatchBitKept p t u) :
    State.LatchBitKept p s u := by
  intro w hw
  obtain ⟨w', hw', hbit⟩ := h w hw
  obtain ⟨w'', hw'', hbit'⟩ := h' w' hw'
  exact ⟨w'', hw'', hbit'.trans hbit⟩

/-- A legal line that may change a write-latch is the write half of a bit update of an output-capable pin of its bank (42_pin_io.md R163). -/
theorem Micro.Legal.of_target_latch {C : Cfg} {m : Micro} (h : m.Legal C) {a b : Nat} (ht : m.target = some a)
    (hg : regAt C a = some (.bank b .latch)) :
    ∃ q dst v, m = .writeBit a dst (maskOf q) v ∧ bankOf q = b ∧ outputCapable C q = true := by
  cases m with
  | writeBit src dst msk v =>
    obtain rfl : src = a := Option.some.inj ht
    obtain ⟨q, -, rfl, ⟨hcap, hsrc, -⟩ | ⟨rfl, r, hr, hsrc⟩⟩ := h
    · rw [hg] at hsrc; cases hsrc
      exact ⟨q, dst, v, rfl, rfl, hcap⟩
    · rw [hg] at hsrc; cases hsrc
      simp at hr
  | write d w =>
    obtain rfl : d = a := Option.some.inj ht
    obtain ⟨g, hg', rfl | ⟨b', r, rfl, hr, -⟩⟩ := h <;> rw [hg] at hg' <;> cases hg'
    exact absurd rfl hr
  | _ => cases ht

/-- The bits of two pins of one bank are apart, so that a bit update of the one keeps the bit of the other. -/
theorem pinBit_putBits_of_ne {p q : Nat} (hb : bankOf q = bankOf p) (hne : q ≠ p) (w : Word) (v : Bool) :
    pinBit (putBits w (maskOf q) v) p = pinBit w p := by
  have hbit : p % 32 ≠ q % 32 := by unfold bankOf at hb; omega
  rw [pinBit, getLsbD_putBits_maskOf, bitOf, if_neg hbit, pinBit, bitOf]

/-- In a shaped state a write-latch that holds a word has an address. -/
theorem State.Shaped.latch_addr {s : State} (h : s.Shaped) {b : Nat} {w : Word} (hw : s.reg b .latch = some w) :
    ∃ a, regAt s.cfg a = some (.bank b .latch) := by
  have hb : b < s.cfg.bankTable.length := by
    rw [← nbanks, ← h.banks]
    by_contra hlen
    simp [State.reg, List.getElem?_eq_none (Nat.le_of_not_lt hlen)] at hw
  exact ⟨_, regAt_role h.cfg (List.getElem?_eq_getElem hb) nofun⟩

section
variable {s t : State} {p : Nat} (h : s.Inv) (hp : outputCapable s.cfg p = false)
include h hp

/-- A context's move keeps the bit: at most it updates the bit of another pin, in the latch as it stands. -/
theorem State.Inv.moveContext_latchBitKept {c : Ctx} (hm : s.moveContext c = .made t) : State.LatchBitKept p s t := by
  intro w hw
  obtain ⟨a, ha⟩ := h.shaped.latch_addr hw
  obtain ⟨m, l, u, htodo, hrun, rfl⟩ := State.moveContext_cases hm
  have hlegal : m.Legal s.cfg := h.legal c m (htodo ▸ List.mem_cons_self)
  have hat : s.wordAt a = some w := (State.wordAt_bank ha).trans hw
  rw [← State.wordAt_bank (a := a) (by rw [State.moveContext_cfg hm]; exact ha)]
  by_cases htarget : m.target = some a
  · obtain ⟨q, dst, v, rfl, hbank, hcap⟩ := hlegal.of_target_latch htarget ha
    obtain ⟨t', w', hm', hw', ht'⟩ := h.moveContext_writeBit htodo
    obtain rfl := Move.made.inj (hm.symm.trans hm')
    obtain rfl := Option.some.inj (hat.symm.trans hw')
    have hne : q ≠ p := by rintro rfl; rw [hp] at hcap; cases hcap
    exact ⟨_, ht', pinBit_putBits_of_ne hbank hne w v⟩
  · exact ⟨w, by rw [State.setTodo_wordAt, Micro.run_wordAt hlegal hrun htarget, hat], rfl⟩

theorem State.Inv.moved_latchBitKept (hm : s.Moved t) : State.LatchBitKept p s t := by
  cases hm with
  | context c hm => exact h.moveContext_latchBitKept hp hm
  | walk hm => exact .of_banks_eq (State.walk_banks hm) p
  | line hm => exact .of_banks_eq (State.takeLine_banks hm) p
  | none ht => subst ht; exact .of_banks_eq rfl p

/-- A command that runs is its plan put in progress and its context's moves, each of which keeps the invariant and the bit. -/
theorem State.Inv.issue_latchBitKept {c : Ctx} {w : Word} (hmay : s.mayIssue c w = true) (hi : s.issue c w = .next t) :
    State.LatchBitKept p s t := by
  rcases State.issue_cases hi with rfl | ⟨i, l, hd, hplan, hrun⟩
  · exact .of_banks_eq (by simp) p
  · have hstart := h.started hmay hd hplan
    have hmove : ∀ u v : State, u.Inv ∧ u.cfg = s.cfg ∧ State.LatchBitKept p s u → u.moveContext c = .made v →
        v.Inv ∧ v.cfg = s.cfg ∧ State.LatchBitKept p s v := fun u v ⟨hu, hcfg, hkept⟩ hm =>
      ⟨moveContext_inv hu hm, (State.moveContext_cfg hm).trans hcfg, hkept.trans (hu.moveContext_latchBitKept (hcfg ▸ hp) hm)⟩
    obtain ⟨-, -, hkept⟩ := runLines_induct hrun ⟨hstart, by simp, .of_banks_eq (by simp) p⟩ hmove
    exact hkept

theorem State.Inv.perform_latchBitKept {e : Input} (he : e.enabled s = true) (hs : e.perform s = .next t) : State.LatchBitKept p s t := by
  cases e with
  | issue c w => exact h.issue_latchBitKept hp he hs
  | start c w => exact .of_banks_eq (State.start_banks hs) p
  | bus c => exact h.moved_latchBitKept hp (.of_outcome hs (.context c))
  | walk => exact h.moved_latchBitKept hp (.of_outcome hs .walk)
  | takeLine => exact h.moved_latchBitKept hp (.of_outcome hs .line)
  | statusSet b w => cases hs; exact .of_reg_eq (State.statusSet_reg_ne s (q := .latch) (.inr nofun) w)
  | consumerDone => cases hs; exact .of_banks_eq s.dispatchReturn_banks p
  | writeOp0 | writeOp1 => cases hs; exact .of_banks_eq (by simp) p
  | setLine | pinChange | blockReset => cases hs; exact .of_banks_eq rfl p

end

/-- Settles O57: a write-latch is written only by bit updates of output-capable pins, each from the word that stands in the latch. -/
theorem latchBitOfOtherPinsNeverChanges : Obligations.LatchBitOfOtherPinsNeverChanges := by
  intro s t p w h hstep hp hw
  suffices hkept : State.LatchBitKept p s t from hkept w hw
  obtain ⟨-, hm | ⟨e, l, -, he, hs⟩⟩ := step_cases hstep
  · exact h.moved_latchBitKept hp hm
  · exact State.LatchBitKept.trans (t := { s with inputs := l }) (.of_banks_eq rfl p)
      ((h.setInputs l).perform_latchBitKept hp he hs)

end Sys2Proof.Machine
end

section
/-! PROOFS. The statements of 43_irq_control.md: what SETTYPE, MASK, UNMASK and ACK do in one run from a ready state, and the trigger table. -/

namespace Sys2Proof.Machine

/-! ## The trigger table -/

/-- The recognised codes with their kinds (30_encoding.md R94). -/
theorem kindOfCode_eq_some_iff (code : Nat) (k : Kind) : kindOfCode code = some k ↔
    (code, k) ∈ [(1, Kind.edgeRising), (2, .edgeFalling), (3, .edgeBoth), (4, .levelHigh), (8, .levelLow)] := by
  constructor
  · intro h
    unfold kindOfCode at h
    split at h <;> cases h <;> simp
  · intro h
    simp only [List.mem_cons, Prod.mk.injEq, List.not_mem_nil, or_false] at h
    rcases h with ⟨rfl, rfl⟩ | ⟨rfl, rfl⟩ | ⟨rfl, rfl⟩ | ⟨rfl, rfl⟩ | ⟨rfl, rfl⟩ <;> rfl

theorem kindOfCode_eq_none {code : Nat} (h : code ∉ [1, 2, 3, 4, 8]) : kindOfCode code = none := by
  cases hk : kindOfCode code with
  | none => rfl
  | some k => exact absurd (List.mem_map_of_mem (f := Prod.fst) ((kindOfCode_eq_some_iff code k).mp hk)) h

/-- The table and its inverse agree (43_irq_control.md R190, R198). -/
theorem typeBitsOf_eq_some_iff (k : Kind) (x : TypeBits) : typeBitsOf k = some x ↔ kindOfTypeBits x = some k := by
  constructor
  · intro h
    cases k <;> cases h <;> rfl
  · intro h
    obtain ⟨t0, t1, t2⟩ := x
    cases t0 <;> cases t1 <;> cases t2 <;> cases h <;> rfl

theorem handlerOf_eq_edge_iff (k : Kind) : handlerOf k = .edge ↔ k = .edgeRising ∨ k = .edgeFalling ∨ k = .edgeBoth := by
  cases k <;> simp [handlerOf]

theorem handlerOf_eq_level_iff (k : Kind) : handlerOf k = .level ↔ k = .levelHigh ∨ k = .levelLow := by
  cases k <;> simp [handlerOf]

/-- Settles O24: the rows stand in the table as they are, and each function is read off by its cases. -/
theorem triggerTableRows : Obligations.TriggerTableRows :=
  ⟨kindOfCode_eq_some_iff, rfl, rfl, rfl, rfl, rfl, typeBitsOf_eq_some_iff,
    fun k => ⟨handlerOf_eq_edge_iff k, handlerOf_eq_level_iff k⟩⟩

/-! ## Locked sections entered and left -/

/-- A section entered from a state with the lock free and left at once changes nothing. -/
theorem State.takeLock_releaseLock {s : State} (h : s.lock = .free) (c : Ctx) : (s.takeLock c).releaseLock = s := by
  cases s; cases h; rfl

theorem State.takeLock_setTmp (s : State) (c d : Ctx) (w : Word) : (s.takeLock c).setTmp d w = (s.setTmp d w).takeLock c := by
  cases d <;> rfl

theorem State.takeLock_writeReg (s : State) (c : Ctx) (g : Reg) (v : Word) :
    (s.takeLock c).writeReg g v = (s.writeReg g v).takeLock c := by
  cases g with
  | ctrl => rfl
  | bank b r => cases r <;> rfl

/-- The lock has no part in a bit update. -/
theorem State.takeLock_updated (s : State) (c : Ctx) (src a : Nat) (w n : Word) (b : Nat) (r : Role) :
    (s.takeLock c).updated src a w n b r = (s.updated src a w n b r).takeLock c :=
  congrArg (fun t : State => (t.putReg b r n).log (.write (.op s.active) a n)) (State.takeLock_setTmp (s.log _) c s.active w)

@[simp] theorem State.updated_lock (s : State) (src a : Nat) (w n : Word) (b : Nat) (r : Role) :
    (s.updated src a w n b r).lock = s.lock := by simp [State.updated]

/-- A bit update leaves every other register alone. -/
theorem State.updated_reg_ne (s : State) {b b' : Nat} {r q : Role} (h : b' ≠ b ∨ q ≠ r) (src a : Nat) (w n : Word) :
    (s.updated src a w n b r).reg b' q = s.reg b' q := by
  simp [State.updated, State.reg_putReg_ne _ h]

/-- The last line of an operation that returns nothing. -/
theorem State.Idle.runLines_answerOk {s : State} (h : s.Idle) {c : Ctx} (hc : s.active = c) :
    runLines c [answerOk] s = .next (s.ended .ok 0#32 0#32) := by
  subst hc
  rw [answerOk, runLines_answer, runLines_nil, State.answer_ended h, State.ended]

/-- A register that holds a word is the register a write to its role changes. -/
theorem writtenRole_of_reg {s : State} {b : Nat} {r : Role} {w : Word} (h : s.reg b r = some w) : writtenRole r = r := by
  cases r with
  | val => rw [State.reg_val] at h; cases h
  | _ => rfl

/-- Read half and write half of a bit update of one register, in a section the active context has entered from `s` (20_memory.md R60, R70). -/
theorem runLines_rmw_takeLock {s : State} (h : s.Shaped) {c : Ctx} (hc : s.active = c) {a b : Nat} {r : Role} {w : Word}
    (ha : regAt s.cfg a = some (.bank b r)) (hw : s.reg b r = some w) (hl : r ≠ .latch) (hi : r ≠ .istat) (p : Nat) (v : Bool)
    (l : List Micro) :
    runLines c (rmw a (maskOf p) v ++ l) (s.takeLock c)
      = runLines c l ((s.updated a a w (putBits w (maskOf p) v) b r).takeLock c) := by
  subst hc
  have hnolatch : ∀ b', Reg.bank b r ≠ .bank b' .latch := by rintro b' ⟨⟩; exact hl rfl
  rw [← State.takeLock_updated, rmw, List.cons_append, List.cons_append, List.nil_append,
    runLines_read (h.takeLock _) (g := .bank b r) ha ((State.wordAt_bank ha).trans hw),
    runLines_writeBit (((h.takeLock _).log _).setTmp _ _) (g := .bank b r) (by simpa using ha) hnolatch,
    State.writeReg_bank_eq_putReg _ _ hi, writtenRole_of_reg hw, State.setTmp_ctx_tmp]
  rfl

/-! ## SETTYPE -/

section
variable {s : State} {p : Nat} (hr : s.ready = true) (hp : p < s.cfg.ngpio)
include hr hp

theorem exec_settype_kind (hirq : bankIrq s.cfg (bankOf p) = true) {code : Nat} {k : Kind} {x : TypeBits}
    (hk : kindOfCode code = some k) (hx : typeBitsOf k = some x) : exec (.settype p code) s = s.runPlan (settypeLines p k x s) := by
  simp only [exec_eq_runPlan, planOf, planSettype, prologue_ready hr hp, hirq, if_true, hk, hx]

theorem exec_settype_no_kind (hirq : bankIrq s.cfg (bankOf p) = true) {code : Nat} (hk : kindOfCode code = none) :
    exec (.settype p code) s = s.runPlan (raisePlan .invalidArgument) := by
  simp only [exec_eq_runPlan, planOf, planSettype, prologue_ready hr hp, hirq, if_true, hk]

theorem exec_settype_no_irq (hirq : bankIrq s.cfg (bankOf p) = false) (code : Nat) :
    exec (.settype p code) s = s.runPlan (raisePlan .notSupported) := by
  simp [exec_eq_runPlan, planOf, planSettype, prologue_ready hr hp, hirq]

end

/-- With the lock free, SETTYPE's lines update the three type registers one after the other in one locked section, bind the kind and answer OK (43_irq_control.md R191, R194). -/
theorem State.Quiet.runPlan_settypeLines {s : State} (hq : s.Quiet) (h : s.Shaped) {p a0 a1 a2 : Nat} {w0 w1 w2 : Word}
    (ha0 : busAddr s.cfg (bankOf p) .type0 = .ok a0) (ha1 : busAddr s.cfg (bankOf p) .type1 = .ok a1)
    (ha2 : busAddr s.cfg (bankOf p) .type2 = .ok a2) (hw0 : s.reg (bankOf p) .type0 = some w0)
    (hw1 : s.reg (bankOf p) .type1 = some w1) (hw2 : s.reg (bankOf p) .type2 = some w2) (k : Kind) (x : TypeBits) :
    s.runPlan (settypeLines p k x s) = .next
      ((((s.updated a0 a0 w0 (putBits w0 (maskOf p) x.type0) (bankOf p) .type0).updated
          a1 a1 w1 (putBits w1 (maskOf p) x.type1) (bankOf p) .type1).updated
          a2 a2 w2 (putBits w2 (maskOf p) x.type2) (bankOf p) .type2 |>.setKind p k).ended .ok 0#32 0#32) := by
  have h1 := h.updated a0 a0 w0 (putBits w0 (maskOf p) x.type0) (bankOf p) .type0
  have h2 := h1.updated a1 a1 w1 (putBits w1 (maskOf p) x.type1) (bankOf p) .type1
  have hreg1 n0 : (s.updated a0 a0 w0 n0 (bankOf p) .type0).reg (bankOf p) .type1 = some w1 := by simp [State.updated_reg_ne, hw1]
  have hreg2 n0 n1 : ((s.updated a0 a0 w0 n0 (bankOf p) .type0).updated a1 a1 w1 n1 (bankOf p) .type1).reg (bankOf p) .type2
      = some w2 := by simp [State.updated_reg_ne, hw2]
  simp only [settypeLines, ha0, ha1, ha2, State.runPlan, List.cons_append, List.append_assoc]
  rw [runLines_acquire hq.lock, runLines_rmw_takeLock h rfl (regAt_busAddr h.cfg ha0) hw0 nofun nofun,
    runLines_rmw_takeLock (r := .type1) h1 (by simp) (by simpa using regAt_busAddr h.cfg ha1) (hreg1 _) nofun nofun,
    runLines_rmw_takeLock (r := .type2) h2 (by simp) (by simpa using regAt_busAddr h.cfg ha2) (hreg2 _ _) nofun nofun,
    runLines_release, State.takeLock_releaseLock (by simpa using hq.lock), runLines_bind]
  exact State.Idle.runLines_answerOk (by simpa [State.Idle] using ((State.Idle.updated hq.idle ..).updated ..).updated ..) (by simp)

/-- Settles O23: the three type registers are apart, so each bit update reads the word that stood there before. -/
theorem settypeWritesPatternAndBinds : Obligations.SettypeWritesPatternAndBinds := by
  intro s p code k x h hq hr hp hirq hk hx
  obtain ⟨a0, ha0, -, hword0⟩ := h.reg_of_pin hp (r := .type0) fun _ => hirq
  obtain ⟨a1, ha1, -, hword1⟩ := h.reg_of_pin hp (r := .type1) fun _ => hirq
  obtain ⟨a2, ha2, -, hword2⟩ := h.reg_of_pin hp (r := .type2) fun _ => hirq
  obtain ⟨w0, hw0, -⟩ := hword0 nofun
  obtain ⟨w1, hw1, -⟩ := hword1 nofun
  obtain ⟨w2, hw2, -⟩ := hword2 nofun
  exact ⟨a0, a1, a2, w0, w1, w2, _, _, _, ha0, ha1, ha2, hw0, hw1, hw2, getLsbD_putBits_maskOf w0 p x.type0,
    getLsbD_putBits_maskOf w1 p x.type1, getLsbD_putBits_maskOf w2 p x.type2,
    (exec_settype_kind hr hp hirq hk hx).trans (hq.runPlan_settypeLines h ha0 ha1 ha2 hw0 hw1 hw2 k x)⟩

/-- Settles O25: interrupt support is tested before the kind, and both refusals only answer. -/
theorem settypeRejections : Obligations.SettypeRejections := by
  intro s p code h hr hp
  refine ⟨fun hirq => ?_, fun hirq hcode => ?_⟩
  · exact (exec_settype_no_irq hr hp hirq code).trans (runPlan_raise h _)
  · exact (exec_settype_no_kind hr hp hirq (kindOfCode_eq_none hcode)).trans (runPlan_raise h _)

/-! ## MASK and UNMASK -/

section
variable {s : State} {p : Nat} (hr : s.ready = true) (hp : p < s.cfg.ngpio)
include hr hp

/-- On a bank with interrupts MASK and UNMASK run the lines of a bit update of the enable register (43_irq_control.md R195, R201). -/
theorem ienPlan_irq (hirq : bankIrq s.cfg (bankOf p) = true) {a : Nat} (ha : busAddr s.cfg (bankOf p) .ien = .ok a) (v : Bool) :
    ienPlan p v s = .ok (updateLines a a p v) := by
  simp only [ienPlan, prologue_ready hr hp, hirq, if_true, ha]
  rfl

/-- On a bank without interrupts they only answer (43_irq_control.md R196). -/
theorem ienPlan_no_irq (hirq : bankIrq s.cfg (bankOf p) = false) (v : Bool) : ienPlan p v s = answerPlan 0#32 := by
  simp [ienPlan, prologue_ready hr hp, hirq]

end

/-- Settles O26: MASK and UNMASK run one locked bit update of the enable register, with 0 and with 1. -/
theorem maskAndUnmaskChangeOneBit : Obligations.MaskAndUnmaskChangeOneBit := by
  intro s p h hq hr hp hirq
  obtain ⟨a, ha, hreg, hword⟩ := h.reg_of_pin hp (r := .ien) fun _ => hirq
  obtain ⟨w, hw, hat⟩ := hword nofun
  have hrun (v : Bool) : s.runPlan (ienPlan p v s)
      = .next ((s.updated a a w (putBits w (maskOf p) v) (bankOf p) .ien).ended .ok 0#32 0#32) := by
    rw [ienPlan_irq hr hp hirq ha]
    exact hq.runPlan_updateLines h hreg hat hreg nofun nofun p v
  exact ⟨a, w, _, _, ha, hw, getLsbD_putBits_maskOf w p false, getLsbD_putBits_maskOf w p true, hrun false, hrun true⟩

/-- Settles O27: the common plan of MASK and UNMASK only answers there. -/
theorem maskWithoutInterruptsDoesNothing : Obligations.MaskWithoutInterruptsDoesNothing := by
  intro s p h hr hp hirq
  have hrun (v : Bool) : s.runPlan (ienPlan p v s) = .next (s.ended .ok 0#32 0#32) := by
    rw [ienPlan_no_irq hr hp hirq]
    exact runPlan_answer h 0#32
  exact ⟨hrun false, hrun true⟩

/-! ## ACK -/

section
variable {s : State} {p : Nat} (hr : s.ready = true) (hp : p < s.cfg.ngpio)
include hr hp

theorem exec_ack_irq (hirq : bankIrq s.cfg (bankOf p) = true) {a : Nat} (ha : busAddr s.cfg (bankOf p) .istat = .ok a) :
    exec (.ack p) s = runLines s.active [.acquire, .write a (maskOf p), .release, answerOk] s := by
  simp only [exec_eq_runPlan, planOf, planAck, prologue_ready hr hp, hirq, if_true, ha, State.runPlan]

theorem exec_ack_no_irq (hirq : bankIrq s.cfg (bankOf p) = false) : exec (.ack p) s = s.runPlan (raisePlan .notSupported) := by
  simp [exec_eq_runPlan, planOf, planAck, prologue_ready hr hp, hirq]

end

/-- A one-hot write to the status register clears that bit of the word that stands there (20_memory.md R67). -/
theorem State.writeReg_istat_maskOf {s : State} {b : Nat} {w : Word} (hw : s.reg b .istat = some w) (p : Nat) :
    s.writeReg (.bank b .istat) (maskOf p) = s.putReg b .istat (putBits w (maskOf p) false) := by
  simp [State.writeReg, hw, putBits]

/-- A locked section of one write, as one change of the state (20_memory.md R70). -/
theorem runLines_locked_write {s : State} (h : s.Shaped) (hf : s.lock = .free) {a : Nat} {g : Reg} (ha : regAt s.cfg a = some g)
    (hl : ∀ b, g ≠ .bank b .latch) (c : Ctx) (v : Word) (l : List Micro) :
    runLines c (.acquire :: .write a v :: .release :: l) s = runLines c l ((s.writeReg g v).log (.write (.op c) a v)) := by
  rw [runLines_acquire hf, runLines_write (h.takeLock c) ha hl, State.takeLock_writeReg, runLines_release]
  exact congrArg _ (State.takeLock_releaseLock (s := (s.writeReg g v).log _) (by simpa using hf) c)

/-- Settles O28: ACK is one locked write of the pin's mask to the write-one-to-clear status register. -/
theorem ackClearsOneStatusBit : Obligations.AckClearsOneStatusBit := by
  intro s p h hq hr hp
  refine ⟨fun hirq => ?_, fun hirq => (exec_ack_no_irq hr hp hirq).trans (runPlan_raise hq.idle _)⟩
  obtain ⟨a, ha, hreg, hword⟩ := h.reg_of_pin hp (r := .istat) fun _ => hirq
  obtain ⟨w, hw, -⟩ := hword nofun
  refine ⟨a, w, _, ha, hw, getLsbD_putBits_maskOf w p false, ?_⟩
  rw [exec_ack_irq hr hp hirq ha, runLines_locked_write h hq.lock hreg nofun, State.writeReg_istat_maskOf hw]
  exact State.Idle.runLines_answerOk (s := (s.putReg _ _ _).log _) (by simpa [State.Idle] using hq.idle) rfl

end Sys2Proof.Machine
end

section
/-! PROOFS. The statements of 44_demux.md, one transition at a time: how an invocation starts, what each place of the walk leads to, and what the consumer's return does. -/

namespace Sys2Proof.Machine

/-! ## Masked delivery -/

/-- Delivery is masked exactly while a requester of the interrupt context's own unit holds the lock (20_memory.md R73). -/
theorem State.deliveryMasked_iff (s : State) :
    s.deliveryMasked = true ↔ ∃ k, s.platform.shares k = true ∧ s.lock = .held (.normal k) := by
  unfold State.deliveryMasked
  split <;> simp [*]

theorem State.deliveryMasked_of_free {s : State} (h : s.lock = .free) : s.deliveryMasked = false := by
  simp [State.deliveryMasked, h]

/-! ## The start of an invocation -/

theorem State.startWalk_idle {s : State} (h : s.dmx = .idle) (hm : s.deliveryMasked = false) (c : Ctx) :
    s.startWalk c = .made { s with walkCount := 0, walkFor := c, dmx := .nextBank 0 } :=
  if_pos ⟨h, hm⟩

theorem State.startWalk_waits {s : State} (h : s.dmx ≠ .idle ∨ s.deliveryMasked = true) (c : Ctx) : s.startWalk c = .blocked := by
  refine if_neg fun ⟨hd, hm⟩ => ?_
  rcases h with h | h
  · exact h hd
  · rw [hm] at h; cases h

theorem State.takeLine_taken {s : State} (hr : s.ready = true) (hl : s.lineAsserted = true) : s.takeLine = s.startWalk .interrupt :=
  if_pos ⟨hr, hl⟩

/-- The line is not taken unless the controller is ready and the line asserted, nor where no invocation may start (44_demux.md R233). -/
theorem State.takeLine_waits {s : State} (h : s.ready = false ∨ s.lineAsserted = false ∨ s.dmx ≠ .idle ∨ s.deliveryMasked = true) :
    s.takeLine = .blocked := by
  by_cases hline : s.ready = true ∧ s.lineAsserted = true
  · obtain ⟨hr, hl⟩ := hline
    rw [State.takeLine_taken hr hl]
    exact State.startWalk_waits (by simpa [hr, hl] using h) .interrupt
  · exact if_neg hline

theorem exec_demux {s : State} (h : s.ready = true) : exec .demux s = runLines s.active [.startWalk, .awaitWalk] s := by
  simp only [exec_eq_runPlan, planOf, planDemux, h, if_true, State.runPlan]

/-- A DEMUX that may start puts the walk at bank 0 and waits for its answer (44_demux.md R221). -/
theorem exec_demux_starts {s : State} (h : s.ready = true) (hd : s.dmx = .idle) (hm : s.deliveryMasked = false) :
    exec .demux s = .next
      (({ s with walkCount := 0, walkFor := s.active, dmx := .nextBank 0 } : State).setTodo s.active [.awaitWalk]) := by
  simp only [exec_demux h, runLines, Micro.run, State.startWalk_idle hd hm]

/-- Settles O29: the first line of DEMUX starts the walk or waits, and its second line always waits. -/
theorem demuxStartsWalkOrWaits : Obligations.DemuxStartsWalkOrWaits := by
  refine fun s h => ⟨exec_demux_starts h, fun hwait => ?_⟩
  simp only [exec_demux h, runLines, Micro.run, State.startWalk_waits hwait]

/-! ## The walk at each of its places -/

section
variable {s : State} {b : Nat}

section
variable (h : s.dmx = .nextBank b)
include h

theorem State.walk_at_bank {d : BankDesc} (hd : s.cfg.bankTable[b]? = some d) : s.walk = s.walkBank b d := by
  simp only [State.walk, h, hd]

theorem State.walk_without_interrupts {d : BankDesc} (hd : s.cfg.bankTable[b]? = some d) (hi : d.irq = false) :
    s.walk = .made { s with dmx := .nextBank (b + 1) } := by
  simp [State.walk_at_bank h hd, State.walkBank, hi]

theorem State.walk_with_interrupts (hs : s.Shaped) {d : BankDesc} (hd : s.cfg.bankTable[b]? = some d) (hi : d.irq = true) :
    ∃ a w, busAddr s.cfg b .istat = .ok a ∧ s.reg b .istat = some w
      ∧ s.walk = .made { s.log (.read .demux a w) with dmx := .scan b w 0 } := by
  obtain ⟨a, w, ha, hw, hread⟩ := State.walk_read hs hd hi
  exact ⟨a, w, ha, hw, by simp only [State.walk_at_bank h hd, State.walkBank, hi, if_true, ha, hread]⟩

theorem State.walk_after_last_bank (hd : s.cfg.bankTable[b]? = none) : s.walk = .made s.walkFinish := by
  simp only [State.walk, h, hd]

end

section
variable {w : Word} {i : Nat} (h : s.dmx = .scan b w i)
include h

theorem State.walk_at_bit : s.walk = s.walkBit b w i := by simp only [State.walk, h]

theorem State.walk_after_last_bit (hi : 32 ≤ i) : s.walk = .made { s with dmx := .nextBank (b + 1) } :=
  (State.walk_at_bit h).trans (if_pos hi)

theorem State.walk_clear_bit (hi : i < 32) (hw : w.getLsbD i = false) : s.walk = .made { s with dmx := .scan b w (i + 1) } := by
  simp [State.walk_at_bit h, State.walkBit, Nat.not_le.mpr hi, hw]

theorem State.walk_set_bit (hi : i < 32) (hw : w.getLsbD i = true) (hm : s.deliveryMasked = false) :
    s.walk = .made { s.dispatch (pinOf b i) with dmx := .wait b w i } := by
  simp [State.walk_at_bit h, State.walkBit, Nat.not_le.mpr hi, hw, hm]

theorem State.walk_set_bit_masked (hi : i < 32) (hw : w.getLsbD i = true) (hm : s.deliveryMasked = true) : s.walk = .blocked := by
  simp [State.walk_at_bit h, State.walkBit, Nat.not_le.mpr hi, hw, hm]

end

end

/-- Settles O30: the iterator's two cases. -/
theorem walkVisitsInterruptBanks : Obligations.WalkVisitsInterruptBanks := fun _ _ _ hs h hd =>
  ⟨State.walk_without_interrupts h hd, State.walk_with_interrupts h hs hd⟩

theorem State.handler_bound {s : State} {p : Nat} {k : Kind} (hp : p < s.cfg.ngpio) (hk : s.kind[p]? = some k) :
    s.handler p = handlerOf k := by
  simp only [State.handler, hk, hp, if_true]

/-- A pin beyond `NGPIO` has no handler, whatever the table of types holds (44_demux.md R232). -/
theorem State.handler_out_of_range {s : State} {p : Nat} (hp : s.cfg.ngpio ≤ p) : s.handler p = .none := by
  unfold State.handler
  split
  · exact if_neg (Nat.not_lt.mpr hp)
  · rfl

/-- Settles O31: the scan's three cases; the handler is the bound one below `NGPIO` and none from there up. -/
theorem walkScansBitsInOrder : Obligations.WalkScansBitsInOrder := by
  intro s b w i h hm
  refine ⟨fun hi => State.walk_after_last_bit h hi.ge, State.walk_clear_bit h, fun hi hw => ?_⟩
  have hwalk := State.walk_set_bit h hi hw hm
  refine ⟨fun k hp hk => ?_, fun hp => ?_⟩
  · rw [hwalk, State.dispatch, pinOf, State.handler_bound hp hk]
  · rw [hwalk, State.dispatch, pinOf, State.handler_out_of_range hp]

/-! ## Return and finish -/

/-- The consumer's return is one step: the dispatch is counted and the scan goes on after the bit (44_demux.md R226). -/
theorem step_consumerDone {s : State} {l : List Input} {b : Nat} {w : Word} {i : Nat} (hc : cfgWf s.cfg = true)
    (hin : s.inputs = .consumerDone :: l) (hd : s.dmx = .wait b w i) (hint : s.interrupt.todo = []) :
    step s = .next { s with inputs := l, walkCount := s.walkCount + 1, dmx := .scan b w (i + 1) } := by
  have hen : Input.consumerDone.enabled s = true := by simp [Input.enabled, State.dispatching, hd, hint]
  rw [step_of_enabled hc hin hen]
  simp only [Input.perform, State.dispatchReturn, hd]

/-- Settles O32: the return as a step, and the walk's place after the last bank. -/
theorem walkReturnsAndFinishes : Obligations.WalkReturnsAndFinishes :=
  ⟨fun _ _ _ _ _ => step_consumerDone, fun _ h => State.walk_after_last_bank h (List.getElem?_eq_none le_rfl)⟩

/-! ## The upstream line -/

theorem State.enabledPending_iff (s : State) : s.enabledPending = true ↔
    ∃ (b : Nat) (k : BankRegs) (g : IrqRegs), s.banks[b]? = some k ∧ k.irq = some g ∧ g.istat &&& g.ien ≠ 0#32 := by
  simp only [State.enabledPending, List.any_eq_true, List.mem_iff_getElem?]
  constructor
  · rintro ⟨k, ⟨b, hk⟩, h⟩
    split at h
    · exact ⟨b, k, _, hk, ‹_›, by simpa using h⟩
    · cases h
  · rintro ⟨b, k, g, hk, hg, h⟩
    exact ⟨k, ⟨b, hk⟩, by simpa [hg] using h⟩

/-- Settles O35: the conditions on the line's start one by one, and the two readings of the line. -/
theorem lineStartsInvocationUnlessMasked : Obligations.LineStartsInvocationUnlessMasked := by
  refine fun s => ⟨fun hr hl hd hm => ?_, fun h => ?_, fun k hk hlock => ?_, fun h => ?_, fun hp => ?_, fun hp => ?_⟩
  · rw [State.takeLine_taken hr hl, State.startWalk_idle hd hm]
  · exact State.takeLine_waits (h.imp_right (Or.imp_right .inl))
  · have hm : s.deliveryMasked = true := s.deliveryMasked_iff.mpr ⟨k, hk, hlock⟩
    exact ⟨State.takeLine_waits (.inr (.inr (.inr hm))), State.startWalk_waits (.inr hm),
      fun b w i hd hi hw => State.walk_set_bit_masked hd hi hw hm⟩
  · rw [Bool.eq_false_iff, ne_eq, State.deliveryMasked_iff]
    rintro ⟨k, hk, hlock⟩
    exact h k hk hlock
  · simp only [State.lineAsserted, hp]
  · simp only [State.lineAsserted, hp, State.enabledPending_iff]

end Sys2Proof.Machine
end

section
/-! PROOFS. The order of dispatches within one invocation (44_demux.md R229, R230): nothing but the walk and the consumer's return moves the walk's place, and these move it upwards. -/

namespace Sys2Proof.Machine

/-! ## Steps that leave the walk where it stands -/

/-- From `s` to `t` the walk stays at its place and nothing is dispatched. -/
def State.WalkStands (s t : State) : Prop :=
  t.dmx = s.dmx ∧ ∃ new, t.trace = new ++ s.trace ∧ ∀ p h, Event.dispatch p h ∉ new

theorem State.WalkStands.quiet {s t : State} (hd : t.dmx = s.dmx) (ht : t.trace = s.trace) : s.WalkStands t :=
  ⟨hd, [], ht, fun _ _ => List.not_mem_nil⟩

theorem State.WalkStands.event {s t : State} {e : Event} (hd : t.dmx = s.dmx) (ht : t.trace = e :: s.trace)
    (he : ∀ p h, e ≠ .dispatch p h) : s.WalkStands t :=
  ⟨hd, [e], ht, fun p h hmem => he p h (List.mem_singleton.mp hmem).symm⟩

theorem State.WalkStands.trans {s t u : State} (h : s.WalkStands t) (h' : t.WalkStands u) : s.WalkStands u := by
  obtain ⟨hd, new, ht, hnew⟩ := h
  obtain ⟨hd', new', ht', hnew'⟩ := h'
  refine ⟨hd'.trans hd, new' ++ new, by rw [ht', ht, List.append_assoc], fun p q hmem => ?_⟩
  exact (List.mem_append.mp hmem).elim (hnew' p q) (hnew p q)

theorem State.memRead_walkStands {s t : State} {who : Master} {a : Nat} {w : Word} (h : s.memRead who a = .ok (w, t)) :
    s.WalkStands t := by
  obtain ⟨g, -, ⟨b, -, -, rfl⟩ | ⟨-, -, rfl⟩⟩ := State.memRead_cases h <;> exact .event rfl rfl nofun

theorem State.memWrite_walkStands {s t : State} {who : Master} {a : Nat} {v : Word} (h : s.memWrite who a v = .ok t) :
    s.WalkStands t := by
  obtain ⟨g, -, -, rfl⟩ := State.memWrite_cases h
  exact .event (e := .write who a v) (by simp) (by simp) nofun

theorem State.setTodo_walkStands (s : State) (c : Ctx) (l : List Micro) : s.WalkStands (s.setTodo c l) := .quiet (by simp) (by simp)

/-- While an invocation is in progress, no line of an operation moves the walk: only a start could, and it waits (44_demux.md R228, R233). -/
theorem Micro.run_walkStands {c : Ctx} {m : Micro} {s t : State} (hd : s.dmx ≠ .idle) (h : m.run c s = .made t) : s.WalkStands t := by
  cases m with
  | acquire => obtain ⟨-, rfl⟩ := State.acquireLock_cases h; exact .quiet rfl rfl
  | read a =>
    simp only [Micro.run] at h; split at h <;> cases h
    exact (State.memRead_walkStands ‹_›).trans (.quiet (by simp) (by simp))
  | writeBit src a m v => simp only [Micro.run] at h; split at h <;> cases h; exact State.memWrite_walkStands ‹_›
  | write a w => simp only [Micro.run] at h; split at h <;> cases h; exact State.memWrite_walkStands ‹_›
  | startWalk => exact absurd (State.startWalk_cases h).1 hd
  | awaitWalk => cases h
  | answer | answerBit => cases h; exact .quiet (by simp) (by simp)
  | release | bind | setReady => cases h; exact .quiet rfl rfl

theorem State.moveContext_walkStands {c : Ctx} {s t : State} (hd : s.dmx ≠ .idle) (h : s.moveContext c = .made t) :
    s.WalkStands t := by
  obtain ⟨m, l, u, -, hrun, rfl⟩ := State.moveContext_cases h
  exact (Micro.run_walkStands hd hrun).trans (State.setTodo_walkStands u c l)

theorem State.issue_walkStands {s t : State} {c : Ctx} {w : Word} (hd : s.dmx ≠ .idle) (h : s.issue c w = .next t) :
    s.WalkStands t := by
  have haccept : s.WalkStands (s.accept c w) := .quiet (by simp) (by simp)
  rcases State.issue_cases h with rfl | ⟨i, l, -, -, hrun⟩
  · exact haccept.trans (.quiet (by simp) (by simp))
  · exact runLines_induct hrun (haccept.trans (State.setTodo_walkStands ..)) fun u v hu hm =>
      hu.trans (State.moveContext_walkStands (hu.1 ▸ hd) hm)

theorem State.start_walkStands {s t : State} {c : Ctx} {w : Word} (h : s.start c w = .next t) : s.WalkStands t := by
  rcases State.start_cases h with rfl | ⟨i, l, -, -, rfl⟩ <;> exact .quiet (by simp) (by simp)

/-! ## The walk's place only rises -/

/-- From `s` to `t`, if the walk is in progress in both, its place does not fall, and what is dispatched lies at or above the place before and below the place after. -/
def State.WalkAscends (s t : State) : Prop :=
  ∀ n m, walkPin s.dmx = some n → walkPin t.dmx = some m →
    n ≤ m ∧ ∃ new, t.trace = new ++ s.trace ∧ ∀ p h, Event.dispatch p h ∈ new → ∃ q, n ≤ q ∧ q < m ∧ p = BitVec.ofNat 16 q

/-- A step from place `n` up to place `m` without a dispatch. -/
theorem State.WalkAscends.of_le {s t u : State} {n m : Nat} (hn : walkPin s.dmx = some n) (hm : walkPin t.dmx = some m) (hle : n ≤ m)
    (hstands : s.WalkStands u) (ht : t.trace = u.trace) : s.WalkAscends t := by
  obtain ⟨-, new, hu, hnew⟩ := hstands
  intro n' m' hn' hm'
  rw [hn] at hn'
  rw [hm] at hm'
  cases hn'
  cases hm'
  exact ⟨hle, new, ht.trans hu, fun p h hmem => absurd hmem (hnew p h)⟩

theorem State.WalkStands.ascends {s t : State} (h : s.WalkStands t) : s.WalkAscends t := by
  obtain ⟨hd, new, ht, hnew⟩ := h
  intro n m hn hm
  rw [hd, hn] at hm
  cases hm
  exact ⟨le_rfl, new, ht, fun p q hmem => absurd hmem (hnew p q)⟩

theorem State.WalkAscends.of_idle {s t : State} (h : t.dmx = .idle) : s.WalkAscends t := by
  intro n m _ hm
  rw [h] at hm
  cases hm

/-- A transition of the walk passes a bank, reads a status, passes a bit or a full scan, or dispatches the bit at its place. -/
theorem State.walk_ascends {s t : State} (hplace : s.WalkPlace) (h : s.walk = .made t) : s.WalkAscends t := by
  have hquiet : s.WalkStands s := .quiet rfl rfl
  unfold State.WalkPlace at hplace
  rcases State.walk_cases h with ⟨b, d, hd, -, -, rfl⟩ | ⟨b, d, a, w, hd, -, -, u, hu, rfl⟩ | ⟨b, -, -, rfl⟩ | ⟨b, w, i, hd, -, rfl⟩
    | ⟨b, w, i, hd, -, -, -, rfl⟩ | ⟨b, w, i, hd, -, -, rfl⟩
  · exact .of_le (congrArg walkPin hd) rfl (by omega) hquiet rfl
  · exact .of_le (congrArg walkPin hd) rfl (by omega) (State.memRead_walkStands hu) rfl
  · exact .of_idle (by simp [State.walkFinish])
  · rw [hd] at hplace
    obtain ⟨-, hi⟩ := hplace
    exact .of_le (congrArg walkPin hd) rfl (by omega) hquiet rfl
  · intro n m hn hm
    simp only [hd, walkPin, Option.some.injEq] at hn hm
    refine ⟨by omega, [_], rfl, fun p q hmem => ⟨pinOf b i, by unfold pinOf; omega, by unfold pinOf; omega, ?_⟩⟩
    cases List.mem_singleton.mp hmem
    rfl
  · exact .of_le (congrArg walkPin hd) rfl (by omega) hquiet rfl

/-- The consumer's return goes on after the bit, which is where the walk stands while it waits (44_demux.md R226). -/
theorem State.dispatchReturn_ascends (s : State) : s.WalkAscends s.dispatchReturn := by
  unfold State.dispatchReturn
  split
  · rename_i b w i hd
    exact .of_le (congrArg walkPin hd) rfl (by omega) (.quiet (t := s) rfl rfl) rfl
  · exact State.WalkStands.ascends (.quiet rfl rfl)

section
variable {s t : State} (hplace : s.WalkPlace) (hd : s.dmx ≠ .idle)
include hplace hd

theorem State.Moved.ascends (h : s.Moved t) : s.WalkAscends t := by
  cases h with
  | context c h => exact (State.moveContext_walkStands hd h).ascends
  | walk h => exact State.walk_ascends hplace h
  | line h =>
    obtain ⟨-, -, h⟩ := State.takeLine_cases h
    exact absurd (State.startWalk_cases h).1 hd
  | none h => subst h; exact State.WalkStands.ascends (.quiet rfl rfl)

/-- Whatever happens from outside while the walk is in progress, its place does not fall (44_demux.md R228). -/
theorem Input.perform_ascends {e : Input} (h : e.perform s = .next t) : s.WalkAscends t := by
  cases e with
  | issue c w => exact (State.issue_walkStands hd h).ascends
  | start c w => exact (State.start_walkStands h).ascends
  | bus c => exact (State.Moved.of_outcome h (.context c)).ascends hplace hd
  | walk => exact (State.Moved.of_outcome h .walk).ascends hplace hd
  | takeLine => exact (State.Moved.of_outcome h .line).ascends hplace hd
  | consumerDone => cases h; exact s.dispatchReturn_ascends
  | statusSet b w =>
    cases h
    obtain ⟨-, -, -, -, hdmx, -, -, htrace, -⟩ := State.statusSet_frame s b w
    exact State.WalkStands.ascends (.quiet hdmx htrace)
  | blockReset => cases h; exact .of_idle rfl
  | writeOp0 | writeOp1 => cases h; exact State.WalkStands.ascends (.quiet (by simp) (by simp))
  | setLine | pinChange => cases h; exact State.WalkStands.ascends (.quiet rfl rfl)

end

/-- Settles O34: a step is a move of one agent or an input, and each lets the walk rise only. -/
theorem dispatchesAscend : Obligations.DispatchesAscend := by
  intro s t n m h hstep hn hm
  have hd : s.dmx ≠ .idle := by
    intro hidle
    rw [hidle] at hn
    cases hn
  obtain ⟨-, hmoved | ⟨e, l, -, -, hperform⟩⟩ := step_cases hstep
  · exact hmoved.ascends h.place hd n m hn hm
  · exact Input.perform_ascends (s := { s with inputs := l }) h.place hd hperform n m hn hm

end Sys2Proof.Machine
end

section
/-! PROOFS. One undisturbed invocation from its command to its answer (44_demux.md R220, R231): every bank is read and every pending bit dispatched and returned from, one step after the other. -/

namespace Sys2Proof.Machine

/-! ## Runs -/

/-- Finitely many steps lead from `s` to `t`. -/
def State.Reaches : State → State → Prop := Relation.ReflTransGen fun s t => step s = .next t

theorem State.Reaches.refl (s : State) : s.Reaches s := Relation.ReflTransGen.refl

theorem State.Reaches.of_step {s t : State} (h : step s = .next t) : s.Reaches t := .single h

theorem State.Reaches.trans {s t u : State} (h : s.Reaches t) (h' : t.Reaches u) : s.Reaches u := Relation.ReflTransGen.trans h h'

theorem run_succ_of_step {M : Host.Core} {s t : M.State} (h : M.step s = .next t) (k : Nat) : M.run (k + 1) s = M.run k t := by
  rw [Host.Core.run, h]

theorem State.Reaches.run {s t : State} (h : s.Reaches t) : ∃ k, Sys2Proof.core.run k s = .next t := by
  induction h using Relation.ReflTransGen.head_induction_on with
  | refl => exact ⟨0, rfl⟩
  | head hstep _ ih =>
    obtain ⟨k, hk⟩ := ih
    exact ⟨k + 1, (run_succ_of_step (M := Sys2Proof.core) hstep k).trans hk⟩

/-! ## The walk's moves as steps -/

/-- The walk moves only where no dispatch is outstanding. -/
theorem State.dispatching_of_walk {s t : State} (h : s.walk = .made t) : s.dispatching = false := by
  unfold State.dispatching
  split
  · simp only [State.walk, ‹s.dmx = _›] at h
    cases h
  · rfl

/-- With nothing in progress in the interrupt context, the walk moves first of all (log entry 8). -/
theorem State.advance_of_walk {s t : State} (hint : s.interrupt.todo = []) (h : s.walk = .made t) : s.advance = .next t := by
  simp only [State.advance, State.moveContext_nil (c := .interrupt) hint, h, Move.orElse, Move.outcome]

/-- While the queue holds only the consumer's returns, which wait for a dispatch, a step is the walk's move. -/
theorem step_of_walk {s t : State} (hc : cfgWf s.cfg = true) (hint : s.interrupt.todo = [])
    (hin : ∀ e ∈ s.inputs, e = .consumerDone) (h : s.walk = .made t) : step s = .next t := by
  rw [step, if_pos hc]
  cases hl : s.inputs with
  | nil => exact State.advance_of_walk hint h
  | cons e l =>
    obtain rfl : e = .consumerDone := hin e (by simp [hl])
    have hwait : Input.consumerDone.enabled s = false := by simp [Input.enabled, State.dispatching_of_walk h]
    simp only [hwait, Bool.false_eq_true, if_false, State.advance_of_walk hint h]

/-! ## The states of an undisturbed invocation -/

/-- The state of the invocation that started in `s`: the walk stands at `d`, the events `evs` have been made and every dispatch among them has been returned from, and `m` returns of the consumer are still to come. -/
def State.walkAt (s : State) (d : Dmx) (evs : List Event) (m : Nat) : State :=
  { s with dmx := d, walkCount := evs.countP isDispatch, trace := evs.reverse ++ s.trace, inputs := List.replicate m .consumerDone }

/-- The dispatches of those bits of bank `b` in the list `l` that are set in `w`. -/
def State.scanEvents (s : State) (b : Nat) (w : Word) (l : List Nat) : List Event :=
  (l.filter fun i => w.getLsbD i).map fun i => .dispatch (BitVec.ofNat 16 (pinOf b i)) (s.handler (pinOf b i))

theorem State.scanEvents_cons_clear (s : State) (b : Nat) {w : Word} {i : Nat} (h : w.getLsbD i = false) (l : List Nat) :
    s.scanEvents b w (i :: l) = s.scanEvents b w l := by
  simp [State.scanEvents, h]

theorem State.scanEvents_cons_set (s : State) (b : Nat) {w : Word} {i : Nat} (h : w.getLsbD i = true) (l : List Nat) :
    s.scanEvents b w (i :: l) = .dispatch (BitVec.ofNat 16 (pinOf b i)) (s.handler (pinOf b i)) :: s.scanEvents b w l := by
  simp [State.scanEvents, h]

theorem walkEvents_without_interrupts (s : State) (b : Nat) {d : BankDesc} (h : d.irq = false) (ds : List BankDesc) :
    walkEvents s b (d :: ds) = walkEvents s (b + 1) ds := by
  simp [walkEvents, h]

theorem walkEvents_with_interrupts (s : State) {b : Nat} {d : BankDesc} (h : d.irq = true) {w : Word} (hw : s.reg b .istat = some w)
    (ds : List BankDesc) :
    walkEvents s b (d :: ds) = [.read .demux (s.cfg.regBase + roleOffset s.cfg d .istat) w] ++ s.scanEvents b w (List.range' 0 32)
      ++ walkEvents s (b + 1) ds := by
  simp [walkEvents, h, hw, State.scanEvents, pendingPins, ← List.range_eq_range']

/-- The events of an invocation depend on the configuration, the registers and the bound types alone. -/
theorem walkEvents_congr {s t : State} (hcfg : t.cfg = s.cfg) (hbanks : t.banks = s.banks) (hkind : t.kind = s.kind) (b : Nat)
    (ds : List BankDesc) : walkEvents t b ds = walkEvents s b ds := by
  have hhandler : t.handler = s.handler := by
    funext p
    simp only [State.handler, hcfg, hkind]
  induction ds generalizing b with
  | nil => rfl
  | cons d ds ih => simp only [walkEvents, ih, hcfg, hhandler, State.reg_of_banks_eq hbanks]

section
variable {s : State} (h : s.Shaped) (hlock : s.lock = .free) (hint : s.interrupt.todo = [])
include h hint

theorem State.Shaped.walkAt_reaches {d d' : Dmx} {evs evs' : List Event} {m : Nat}
    (hwalk : (s.walkAt d evs m).walk = .made (s.walkAt d' evs' m)) : (s.walkAt d evs m).Reaches (s.walkAt d' evs' m) :=
  .of_step (step_of_walk h.cfg hint (fun _ => List.eq_of_mem_replicate) hwalk)

/-- The status read of a bank with interrupts (44_demux.md R223). -/
theorem State.Shaped.walkAt_read {b : Nat} {d : BankDesc} (hd : s.cfg.bankTable[b]? = some d) (hi : d.irq = true)
    (evs : List Event) (m : Nat) :
    ∃ w, s.reg b .istat = some w ∧ (s.walkAt (.nextBank b) evs m).Reaches
      (s.walkAt (.scan b w 0) (evs ++ [.read .demux (s.cfg.regBase + roleOffset s.cfg d .istat) w]) m) := by
  have hshaped : (s.walkAt (.nextBank b) evs m).Shaped := h.congr rfl rfl rfl rfl
  obtain ⟨a, w, ha, hw, hwalk⟩ := State.walk_with_interrupts rfl hshaped hd hi
  obtain rfl := Except.ok.inj ((busAddr_ok hd fun _ => hi).symm.trans ha)
  refine ⟨w, hw, h.walkAt_reaches hint (hwalk.trans ?_)⟩
  simp [State.walkAt, State.log, isDispatch]

include hlock

/-- A set bit takes two steps: its dispatch and the consumer's return (44_demux.md R226). -/
theorem State.Shaped.walkAt_serve {b : Nat} {w : Word} {i : Nat} (hi : i < 32) (hw : w.getLsbD i = true) (evs : List Event) (m : Nat) :
    (s.walkAt (.scan b w i) evs (m + 1)).Reaches
      (s.walkAt (.scan b w (i + 1)) (evs ++ [.dispatch (BitVec.ofNat 16 (pinOf b i)) (s.handler (pinOf b i))]) m) := by
  have hwalk := State.walk_set_bit (s := s.walkAt (.scan b w i) evs (m + 1)) rfl hi hw (State.deliveryMasked_of_free hlock)
  have hreturn := step_consumerDone (l := List.replicate m .consumerDone) (s := { (s.walkAt (.scan b w i) evs (m + 1)).log
    (.dispatch (BitVec.ofNat 16 (pinOf b i)) (s.handler (pinOf b i))) with dmx := .wait b w i }) h.cfg rfl rfl hint
  refine .trans (.of_step (step_of_walk h.cfg hint (fun _ => List.eq_of_mem_replicate) hwalk)) (.of_step (hreturn.trans ?_))
  simp [State.walkAt, State.log, isDispatch]

/-- The scan from bit `i` on serves the set bits among the `k` bits left and goes to the next bank. -/
theorem State.Shaped.walkAt_scan {b : Nat} {w : Word} {i k : Nat} (hik : i + k = 32) (evs : List Event) (m : Nat) :
    (s.walkAt (.scan b w i) evs ((s.scanEvents b w (List.range' i k)).countP isDispatch + m)).Reaches
      (s.walkAt (.nextBank (b + 1)) (evs ++ s.scanEvents b w (List.range' i k)) m) := by
  induction k generalizing i evs with
  | zero =>
    have hlast := State.walk_after_last_bit (s := s.walkAt (.scan b w i) evs m) rfl (by omega : 32 ≤ i)
    simpa [State.scanEvents] using h.walkAt_reaches hint hlast
  | succ k ih =>
    rw [List.range'_succ]
    cases hw : w.getLsbD i with
    | false =>
      rw [State.scanEvents_cons_clear s b hw]
      exact .trans (h.walkAt_reaches hint (State.walk_clear_bit rfl (by omega) hw)) (ih (by omega) evs)
    | true =>
      rw [State.scanEvents_cons_set s b hw, List.countP_cons_of_pos rfl, Nat.add_right_comm, List.append_cons]
      exact .trans (h.walkAt_serve hlock hint (by omega) hw evs _) (ih (by omega) _)

/-- The walk from bank `b` on makes the events of the banks left, up to its place after the last bank. -/
theorem State.Shaped.walkAt_banks {b : Nat} {ds : List BankDesc} (hds : s.cfg.bankTable.drop b = ds) (evs : List Event) :
    (s.walkAt (.nextBank b) evs ((walkEvents s b ds).countP isDispatch)).Reaches
      (s.walkAt (.nextBank (b + ds.length)) (evs ++ walkEvents s b ds) 0) := by
  induction ds generalizing b evs with
  | nil => simpa [walkEvents] using State.Reaches.refl _
  | cons d ds ih =>
    have hd : s.cfg.bankTable[b]? = some d := by rw [← List.head?_drop, hds, List.head?_cons]
    have hrest : s.cfg.bankTable.drop (b + 1) = ds := by rw [← List.tail_drop, hds, List.tail_cons]
    rw [List.length_cons, Nat.add_comm ds.length, ← Nat.add_assoc]
    cases hi : d.irq with
    | false =>
      rw [walkEvents_without_interrupts s b hi]
      exact .trans (h.walkAt_reaches hint (State.walk_without_interrupts rfl hd hi)) (ih hrest evs)
    | true =>
      obtain ⟨w, hw, hread⟩ := h.walkAt_read hint hd hi evs ((walkEvents s b (d :: ds)).countP isDispatch)
      have hcount : (walkEvents s b (d :: ds)).countP isDispatch
          = (s.scanEvents b w (List.range' 0 32)).countP isDispatch + (walkEvents s (b + 1) ds).countP isDispatch := by
        simp [walkEvents_with_interrupts s hi hw, isDispatch]
      rw [hcount] at hread ⊢
      rw [walkEvents_with_interrupts s hi hw, ← List.append_assoc, ← List.append_assoc]
      exact (hread.trans (h.walkAt_scan hlock hint rfl _ _)).trans (ih hrest _)

/-- The invocation that starts with the walk at bank 0 makes its events, and answers. -/
theorem State.Shaped.walkAt_answers :
    (s.walkAt (.nextBank 0) [] ((walkEvents s 0 s.cfg.bankTable).countP isDispatch)).Reaches
      (s.walkAt (.nextBank (nbanks s.cfg)) (walkEvents s 0 s.cfg.bankTable) 0).walkFinish := by
  have hbanks := h.walkAt_banks hlock hint (b := 0) rfl []
  rw [Nat.zero_add, List.nil_append] at hbanks
  refine .trans hbanks (.of_step (step_of_walk h.cfg hint nofun (State.walk_after_last_bank rfl ?_)))
  exact List.getElem?_eq_none le_rfl

end

/-! ## The answer -/

section
variable {s : State} {c : Ctx}

theorem State.walkFinish_todo (h : s.walkFor = c) : (s.walkFinish.ctx c).todo = [] := by
  subst h
  simp [State.walkFinish]

/-- The answer counts the dispatches (44_demux.md R227). -/
theorem State.walkFinish_resp (h : s.walkFor = c) :
    (s.walkFinish.ctx c).resp = { status := statusCode .ok, data := BitVec.ofNat 32 s.walkCount, mask := 0#32 } := by
  subst h
  simp [State.walkFinish]

/-- No other context takes part in the answer. -/
theorem State.walkFinish_ctx_ne (h : c ≠ s.walkFor) : s.walkFinish.ctx c = s.ctx c := by
  rw [State.walkFinish, State.setTodo_ctx_ne _ h, State.answer_ctx_ne _ h]
  cases c <;> rfl

end

/-- The finish ends the invocation and leaves the rest of the block alone. -/
theorem State.walkFinish_frame (s : State) :
    s.walkFinish.dmx = .idle ∧ s.walkFinish.inputs = s.inputs ∧ s.walkFinish.lock = s.lock ∧ s.walkFinish.trace = s.trace
      ∧ s.walkFinish.banks = s.banks ∧ s.walkFinish.ctrl = s.ctrl ∧ s.walkFinish.kind = s.kind ∧ s.walkFinish.ready = s.ready := by
  simp [State.walkFinish]

/-- The state in which a DEMUX of context `c` has started an invocation, the walk's own place left open. -/
def State.demuxStarted (s : State) (c : Ctx) (w : Word) : State :=
  { (s.accept c w).setTodo c [.awaitWalk] with walkFor := c }

theorem State.demuxStarted_frame (s : State) (c : Ctx) (w : Word) :
    (s.demuxStarted c w).cfg = s.cfg ∧ (s.demuxStarted c w).banks = s.banks ∧ (s.demuxStarted c w).kind = s.kind
      ∧ (s.demuxStarted c w).samples = s.samples ∧ (s.demuxStarted c w).lock = s.lock ∧ (s.demuxStarted c w).trace = s.trace
      ∧ (s.demuxStarted c w).ctrl = s.ctrl ∧ (s.demuxStarted c w).ready = s.ready := by
  simp [State.demuxStarted]

/-- Only the commanding context is changed. -/
theorem State.demuxStarted_ctx_ne (s : State) {c d : Ctx} (h : d ≠ c) (w : Word) : (s.demuxStarted c w).ctx d = s.ctx d := by
  rw [← State.accept_ctx_ne s h w, ← State.setTodo_ctx_ne (s.accept c w) h [.awaitWalk]]
  cases d <;> rfl

/-- A DEMUX command that may start puts the walk at bank 0 (44_demux.md R221). -/
theorem step_demux {s : State} (h : s.Shaped) (hr : s.ready = true) (hd : s.dmx = .idle) (hlock : s.lock = .free) {r : Nat}
    (htodo : ∀ c, (s.ctx c).todo = []) {w : Word} (hw : decode w = .ok .demux) {m : Nat}
    (hin : s.inputs = .issue (.normal r) w :: List.replicate m .consumerDone) :
    step s = .next ((s.demuxStarted (.normal r) w).walkAt (.nextBank 0) [] m) := by
  have hissue : s.mayIssue (.normal r) w = true := by simp [State.mayIssue, htodo, isInit, hw]
  rw [step_issue h.cfg hin hissue hw, exec_demux_starts (by simpa using hr) (by simpa using hd)
    (State.deliveryMasked_of_free (by simpa using hlock))]
  rfl

/-- Settles O33: the command starts the walk, the walk serves every bank, and its finish answers. -/
theorem demuxServesEveryPendingBit : Obligations.DemuxServesEveryPendingBit := by
  intro s r w h hr hd hlock htodo hw hin
  rw [← List.countP_eq_length_filter] at hin ⊢
  obtain ⟨hcfg, hbanks, hkind, hsamples, hlock', htrace, hctrl, hready⟩ := s.demuxStarted_frame (.normal r) w
  have hothers (c : Ctx) (hc : c ≠ .normal r) := s.demuxStarted_ctx_ne hc w
  have hint := (congrArg Context.todo (hothers .interrupt nofun)).trans (htodo .interrupt)
  have hanswer := (h.congr hcfg hbanks hkind hsamples).walkAt_answers (hlock'.trans hlock) hint
  rw [walkEvents_congr hcfg hbanks hkind, hcfg] at hanswer
  obtain ⟨k, hk⟩ := ((State.Reaches.of_step (step_demux h hr hd hlock htodo hw hin)).trans hanswer).run
  obtain ⟨fdmx, finputs, flock, ftrace, fbanks, fctrl, fkind, fready⟩ := State.walkFinish_frame
    ((s.demuxStarted (.normal r) w).walkAt (.nextBank (nbanks s.cfg)) (walkEvents s 0 s.cfg.bankTable) 0)
  refine ⟨k, _, hk, finputs, fdmx, flock.trans (hlock'.trans hlock), State.walkFinish_todo rfl, State.walkFinish_resp rfl,
    ftrace.trans (congrArg _ htrace), fbanks.trans hbanks, fctrl.trans hctrl, fkind.trans hkind, fready.trans (hready.trans hr),
    fun c hc => ?_⟩
  rw [State.walkFinish_ctx_ne (s := State.walkAt ..) hc, ← hothers c hc]
  cases c <;> rfl

end Sys2Proof.Machine
end

section
/-! PROOFS. The statements of 45_initializer.md: the numbers of the control word, the tests that refuse INIT before its first write, and the whole state an INIT that passes them leads to. -/

namespace Sys2Proof.Machine

/-! ## The numbers of the control word -/

theorem toNat_clamp (v : Int) {lo hi : Int} (h : lo ≤ hi) : (clamp v lo hi).toNat = max lo.toNat (min hi.toNat v.toNat) := by
  unfold clamp
  split
  · omega
  · split <;> omega

theorem divisor_eq (fSrc fReq : Nat) :
    divisor fSrc fReq = max 1 (min 65535 ((fSrc + requestedFreq fReq) / (2 * requestedFreq fReq) - 1)) := by
  rw [divisor, toNat_clamp _ (by decide), Int.pred_toNat]
  rfl

/-- Settles O38: a rounded quotient is the floor after half the divisor is added, and 0 Hz is read as the default. -/
theorem divisorIsRoundedAndClamped : Obligations.DivisorIsRoundedAndClamped := by
  refine ⟨fun fSrc fReq q hpos hlow hhigh => ?_, fun fSrc => rfl⟩
  have hreq : requestedFreq fReq = fReq := if_neg hpos.ne'
  have hq : (fSrc + fReq) / (2 * fReq) = q :=
    Nat.div_eq_of_lt_le (Nat.mul_comm q _ ▸ hlow) (Nat.mul_comm (q + 1) _ ▸ hhigh)
  rw [divisor_eq, hreq, hq]

/-- Settles O39: a quotient of naturals is rounded toward zero already. -/
theorem frameBytesAreClamped : Obligations.FrameBytesAreClamped := fun n => by
  rw [frameBytes, toNat_clamp _ (by decide)]
  rfl

/-! ## The tests before the first write -/

theorem planInit_ready {s : State} (h : s.ready = true) (cs : Nat) : planInit cs s = raisePlan .invalidArgument := if_pos h

/-- The collaborator status is tested only once the controller is known not to be ready (60_exceptions.md R280). -/
theorem planInit_collaborators {s : State} (h : s.ready = false) :
    planInit 3 s = raisePlan .invalidArgument ∧ planInit 1 s = raisePlan .initializationFailure
      ∧ planInit 2 s = raisePlan .initializationDeferred := by
  simp [planInit, h]

theorem State.Idle.exec_init_refused {s : State} (h : s.Idle) {cs : Nat} {k : Status} (hp : planInit cs s = raisePlan k) :
    exec (.init cs) s = .next (s.ended k 0#32 0#32) := by
  rw [exec_eq_runPlan, planOf, hp, runPlan_raise h, State.ended]

/-- Settles O37: each test that fails makes the plan a single answer. -/
theorem initRefusals : Obligations.InitRefusals := by
  intro s cs h
  refine ⟨fun hr => h.exec_init_refused (planInit_ready hr cs), fun hr => ?_⟩
  obtain ⟨reserved, failed, deferred⟩ := planInit_collaborators hr
  exact ⟨h.exec_init_refused reserved, h.exec_init_refused failed, h.exec_init_refused deferred⟩

/-! ## INIT's writes to one bank -/

/-- The registers INIT writes in one bank, in issue order (45_initializer.md R250). -/
def initRoles (d : BankDesc) : List Role := .tol :: if d.irq then [.ien, .istat, .type0, .type1, .type2] else []

/-- The word INIT writes to a register of a role (45_initializer.md R255 to R257). -/
def writtenByInit (r : Role) : Word := if r = .istat ∨ r = .type0 then 0xFFFFFFFF#32 else 0#32

/-- The word that stands in a register of a role once INIT has written it: a status bit written 1 is cleared (20_memory.md R67). -/
def leftByInit (r : Role) : Word := if r = .type0 then 0xFFFFFFFF#32 else 0#32

/-- The registers of one bank after INIT (45_initializer.md R255 to R257). -/
def BankRegs.initialised (k : BankRegs) : BankRegs :=
  { k with
    tol := 0#32
    irq := k.irq.map fun _ => { ien := 0#32, type0 := 0xFFFFFFFF#32, type1 := 0#32, type2 := 0#32, istat := 0#32 } }

theorem mem_initRoles {d : BankDesc} {r : Role} (h : r ∈ initRoles d) :
    (isIrqRole r = true → d.irq = true) ∧ r ≠ .val ∧ r ≠ .latch := by
  cases hi : d.irq with
  | false =>
    obtain rfl : r = .tol := by simpa [initRoles, hi] using h
    exact ⟨nofun, nofun, nofun⟩
  | true => exact ⟨fun _ => rfl, by rintro rfl; simp [initRoles, hi] at h, by rintro rfl; simp [initRoles, hi] at h⟩

theorem initLines_cons (c : Cfg) (b : Nat) (d : BankDesc) (ds : List BankDesc) :
    initLines c b (d :: ds)
      = (initRoles d).map (fun r => .write (c.regBase + roleOffset c d r) (writtenByInit r)) ++ initLines c (b + 1) ds := by
  cases hi : d.irq <;> simp [initLines, initRoles, writtenByInit, hi]

theorem initWrites_cons (c : Cfg) (who : Master) (b : Nat) (d : BankDesc) (ds : List BankDesc) :
    initWrites c who b (d :: ds)
      = (initRoles d).map (fun r => .write who (c.regBase + roleOffset c d r) (writtenByInit r)) ++ initWrites c who (b + 1) ds := by
  cases hi : d.irq <;> simp [initWrites, initRoles, writtenByInit, hi]

theorem BankRegs.foldl_put_initRoles {k : BankRegs} {d : BankDesc} (h : k.irq.isSome = d.irq) :
    (initRoles d).foldl (fun k r => k.put r (leftByInit r)) k = k.initialised := by
  rcases k with ⟨latch, tol, _ | g⟩ <;> simp [initRoles, ← h, BankRegs.initialised, BankRegs.put, leftByInit]

theorem State.writeReg_writtenByInit (s : State) (b : Nat) {r : Role} (h : r ≠ .val ∧ r ≠ .latch) :
    s.writeReg (.bank b r) (writtenByInit r) = s.putReg b r (leftByInit r) := by
  cases r with
  | val => exact absurd rfl h.1
  | latch => exact absurd rfl h.2
  | istat => exact congrArg (s.putReg b .istat) BitVec.and_zero
  | tol | ien | type0 | type1 | type2 => rfl

/-- The registers of bank `b` are changed, and the events `es` are recorded. -/
def State.changeBank (s : State) (b : Nat) (f : BankRegs → BankRegs) (es : List Event) : State :=
  { s with banks := s.banks.modify b f, trace := es.reverse ++ s.trace }

theorem State.changeBank_id (s : State) (b : Nat) : s.changeBank b id [] = s := by simp [State.changeBank, List.modify_id]

theorem State.changeBank_changeBank (s : State) (b : Nat) (f g : BankRegs → BankRegs) (es es' : List Event) :
    (s.changeBank b f es).changeBank b g es' = s.changeBank b (g ∘ f) (es ++ es') := by
  simp [State.changeBank, List.modify_modify_eq]

theorem State.changeBank_congr {s : State} {b : Nat} {f g : BankRegs → BankRegs} (h : ∀ k, s.banks[b]? = some k → f k = g k)
    (es : List Event) : s.changeBank b f es = s.changeBank b g es := by
  have hbanks : s.banks.modify b f = s.banks.modify b g := by
    refine List.ext_getElem? fun i => ?_
    rw [List.getElem?_modify, List.getElem?_modify]
    split
    · subst b; exact Option.map_congr h
    · rfl
  rw [State.changeBank, hbanks, State.changeBank]

theorem State.Shaped.changeBank {s : State} (h : s.Shaped) (b : Nat) {f : BankRegs → BankRegs}
    (hf : ∀ k, (f k).irq.isSome = k.irq.isSome) (es : List Event) : (s.changeBank b f es).Shaped := by
  refine ⟨h.cfg, (List.length_modify ..).trans h.banks, fun i k hk => ?_, h.kinds, h.samples⟩
  obtain ⟨j, hj, rfl⟩ := Option.map_eq_some_iff.mp ((List.getElem?_modify ..).symm.trans hk)
  refine Eq.trans ?_ (h.irq i j hj)
  split
  · exact hf j
  · rfl

/-- INIT's writes to registers of one bank, one after the other. -/
theorem runLines_initRoles {c : Ctx} {b : Nat} {d : BankDesc} {rs : List Role} (hrs : ∀ r ∈ rs, r ∈ initRoles d)
    {s : State} (h : s.Shaped) (hd : s.cfg.bankTable[b]? = some d) (l : List Micro) :
    runLines c (rs.map (fun r => .write (s.cfg.regBase + roleOffset s.cfg d r) (writtenByInit r)) ++ l) s
      = runLines c l (s.changeBank b (fun k => rs.foldl (fun k r => k.put r (leftByInit r)) k)
          (rs.map fun r => .write (.op c) (s.cfg.regBase + roleOffset s.cfg d r) (writtenByInit r))) := by
  induction rs generalizing s with
  | nil => exact congrArg (runLines c l) (s.changeBank_id b).symm
  | cons r rs ih =>
    obtain ⟨hr, hrs⟩ := List.forall_mem_cons.mp hrs
    obtain ⟨hirq, hplain⟩ := mem_initRoles hr
    rw [List.map_cons, List.cons_append,
      runLines_write h (regAt_role h.cfg hd hirq) (by rintro b' ⟨⟩; exact hplain.2 rfl), State.writeReg_writtenByInit s b hplain]
    refine (ih hrs ((h.putReg ..).log _) hd).trans (congrArg (runLines c l) ?_)
    exact State.changeBank_changeBank s b (·.put r (leftByInit r)) _ [_] _

/-- INIT's writes to one bank leave its registers initialised, and its write-latch as before (45_initializer.md R255, R256, R258). -/
theorem runLines_initBank {s : State} (h : s.Shaped) {b : Nat} {d : BankDesc} (hd : s.cfg.bankTable[b]? = some d) (c : Ctx) (l : List Micro) :
    runLines c ((initRoles d).map (fun r => .write (s.cfg.regBase + roleOffset s.cfg d r) (writtenByInit r)) ++ l) s
      = runLines c l (s.changeBank b BankRegs.initialised
          ((initRoles d).map fun r => .write (.op c) (s.cfg.regBase + roleOffset s.cfg d r) (writtenByInit r))) := by
  rw [runLines_initRoles (fun _ => id) h hd, State.changeBank_congr]
  exact fun k hk => BankRegs.foldl_put_initRoles ((h.irq b k hk).trans (bankIrq_of hd))

/-! ## INIT's writes to all banks -/

/-- The registers of the banks from `b` up are initialised, and the events `es` are recorded. -/
def State.initialisedFrom (s : State) (b : Nat) (es : List Event) : State :=
  { s with banks := s.banks.mapIdx fun i k => if b ≤ i then k.initialised else k, trace := es.reverse ++ s.trace }

/-- Bank `b` first and then the banks after it are all the banks from `b` up. -/
theorem State.changeBank_initialisedFrom (s : State) (b : Nat) (es es' : List Event) :
    (s.changeBank b BankRegs.initialised es).initialisedFrom (b + 1) es' = s.initialisedFrom b (es ++ es') := by
  have hbanks : (s.banks.modify b BankRegs.initialised).mapIdx (fun i k => if b + 1 ≤ i then k.initialised else k)
      = s.banks.mapIdx fun i k => if b ≤ i then k.initialised else k := by
    refine List.ext_getElem? fun i => ?_
    rw [List.getElem?_mapIdx, List.getElem?_mapIdx, List.getElem?_modify, Option.map_eq_map, Option.map_map]
    refine Option.map_congr fun k _ => ?_
    rcases Nat.lt_trichotomy i b with hi | rfl | hi
    · simp [Nat.not_le.mpr hi, hi.ne', Nat.not_lt.mpr hi.le]
    · simp
    · simp [hi.le, hi.ne, hi]
  simp only [State.initialisedFrom, State.changeBank, hbanks, List.reverse_append, List.append_assoc]

theorem State.Shaped.initialisedFrom_end {s : State} (h : s.Shaped) {b : Nat} (hb : nbanks s.cfg ≤ b) : s.initialisedFrom b [] = s := by
  have hbanks : (s.banks.mapIdx fun i k => if b ≤ i then k.initialised else k) = s.banks := by
    refine List.ext_getElem (by simp) fun i _ hi => ?_
    have := h.banks
    rw [List.getElem_mapIdx, if_neg (by omega)]
  simp [State.initialisedFrom, hbanks]

/-- INIT's writes to the banks from `b` up. -/
theorem runLines_initLines {c : Ctx} {l : List Micro} {s : State} (h : s.Shaped) {b : Nat} {ds : List BankDesc}
    (hds : s.cfg.bankTable.drop b = ds) :
    runLines c (initLines s.cfg b ds ++ l) s = runLines c l (s.initialisedFrom b (initWrites s.cfg (.op c) b ds)) := by
  induction ds generalizing s b with
  | nil => rw [initWrites, h.initialisedFrom_end (List.drop_eq_nil_iff.mp hds)]; rfl
  | cons d ds ih =>
    have hd : s.cfg.bankTable[b]? = some d := by rw [← List.head?_drop, hds, List.head?_cons]
    have hrest : s.cfg.bankTable.drop (b + 1) = ds := by rw [← List.tail_drop, hds, List.tail_cons]
    rw [initLines_cons, List.append_assoc, runLines_initBank h hd, initWrites_cons, ← State.changeBank_initialisedFrom]
    exact ih (h.changeBank b (fun k => by simp [BankRegs.initialised]) _) hrest

/-! ## The whole of INIT -/

/-- The state once INIT has written everything and made the controller ready, before its answer (45_initializer.md R250). -/
def State.initialised (s : State) (cw : Word) : State :=
  { s with
    ctrl  := cw
    banks := s.banks.map BankRegs.initialised
    trace := (.write (.op s.active) (ctrlAddr s.cfg) cw :: initWrites s.cfg (.op s.active) 0 s.cfg.bankTable).reverse ++ s.trace
    ready := true }

theorem State.initialised_ctx (s : State) (cw : Word) (c : Ctx) : (s.initialised cw).ctx c = s.ctx c := by cases c <;> rfl

theorem State.Idle.initialised {s : State} (h : s.Idle) (cw : Word) : (s.initialised cw).Idle :=
  (congrArg Context.todo (s.initialised_ctx cw s.active)).trans h

theorem State.initialised_reg {s : State} {b : Nat} {k : BankRegs} (h : s.banks[b]? = some k) (cw : Word) (r : Role) :
    (s.initialised cw).reg b r = k.initialised.get r :=
  State.reg_of_bank ((List.getElem?_map ..).trans (congrArg (Option.map _) h)) r

/-- The control word's write, the banks' writes and READY together. -/
theorem State.initialisedFrom_zero (s : State) (cw : Word) :
    (((s.writeReg .ctrl cw).log (.write (.op s.active) (ctrlAddr s.cfg) cw)).initialisedFrom 0
      (initWrites s.cfg (.op s.active) 0 s.cfg.bankTable)).makeReady = s.initialised cw := by
  have hbanks : (s.banks.mapIdx fun _ k => k.initialised) = s.banks.map BankRegs.initialised := List.ext_getElem? (by simp)
  simp [State.initialisedFrom, State.initialised, State.makeReady, State.log, State.writeReg, hbanks]

theorem State.Shaped.bank_of_desc {s : State} (h : s.Shaped) {b : Nat} {d : BankDesc} (hd : s.cfg.bankTable[b]? = some d) :
    ∃ k, s.banks[b]? = some k ∧ k.irq.isSome = d.irq := by
  have hb : b < s.banks.length := by rw [h.banks]; exact (List.getElem?_eq_some_iff.mp hd).1
  exact ⟨_, List.getElem?_eq_getElem hb, (h.irq b _ (List.getElem?_eq_getElem hb)).trans (bankIrq_of hd)⟩

/-- Each bank's registers after INIT: every one in its initial value but the write-latch, which stands as before (45_initializer.md R255 to R258). -/
theorem State.Shaped.initialised_regs {s : State} (h : s.Shaped) {b : Nat} {d : BankDesc} (hd : s.cfg.bankTable[b]? = some d) (cw : Word) :
    (s.initialised cw).reg b .tol = some 0#32 ∧ (s.initialised cw).reg b .latch = s.reg b .latch
      ∧ (d.irq = true → (s.initialised cw).reg b .ien = some 0#32 ∧ (s.initialised cw).reg b .istat = some 0#32
          ∧ (s.initialised cw).reg b .type0 = some 0xFFFFFFFF#32 ∧ (s.initialised cw).reg b .type1 = some 0#32
          ∧ (s.initialised cw).reg b .type2 = some 0#32) := by
  obtain ⟨k, hk, hirq⟩ := h.bank_of_desc hd
  simp only [State.initialised_reg hk, State.reg_of_bank hk]
  refine ⟨rfl, rfl, fun hi => ?_⟩
  obtain ⟨g, hg⟩ := Option.isSome_iff_exists.mp (hirq.trans hi)
  simp [BankRegs.get, BankRegs.initialised, hg]

/-- With every test passed, the plan is the write of the control word, the banks' writes, READY, and the answer (45_initializer.md R250). -/
theorem planInit_passed {s : State} (h : s.ready = false) :
    planInit 0 s = .ok (.write (ctrlAddr s.cfg) (initWord s.cfg (s.ctx s.active).op0.toNat (s.ctx s.active).op1.toNat)
      :: initLines s.cfg 0 s.cfg.bankTable
      ++ [.setReady, .answer (statusCode .ok) (initWord s.cfg (s.ctx s.active).op0.toNat (s.ctx s.active).op1.toNat) 0#32]) := by
  simp [planInit, h, initBanks_all]

/-- An INIT that passes its tests runs to its end without waiting (45_initializer.md R250, R259). -/
theorem exec_init {s : State} (h : s.Shaped) (hidle : s.Idle) (hr : s.ready = false) :
    exec (.init 0) s =
      let cw := initWord s.cfg (s.ctx s.active).op0.toNat (s.ctx s.active).op1.toNat
      .next ((s.initialised cw).ended .ok cw 0#32) := by
  rw [exec_eq_runPlan, planOf, planInit_passed hr, State.runPlan]
  generalize initWord .. = cw
  rw [List.cons_append, runLines_write h (regAt_ctrl h.cfg) nofun]
  have hwritten := (h.writeReg .ctrl cw).log (.write (.op s.active) (ctrlAddr s.cfg) cw)
  refine (runLines_initLines hwritten (b := 0) rfl).trans ?_
  calc runLines s.active [.setReady, .answer (statusCode .ok) cw 0#32]
        (State.initialisedFrom _ 0 (initWrites s.cfg (.op s.active) 0 s.cfg.bankTable))
    _ = .next (((s.initialised cw).answer s.active (statusCode .ok) cw 0#32).setTodo s.active []) := by
      rw [runLines_setReady, State.initialisedFrom_zero, runLines_answer, runLines_nil]
    _ = .next ((s.initialised cw).ended .ok cw 0#32) :=
      congrArg Host.Outcome.next (State.answer_ended (hidle.initialised cw) ..)

/-- Settles O36: the whole state INIT leads to is known, and the registers are read off it. -/
theorem initProgramsRegisters : Obligations.InitProgramsRegisters := by
  intro s h hidle hr cw
  have htodo : (((s.initialised cw).ended .ok cw 0#32).ctx s.active).todo = [] :=
    (State.answer_ctx_todo ..).trans (hidle.initialised cw)
  refine ⟨_, exec_init h hidle hr, State.answer_ready .., State.answer_ctrl .., fun b d hd => ?_, State.answer_trace ..,
    State.answer_ctx_resp .., State.answer_kind .., State.answer_lock .., State.answer_dmx .., htodo⟩
  simpa only [State.ended_reg] using h.initialised_regs hd cw

end Sys2Proof.Machine
end

section
/-! PROOFS. The statements of 60_exceptions.md: which tests refuse an operation before all others, that a failed operation has only answered, and that an ill-formed configuration has no controller. -/

namespace Sys2Proof.Machine

/-! ## Ill-formed configurations -/

theorem State.construct_eq_none_iff (c : Cfg) (p : Platform) : State.construct c p = none ↔ cfgWf c = false := by
  cases h : cfgWf c <;> simp [State.construct, h]

theorem step_of_illFormed {s : State} (h : cfgWf s.cfg = false) : step s = .fault .configurationDefect :=
  if_neg (by simp [h])

/-- Settles O6: construction and every step test the configuration before anything else. -/
theorem illFormedConfigurationIsRefused : Obligations.IllFormedConfigurationIsRefused :=
  ⟨State.construct_eq_none_iff, fun _ h => step_of_illFormed h⟩

/-! ## The prologue's tests -/

/-- Every pin operation begins with the prologue for its pin (42_pin_io.md R172). -/
theorem pinOperation.planOf_eq_prologue {i : Instr} {p : Nat} (h : pinOperation i p) (s : State) : ∃ k, planOf i s = prologue s p k := by
  rcases h with rfl | ⟨v, rfl⟩ | rfl | ⟨v, rfl⟩ | rfl | ⟨v, rfl⟩ | ⟨code, rfl⟩ | rfl | rfl | rfl <;> exact ⟨_, rfl⟩

theorem planDemux_not_ready {s : State} (h : s.ready = false) : planDemux s = raisePlan .notReady := if_neg (by simp [h])

/-- An operation whose plan only raises an error ends with that error (60_exceptions.md R270). -/
theorem State.Idle.exec_raise {s : State} (h : s.Idle) {i : Instr} {k : Status} (hp : planOf i s = raisePlan k) :
    exec i s = .next (s.ended k 0#32 0#32) := by
  rw [exec_eq_runPlan, hp, runPlan_raise h, State.ended]

/-- Settles O41: readiness is the first test of the prologue and of DEMUX. -/
theorem nothingRunsBeforeInit : Obligations.NothingRunsBeforeInit := by
  rintro s i p h hr (hpin | rfl)
  · obtain ⟨k, hk⟩ := hpin.planOf_eq_prologue s
    exact h.exec_raise (hk.trans (prologue_not_ready hr p k))
  · exact h.exec_raise (planDemux_not_ready hr)

/-- Settles O42: the pin's range is the second test of the prologue and the first of the pure operations. -/
theorem pinOutOfRangeIsRefused : Obligations.PinOutOfRangeIsRefused := by
  intro s p code h hp
  refine ⟨fun i hr hpin => ?_, (exec_locatep_out_of_range hp code).trans (runPlan_raise h _), exec_incap_out_of_range h hp,
    exec_outcap_out_of_range h hp, exec_valid_out_of_range h hp⟩
  obtain ⟨k, hk⟩ := hpin.planOf_eq_prologue s
  exact h.exec_raise (hk.trans (prologue_out_of_range hr hp k))

/-! ## How a plan ends -/

/-- The last line of an operation that does not fail: it answers OK, or waits for the walk to do so. -/
def Micro.EndsOk : Micro → Prop
  | .answer st _ _ => st = statusCode .ok
  | .answerBit _ | .awaitWalk => True
  | .acquire | .release | .read _ | .writeBit _ _ _ _ | .write _ _ | .bind _ _ | .setReady | .startWalk => False

/-- The ends a plan can have: a fatal outcome, one of the errors of the list `ks` and nothing besides, or lines of which the last ends the operation with OK. -/
inductive PlanEnds (ks : List Status) : Plan → Prop where
  | fault (f : Fault) : PlanEnds ks (.error f)
  | raise {k : Status} (mem : k ∈ ks) : PlanEnds ks (raisePlan k)
  | ok {l : List Micro} {m : Micro} (last : l.getLast? = some m) (ends : m.EndsOk) : PlanEnds ks (.ok l)

theorem answerPlan_ends (ks : List Status) (d : Word) : PlanEnds ks (answerPlan d) := .ok rfl rfl

/-- A test leads to one of two plans. -/
theorem PlanEnds.ite {ks : List Status} {c : Prop} [Decidable c] {a b : Plan} (ha : PlanEnds ks a) (hb : PlanEnds ks b) :
    PlanEnds ks (if c then a else b) := by
  split
  · exact ha
  · exact hb

theorem prologue_ends {ks : List Status} (hr : .notReady ∈ ks) (hp : .invalidArgument ∈ ks) {k : Plan} (h : PlanEnds ks k)
    (s : State) (p : Nat) : PlanEnds ks (prologue s p k) :=
  .ite (.ite h (.raise hp)) (.raise hr)

/-- SET's lines need two bus addresses, and without one the outcome is fatal. -/
theorem setLines_ends (ks : List Status) (p : Nat) (v : Bool) (s : State) : PlanEnds ks (setLines p v s) := by
  unfold setLines
  split
  · exact .fault _
  · split
    · exact .fault _
    · exact .ok rfl rfl

theorem settypeLines_ends (ks : List Status) (p : Nat) (k : Kind) (x : TypeBits) (s : State) : PlanEnds ks (settypeLines p k x s) := by
  unfold settypeLines
  split
  · exact .ok rfl rfl
  all_goals exact .fault _

theorem ienPlan_ends {ks : List Status} (hr : .notReady ∈ ks) (hp : .invalidArgument ∈ ks) (p : Nat) (v : Bool) (s : State) :
    PlanEnds ks (ienPlan p v s) := by
  refine prologue_ends hr hp (.ite ?_ (answerPlan_ends _ _)) s p
  split
  · exact .fault _
  · exact .ok rfl rfl

/-- Every operation's plan ends in OK, in one of the errors R275 lists for it, or fatally (60_exceptions.md R275). -/
theorem planOf_ends (i : Instr) (s : State) : PlanEnds (statusesOf i) (planOf i s) := by
  cases i <;> simp only [statusesOf]
  case locate b role =>
    rw [planOf, planLocate]
    split
    · exact answerPlan_ends _ _
    · exact .raise (by decide)
    · exact .raise (by decide)
    · exact .fault _
  case locatep p role =>
    refine .ite ?_ (.raise (by decide))
    split
    · exact .ok rfl rfl
    · exact .raise (by decide)
    · exact .raise (by decide)
    · exact .fault _
  case incap p => exact .ite (answerPlan_ends _ _) (.raise (by decide))
  case outcap p => exact .ite (answerPlan_ends _ _) (.raise (by decide))
  case valid p => exact answerPlan_ends _ _
  case get p =>
    refine prologue_ends (by decide) (by decide) ?_ s p
    split
    · exact .fault _
    · exact .ok rfl trivial
  case set p v => exact prologue_ends (by decide) (by decide) (.ite (setLines_ends _ p v s) (answerPlan_ends _ _)) s p
  case dirin p => exact prologue_ends (by decide) (by decide) (.ite (answerPlan_ends _ _) (.raise (by decide))) s p
  case dirout p v => exact prologue_ends (by decide) (by decide) (.ite (setLines_ends _ p v s) (.raise (by decide))) s p
  case dirq p => exact prologue_ends (by decide) (by decide) (.ite (answerPlan_ends _ _) (.ite (answerPlan_ends _ _) (.raise (by decide)))) s p
  case tol p v =>
    refine prologue_ends (by decide) (by decide) ?_ s p
    split
    · exact .fault _
    · exact .ok rfl rfl
  case settype p code =>
    refine prologue_ends (by decide) (by decide) (.ite ?_ (.raise (by decide))) s p
    split
    · exact .raise (by decide)
    · split
      · exact .raise (by decide)
      · exact settypeLines_ends _ p _ _ s
  case mask p => exact ienPlan_ends (by decide) (by decide) p false s
  case unmask p => exact ienPlan_ends (by decide) (by decide) p true s
  case ack p =>
    refine prologue_ends (by decide) (by decide) (.ite ?_ (.raise (by decide))) s p
    split
    · exact .fault _
    · exact .ok rfl rfl
  case demux => exact .ite (.ok rfl trivial) (.raise (by decide))
  case init cs =>
    refine .ite (.raise (by decide)) (.ite (.raise (by decide)) (.ite (.raise (by decide)) (.ite (.raise (by decide)) ?_)))
    dsimp only
    split
    · exact .fault _
    · exact .ok (List.getLast?_append_of_ne_nil _ nofun) rfl

/-! ## Ended operations -/

theorem ok_mem_statusesOf (i : Instr) : .ok ∈ statusesOf i := by cases i <;> exact List.mem_cons_self

/-- A line that ends an operation and has been done has answered OK. -/
theorem Micro.EndsOk.run_status {c : Ctx} {m : Micro} {s t : State} (h : m.EndsOk) (hr : m.run c s = .made t) :
    (t.ctx c).resp.status = statusCode .ok := by
  cases m with
  | answer st d msk => cases hr; exact (congrArg Resp.status (State.answer_ctx_resp ..)).trans h
  | answerBit i => cases hr; simp
  | awaitWalk => cases hr
  | _ => exact h.elim

/-- Lines whose last one ends the operation with OK have answered OK once nothing is left to do. -/
theorem runLines_endsOk {c : Ctx} {l : List Micro} {m : Micro} {s t : State} (h : m.EndsOk) (hr : runLines c (l ++ [m]) s = .next t)
    (hd : (t.ctx c).todo = []) : (t.ctx c).resp.status = statusCode .ok := by
  induction l generalizing s with
  | nil =>
    rcases runLines_cases hr with ⟨u, hu, ht⟩ | ⟨-, rfl⟩
    · cases ht; exact (congrArg Resp.status (State.setTodo_ctx_resp ..)).trans (h.run_status hu)
    · simp at hd
  | cons x l ih =>
    rcases runLines_cases hr with ⟨u, -, ht⟩ | ⟨-, rfl⟩
    · exact ih ht
    · simp at hd

/-- Settles O43: a plan that can end with an error is that error's answer alone. -/
theorem failedOperationHasNoEffect : Obligations.FailedOperationHasNoEffect := by
  intro i s t h hexec hdone
  rw [exec_eq_runPlan] at hexec
  have ends := planOf_ends i s
  generalize planOf i s = plan at hexec ends
  cases ends with
  | fault f => cases hexec
  | @raise k mem =>
    rw [runPlan_raise h] at hexec
    cases hexec
    rw [State.answer_ctx_resp]
    exact ⟨List.mem_map_of_mem mem, fun _ => ⟨k, rfl⟩⟩
  | ok last ends =>
    obtain ⟨l, rfl⟩ := List.getLast?_eq_some_iff.mp last
    have hok := runLines_endsOk ends hexec hdone
    exact ⟨hok ▸ List.mem_map_of_mem (ok_mem_statusesOf i), fun hne => absurd hok hne⟩

end Sys2Proof.Machine
end

section
/-! PROOFS. The statement of 70_reset_and_hazards.md on the reset of the block. -/

namespace Sys2Proof.Machine

/-- A block reset at the head of the queue always happens. -/
theorem step_blockReset {s : State} {l : List Input} (h : cfgWf s.cfg = true) (hi : s.inputs = .blockReset :: l) :
    step s = .next ({ s with inputs := l } : State).blockReset :=
  step_of_enabled h hi rfl

/-- Settles O51: the reset writes the block's own fields, and of the rest only the queue moves. -/
theorem blockResetKeepsRegisterFile : Obligations.BlockResetKeepsRegisterFile := fun _ _ h hi =>
  ⟨_, step_blockReset h hi, rfl, rfl, rfl, rfl, rfl, rfl, rfl, rfl, rfl, rfl, rfl, rfl, State.blockReset_todo _⟩

end Sys2Proof.Machine
end

section
/-! PROOFS. The invariant of the machine: a context's move keeps it (`moveContext_inv`), a command is its plan put in progress and such moves, and here the walk's transitions, the consumer's return and the environment's steps keep it too. -/

namespace Sys2Proof.Machine

/-! ## Changes the invariant does not speak of -/

/-- A context's answer and the inputs of its port have no part in the invariant, as long as its lines and its read word stay. -/
theorem State.Inv.setCtx {s : State} (h : s.Inv) {c : Ctx} {x : Context} (htodo : x.todo = (s.ctx c).todo) (htmp : x.tmp = (s.ctx c).tmp) :
    (s.setCtx c x).Inv := by
  refine h.congr (by simp) (by simp) (by simp) (by simp) (by simp) (by simp) (by simp) (by simp) (by simp) (fun d => ?_) (fun d => ?_) <;>
    by_cases hd : d = c
  · rw [hd, State.setCtx_ctx_self, htodo]
  · rw [State.setCtx_ctx_ne s hd]
  · rw [hd, State.setCtx_ctx_self, htmp]
  · rw [State.setCtx_ctx_ne s hd]

theorem State.Inv.answer {s : State} (h : s.Inv) (c : Ctx) (st : BitVec 4) (dat msk : Word) : (s.answer c st dat msk).Inv :=
  h.setCtx rfl rfl

theorem State.Inv.log {s : State} (h : s.Inv) (e : Event) : (s.log e).Inv :=
  h.congr rfl rfl rfl rfl rfl rfl rfl rfl rfl (fun d => by simp) (fun d => by simp)

theorem State.Inv.countDraw {s : State} (h : s.Inv) : s.countDraw.Inv :=
  h.congr rfl rfl rfl rfl rfl rfl rfl rfl rfl (fun d => by simp) (fun d => by simp)

theorem State.Inv.memRead {s t : State} (h : s.Inv) {who : Master} {a : Nat} {w : Word} (hr : s.memRead who a = .ok (w, t)) : t.Inv := by
  obtain ⟨g, -, ⟨b, -, -, rfl⟩ | ⟨-, -, rfl⟩⟩ := State.memRead_cases hr
  · exact h.countDraw.log _
  · exact h.log _

theorem State.Inv.setLine {s : State} (h : s.Inv) (v : Bool) : (s.setLine v).Inv :=
  h.congr rfl rfl rfl rfl rfl rfl rfl rfl rfl (fun d => by cases d <;> rfl) (fun d => by cases d <;> rfl)

/-- Of the samples the invariant says only how many there are. -/
theorem State.Inv.resample {s : State} (h : s.Inv) (b : Nat) (f : Sample → Sample) : (s.resample b f).Inv :=
  h.congr rfl rfl rfl rfl rfl rfl rfl rfl (by simp) (fun d => by simp) (fun d => by simp)

/-! ## Operations in progress while status registers change -/

/-- Inside a locked section, the address last read matters only where the write half of its bit update comes next. -/
theorem Disciplined.forget_read {C : Cfg} {x : Option Nat} {l : List Micro} (h : Disciplined C true x l) :
    Disciplined C true none l ∨ ∃ src a m v l', l = .writeBit src a m v :: l' ∧ x = some src := by
  cases l with
  | nil => exact .inl h
  | cons m l =>
    cases m with
    | writeBit src a m v => exact .inr ⟨src, a, m, v, l, rfl, h.2.1⟩
    | bind p k => exact absurd h.1 nofun
    | _ => exact .inl h

/-- No bit update reads a status register (43_irq_control.md R197). -/
theorem Micro.Legal.source_ne_istat {C : Cfg} {src a : Nat} {m : Word} {v : Bool} (h : (Micro.writeBit src a m v).Legal C) (b : Nat) :
    regAt C src ≠ some (.bank b .istat) := by
  obtain ⟨p, -, -, hupd⟩ := h
  obtain ⟨r, -, hsrc, -, hne⟩ := hupd.written
  exact fun hg => hne (Reg.bank.inj (Option.some.inj (hsrc.symm.trans hg))).2

/-- An operation of a context that stays as it is goes on in progress where at most status words change: what it has read for a bit update is none (20_memory.md R75). -/
theorem State.InProgress.of_ctx_eq {s t : State} {c : Ctx} (h : s.InProgress c) (hcfg : t.cfg = s.cfg) (hlock : t.lock = s.lock)
    (hctx : t.ctx c = s.ctx c) (hword : ∀ a, (∀ b, regAt s.cfg a ≠ some (.bank b .istat)) → t.wordAt a = s.wordAt a) : t.InProgress c := by
  obtain ⟨hlegal, hcase⟩ := h
  simp only [State.InProgress, hcfg, hlock, hctx]
  refine ⟨hlegal, hcase.imp id fun ⟨x, hdisc, hfresh⟩ => ?_⟩
  by_cases hheld : s.lock = .held c
  · rw [decide_eq_true hheld] at hdisc ⊢
    rcases hdisc.forget_read with hnone | ⟨src, a, m, v, l, htodo, rfl⟩
    · exact ⟨none, hnone, nofun⟩
    · have hlegal' : (Micro.writeBit src a m v).Legal s.cfg := hlegal _ (htodo ▸ List.mem_cons_self)
      refine ⟨some src, hdisc, fun _ w ha _ hw => ?_⟩
      cases ha
      rw [hword src hlegal'.source_ne_istat] at hw
      exact hctx ▸ hfresh src w rfl hheld hw
  · exact ⟨x, hdisc, fun _ _ _ hl => absurd (hlock.symm.trans hl) hheld⟩

/-! ## The walk -/

/-- Before INIT there is no walk. -/
theorem State.Inv.ready_of_walking {s : State} (h : s.Inv) (hd : s.dmx ≠ .idle) : s.ready = true := by
  by_contra hr
  exact hd (h.before (by simpa using hr)).dmx

/-- A walk in progress that goes on to another place, with nothing in progress in the interrupt context, keeps the invariant (44_demux.md R222 to R226). -/
theorem State.Inv.walkTo {s : State} (h : s.Inv) (hd : s.dmx ≠ .idle) (hint : s.interrupt.todo = []) {d : Dmx} (n : Nat)
    (hplace : ({ s with dmx := d, walkCount := n } : State).WalkPlace) (hd' : d ≠ .idle) :
    ({ s with dmx := d, walkCount := n } : State).Inv where
  shaped  := h.shaped.congr rfl rfl rfl rfl
  untyped := h.untyped
  place   := hplace
  owner   := ⟨fun c hc => ⟨hd', (h.owner.waits c hc).2⟩, fun k _ hk => h.owner.normal k hd hk, fun _ => hint⟩
  before  := fun hr => absurd ((h.ready_of_walking hd).symm.trans hr) nofun
  after   := h.after

/-- An invocation that the upstream line starts keeps the invariant: nobody waits for it (44_demux.md R233). -/
theorem State.Inv.takeLine {s t : State} (h : s.Inv) (ht : s.takeLine = .made t) : t.Inv := by
  obtain ⟨hr, -, ht⟩ := State.takeLine_cases ht
  obtain ⟨hidle, -, rfl⟩ := State.startWalk_cases ht
  exact {
    shaped  := h.shaped.congr rfl rfl rfl rfl
    untyped := h.untyped
    place   := Nat.zero_le _
    owner   := ⟨fun c hc => absurd hidle (h.owner.waits c hc).1, nofun, fun _ => h.owner.between (by simp [State.dispatching, hidle])⟩
    before  := fun hr' => absurd (hr.symm.trans hr') nofun
    after   := h.after }

@[simp] theorem State.walkFinish_cfg (s : State) : s.walkFinish.cfg = s.cfg := by simp [State.walkFinish]
@[simp] theorem State.walkFinish_samples (s : State) : s.walkFinish.samples = s.samples := by simp [State.walkFinish]
@[simp] theorem State.walkFinish_wordAt (s : State) (a : Nat) : s.walkFinish.wordAt a = s.wordAt a := by
  simp only [State.walkFinish, State.setTodo_wordAt, State.answer_wordAt]; rfl

/-- Whose port an invocation answers on has nothing in progress but the wait for it. -/
theorem State.WalkOwner.waited {s : State} (h : s.WalkOwner) (hd : s.dmx ≠ .idle) (hint : s.interrupt.todo = []) :
    (s.ctx s.walkFor).todo = [] ∨ (s.ctx s.walkFor).todo = [.awaitWalk] := by
  cases hfor : s.walkFor with
  | interrupt => exact .inl hint
  | normal k => exact .inr (h.normal k hd hfor)

/-- After an invocation nobody waits, and the interrupt context has nothing in progress. -/
theorem State.WalkOwner.walkFinish {s : State} (h : s.WalkOwner) (hint : s.interrupt.todo = []) : s.walkFinish.WalkOwner := by
  refine ⟨fun c hc => ?_, fun k hne => absurd s.walkFinish_frame.1 hne, fun _ => ?_⟩
  · by_cases hfor : c = s.walkFor
    · rw [State.walkFinish_todo hfor.symm] at hc; cases hc
    · rw [State.walkFinish_ctx_ne hfor] at hc
      exact absurd (h.waits c hc).2.symm hfor
  · by_cases hfor : .interrupt = s.walkFor
    · exact State.walkFinish_todo (c := .interrupt) hfor.symm
    · exact (congrArg Context.todo (State.walkFinish_ctx_ne hfor)).trans hint

/-- The end of an invocation ends the operation that waited for it, and no other (44_demux.md R227). -/
theorem State.Inv.walkFinish {s : State} (h : s.Inv) (hd : s.dmx ≠ .idle) (hint : s.interrupt.todo = []) : s.walkFinish.Inv := by
  obtain ⟨hdmx, -, hlock, -, hbanks, -, hkind, hready⟩ := s.walkFinish_frame
  have hr : s.ready = true := h.ready_of_walking hd
  refine ⟨h.shaped.congr s.walkFinish_cfg hbanks hkind s.walkFinish_samples, ?_, by rw [State.WalkPlace, hdmx]; trivial,
    h.owner.walkFinish hint, fun hr' => absurd (hr.symm.trans (hready.symm.trans hr')) nofun, fun _ c => ?_⟩
  · rw [State.UntypedWithoutIrq, hkind, s.walkFinish_cfg]
    exact h.untyped
  · by_cases hfor : c = s.walkFor
    · subst hfor
      exact .of_setTodo nofun rfl (by simpa using (h.after hr _).free (h.owner.waited hd hint))
    · exact (h.after hr c).of_ctx_eq s.walkFinish_cfg hlock (State.walkFinish_ctx_ne hfor) fun a _ => s.walkFinish_wordAt a

/-- A bank with interrupts is in the table. -/
theorem lt_nbanks_of_bankIrq {c : Cfg} {b : Nat} (h : bankIrq c b = true) : b < nbanks c := by
  obtain ⟨d, hd, -⟩ := desc_of_bankIrq h
  exact (List.getElem?_eq_some_iff.mp hd).1

/-- The demultiplexer's next transition keeps the invariant. -/
theorem State.Inv.walk {s t : State} (h : s.Inv) (ht : s.walk = .made t) : t.Inv := by
  have hint : s.interrupt.todo = [] := h.owner.between (State.dispatching_of_walk ht)
  have hne : s.dmx ≠ .idle := fun hd => by simp [State.walk, hd] at ht
  have hplace := h.place
  unfold State.WalkPlace at hplace
  rcases State.walk_cases ht with ⟨b, d, hd, hb, -, rfl⟩ | ⟨b, d, a, w, hd, hb, hirq, u, hu, rfl⟩ | ⟨b, hd, -, rfl⟩ | ⟨b, w, i, hd, -, rfl⟩
    | ⟨b, w, i, hd, hi, hw, -, rfl⟩ | ⟨b, w, i, hd, hi, -, rfl⟩ <;> rw [hd] at hplace
  · exact h.walkTo hne hint _ (List.getElem?_eq_some_iff.mp hb).1 nofun
  · obtain ⟨hcfg, -, -, -, -, -, hctx⟩ := memRead_outer hu
    have hbank : bankIrq u.cfg b = true := by rw [hcfg, bankIrq_of hb, hirq]
    exact (h.memRead hu).walkTo ((State.memRead_walkStands hu).1 ▸ hne) ((congrArg Context.todo (hctx .interrupt)).trans hint) _
      ⟨hbank, Nat.zero_le _⟩ nofun
  · exact h.walkFinish hne hint
  · exact h.walkTo hne hint _ (lt_nbanks_of_bankIrq hplace.1) nofun
  · exact (h.log _).walkTo hne hint _ ⟨hplace.1, hi, hw⟩ nofun
  · exact h.walkTo hne hint _ ⟨hplace.1, hi⟩ nofun

/-- The consumer's return, once its operations have ended, keeps the invariant (44_demux.md R226). -/
theorem State.Inv.dispatchReturn {s : State} (h : s.Inv) (hint : s.interrupt.todo = []) : s.dispatchReturn.Inv := by
  have hplace := h.place
  unfold State.WalkPlace at hplace
  unfold State.dispatchReturn
  split
  · rename_i b w i hd
    rw [hd] at hplace
    exact h.walkTo (by simp [hd]) hint _ ⟨hplace.1, hplace.2.1⟩ nofun
  · exact h

/-! ## The environment -/

theorem State.putReg_wordAt {s : State} {b a : Nat} {r : Role} (h : regAt s.cfg a ≠ some (.bank b r)) (w : Word) :
    (s.putReg b r w).wordAt a = s.wordAt a := by
  rcases hg : regAt s.cfg a with _ | ⟨b', q⟩ | _
  · simp [State.wordAt, hg]
  · have hother : ¬(b' = b ∧ q = r) := by rintro ⟨rfl, rfl⟩; exact h hg
    rw [State.wordAt_bank hg, State.wordAt_bank (s := s.putReg b r w) hg, State.reg_putReg_ne s (not_and_or.mp hother)]
  · simp [State.wordAt, hg]

/-- A word put into a status register keeps the invariant. -/
theorem State.Inv.putStatus {s : State} (h : s.Inv) (b : Nat) (w : Word) : (s.putReg b .istat w).Inv where
  shaped  := h.shaped.putReg b .istat w
  untyped := h.untyped
  place   := h.place
  owner   := ⟨h.owner.waits, h.owner.normal, h.owner.between⟩
  before  := fun hr => have hb := h.before hr; ⟨hb.lock, hb.dmx, hb.interrupt, hb.tail, hb.once⟩
  after   := fun hr c => (h.after hr c).of_ctx_eq rfl rfl (State.putReg_ctx ..) fun _ ha => State.putReg_wordAt (ha b) w

theorem State.Inv.statusSet {s : State} (h : s.Inv) (b : Nat) (w : Word) : (s.statusSet b w).Inv := by
  rcases s.statusSet_cases b w with e | ⟨g, m, -, -, e⟩ <;> rw [e]
  · exact h
  · exact (h.putStatus b _).resample b _

/-- A reset of the block leads to a state as after power-on but for the register file and the samples, whose shape it keeps (70_reset_and_hazards.md R310). -/
theorem State.Shaped.blockReset_inv {s : State} (h : s.Shaped) : s.blockReset.Inv where
  shaped  := ⟨h.cfg, h.banks, h.irq, List.length_replicate, h.samples⟩
  untyped := fun _ _ hk _ => List.eq_of_mem_replicate (List.mem_of_getElem? hk)
  place   := trivial
  owner   := ⟨fun c hc => by simp at hc, fun _ hne => absurd rfl hne, fun _ => rfl⟩
  before  := fun _ => ⟨rfl, rfl, rfl, fun c => .ended (s.blockReset_todo c), fun c _ hc => by simp [InitLines] at hc⟩
  after   := nofun

/-! ## Steps -/

theorem State.Inv.moved {s t : State} (h : s.Inv) (hm : s.Moved t) : t.Inv := by
  cases hm with
  | context c hm => exact moveContext_inv h hm
  | walk hm => exact h.walk hm
  | line hm => exact h.takeLine hm
  | none ht => exact ht ▸ h

/-- A command that runs is its plan put in progress and its context's moves, each of which keeps the invariant. -/
theorem State.Inv.issue {s t : State} (h : s.Inv) {c : Ctx} {w : Word} (hmay : s.mayIssue c w = true) (hi : s.issue c w = .next t) : t.Inv := by
  rcases State.issue_cases hi with rfl | ⟨i, l, hd, hplan, hrun⟩
  · exact (h.accept c w).answer _ _ _ _
  · exact runLines_induct hrun (h.started hmay hd hplan) fun _ _ => moveContext_inv

theorem State.Inv.start {s t : State} (h : s.Inv) {c : Ctx} {w : Word} (hmay : s.mayIssue c w = true) (hs : s.start c w = .next t) : t.Inv := by
  rcases State.start_cases hs with rfl | ⟨i, l, hd, hplan, rfl⟩
  · exact (h.accept c w).answer _ _ _ _
  · exact h.started hmay hd hplan

/-- Every input that can happen keeps the invariant. -/
theorem State.Inv.perform {s t : State} (h : s.Inv) {e : Input} (he : e.enabled s = true) (hs : e.perform s = .next t) : t.Inv := by
  cases e with
  | issue c w => exact h.issue he hs
  | start c w => exact h.start he hs
  | bus c => exact h.moved (.of_outcome hs (.context c))
  | walk => exact h.moved (.of_outcome hs .walk)
  | takeLine => exact h.moved (.of_outcome hs .line)
  | consumerDone =>
    cases hs
    exact h.dispatchReturn (List.isEmpty_iff.mp (Bool.and_eq_true_iff.mp he).2)
  | writeOp0 | writeOp1 => cases hs; exact h.setCtx rfl rfl
  | setLine v => cases hs; exact h.setLine v
  | pinChange b w => cases hs; exact h.resample b _
  | statusSet b w => cases hs; exact h.statusSet b w
  | blockReset => cases hs; exact h.shaped.blockReset_inv

/-- Settles O53: a step is a move of one agent or an input that can happen, and each keeps the invariant. -/
theorem stepKeepsInvariant : Obligations.StepKeepsInvariant := by
  intro s t h hstep
  obtain ⟨-, hm | ⟨e, l, -, he, hs⟩⟩ := step_cases hstep
  · exact h.moved hm
  · exact (h.setInputs l).perform he hs

end Sys2Proof.Machine
end
